-- ==== Sys2Proof/Word.lean ====
section
/-! DEFINITION. The word types of the TronAesCrypt crypto engine (TACE): bytes, 32-bit register words,
64-bit SHA-512 words and byte strings (00_scope.md rules R10, R11). -/

namespace Sys2Proof

/-- A byte of BUF or of a byte string (R11). -/
abbrev Byte := BitVec 8

/-- A 32-bit register or command word (R10). -/
abbrev Word := BitVec 32

/-- A 64-bit word of SHA-512 (R177). -/
abbrev DWord := BitVec 64

/-- A byte string, first byte first (R11). -/
abbrev Bytes := List Byte

end Sys2Proof
end

