-- ==== Sys2Proof/Config.lean ====
section
/-! DEFINITION. The implementation parameters of 00_scope.md rule R7. The fixed ones are numbers. The ones
the spec leaves OPEN are opaque constants: nothing can be proved of their value. The one value a platform
varies and software reads back, BUF_BYTES, is the enumeration `BufSize`; a state carries its choice. -/

namespace Sys2Proof

/-- The legal sizes of the data buffer BUF (R7, U30). -/
inductive BufSize where
  | b4096
  | b8192
  | b16384
  | b32768
  deriving DecidableEq, Repr

/-- CAPS.BUF_LOG2 of a buffer size (R26). -/
def BufSize.log2 : BufSize → Nat
  | .b4096 => 12
  | .b8192 => 13
  | .b16384 => 14
  | .b32768 => 15

/-- BUF_BYTES (R7). -/
def BufSize.bytes : BufSize → Nat
  | .b4096 => 4096
  | .b8192 => 8192
  | .b16384 => 16384
  | .b32768 => 32768

/-- NUM_KEY_SLOTS (R7). -/
def Config.numKeySlots : Nat := 4

/-- CAPS.HWREV (R26, decision D1). -/
def Config.hwRev : Nat := 1

/-- PW_MAX_BYTES (R7, R223). -/
def Config.pwMaxBytes : Nat := 2048

/-- CTX_MAX_BYTES (R7, R282). -/
def Config.ctxMaxBytes : Nat := 2 ^ 60

/-- LEGACY_ROUNDS (R7, R193, R226). -/
def Config.legacyRounds : Nat := 8192

/-- ITER_RESET (R7, R42). -/
def Config.iterReset : Word := 300000#32

/-- The default iteration count of ENCRYPT, 300000: ITER's reset value (R42, R318, R328). -/
def Config.defaultCount : Nat := Config.iterReset.toNat

/-- LATENCY (R7, R420, R421, U27): how many host steps pass between the issue of the n-th command and the
engine's completion step. A free value: any finite number, a fresh one for every issue (log entry 3). -/
opaque Config.latency : Nat → Nat

/-- BASE divided by 0x10000 (R7, U28): OPEN, so a free value (log entry 4). -/
opaque Config.baseIndex : Nat

/-- BASE, the window's bus address: any address aligned to 0x10000 (R7). -/
def Config.base : Nat := Config.baseIndex * 0x10000

/-- IRQ_LINE, the host interrupt input that irq drives (R7, R367, U29): OPEN (log entry 5). -/
opaque Config.irqLine : Nat

/-- The polarity of irq on the board, `true` where the host's input is high while irq is 1 (R367, part of
IRQ_LINE in section 2 of 92_eei_decisions.md): OPEN, so a free value (log entry 5). -/
opaque Config.irqActiveHigh : Bool

/-- The three ASCII characters of MAGIC (R7, R312, N1): OPEN (log entry 6). -/
opaque Config.magicChar : Fin 3 → Fin 128

/-- MAGIC as the 3 bytes a container starts with (R312). -/
def Config.magic : Bytes :=
  [BitVec.ofNat 8 (Config.magicChar 0).val, BitVec.ofNat 8 (Config.magicChar 1).val,
   BitVec.ofNat 8 (Config.magicChar 2).val]

/-- CREATED_BY, the first string of the vendor record (R7, R314, N2): OPEN (log entry 6). -/
opaque Config.createdBy : Bytes

/-- APP_STRING, the second string of the vendor record (R7, R314, N2): OPEN (log entry 6). -/
opaque Config.appString : Bytes

end Sys2Proof
end

