-- ==== Sys2Proof/Syntax.lean ====
section
/-! DEFINITION. The syntax: the sixteen commands of 30_encoding.md rule R103, the raw fields of a command word
(R101), and the statements of a host program (R109, R110; 46_host_sequences.md). -/

namespace Sys2Proof

/-- The hash a context or an HMAC uses: field H of the command word (R101, R45). -/
inductive HashAlg where
  | sha256
  | sha512
  deriving DecidableEq, Repr

/-- A key slot number, field KS of the command word (R101). -/
abbrev KeySlot := Fin 4

/-- The commands, one constructor per row of the opcode map (R103). `m` is the MAC-feed bit M. -/
inductive Instr where
  | nop
  | zeroize
  | kdfLegacy (ks : KeySlot)
  | kdfPbkdf2 (ks : KeySlot)
  | cbcEnc (ks : KeySlot) (m : Bool)
  | cbcDec (ks : KeySlot) (m : Bool)
  | cbcEncPkcs7 (ks : KeySlot) (m : Bool)
  | cbcDecPkcs7 (ks : KeySlot) (m : Bool)
  | cbcEncLegacy (ks : KeySlot) (m : Bool)
  | cbcDecLegacy (ks : KeySlot) (m : Bool)
  | macInitKs (ks : KeySlot) (h : HashAlg)
  | macInitBuf (h : HashAlg)
  | hashInit (h : HashAlg)
  | ctxUpdate
  | ctxFinal
  | ctxVerify
  deriving DecidableEq, Repr

/-- The fields of a command word as they stand in it, reserved ones included (R101). Not every combination
spells a command: `RawCommand.wellFormed` says which do. -/
structure RawCommand where
  /-- OPC, bits 7:0 -/
  opc : BitVec 8
  /-- KS, bits 9:8 -/
  ks : BitVec 2
  /-- M, bit 10 -/
  m : Bool
  /-- bit 11, reserved -/
  rsv11 : Bool
  /-- H, bit 12 -/
  h : Bool
  /-- bits 31:13, reserved -/
  rsv : BitVec 19
  deriving DecidableEq, Repr

/-- The width of a host access: 1, 2 or 4 bytes (R70). -/
inductive Width where
  | w1
  | w2
  | w4
  deriving DecidableEq, Repr

/-- The number of bytes of an access width (R70). -/
def Width.bytes : Width → Nat
  | .w1 => 1
  | .w2 => 2
  | .w4 => 4

/-- Where a host access goes: a window offset, or a bus address outside the window (R70, U24). -/
inductive BusAddr where
  | window (offset : BitVec 16)
  | outside
  deriving DecidableEq, Repr

/-- The format version of a container (R311). -/
inductive Version where
  | legacy
  | current
  deriving DecidableEq, Repr

/-- The error kinds a host sequence raises (R336). `hostFault` stands for the completion codes that serve
none of the source's kinds ("the host sequence is faulty"). -/
inductive ErrorKind where
  | invalidParameter
  | notAContainer
  | unsupportedVersion
  | corruptContainer
  | authenticationFailed
  | hostFault
  deriving DecidableEq, Repr

/-- Which sequence opens the content (R338, R340, R342, R343). -/
inductive OpenMode where
  | current
  | legacy
  | legacyBuffered
  deriving DecidableEq, Repr

/-- What the host holds between UNWRAP and the content sequence of DECRYPT (R344): the sequence to run, the
stored modulo byte, the stored content tag, the ciphertext region and the size of its pieces. -/
structure OpenArgs where
  mode : OpenMode
  modulo : Byte
  tag : Bytes
  region : Bytes
  pieceBytes : Nat
  deriving DecidableEq, Repr

/-- The statements of a host program: the primitive accesses and the pseudo-instructions that are no fixed
list of accesses (R109, R110, R323), the host's own work around them (46_host_sequences.md), and the
power-on reset event (R400). -/
inductive HostStmt where
  /-- `rd`, `rd8`, `rd16`: one read -/
  | rd (a : BusAddr) (w : Width)
  /-- `wr`, `wr8`, `wr16`: one write -/
  | wr (a : BusAddr) (w : Width) (v : Word)
  /-- one read whose first `keep` bytes the host keeps -/
  | get (a : BusAddr) (w : Width) (keep : Nat)
  /-- `rd OUTLEN ; rdb BUF+o, OUTLEN`, the bytes kept -/
  | getOutput (o : Nat)
  /-- `wait`: read STATUS until bit 0 is 0 -/
  | wait
  /-- `chk`: read ERRCODE; if it is not 0, stop and raise the error kind of R336 -/
  | chk
  /-- emit the given bytes -/
  | emit (bs : Bytes)
  /-- emit `n` of the kept bytes from index `i` -/
  | emitGot (i n : Nat)
  /-- forget the kept bytes -/
  | clearGot
  /-- stop the sequence and raise an error kind (R337) -/
  | raise (k : ErrorKind)
  /-- take the 48 kept bytes as content IV and content key and run the content sequence (R344 step 6) -/
  | openContent (args : OpenArgs)
  /-- power-on reset of the engine (R400) -/
  | powerOnReset
  deriving DecidableEq, Repr

end Sys2Proof
end

