-- ==== Sys2Proof/WellFormed.lean ====
section
/-! DEFINITION. Well-formedness: which raw command words spell a command (30_encoding.md rule R106), and which
host statements are accesses the bus can carry (20_memory.md rule R70). An `Instr` is well-formed by its types. -/

namespace Sys2Proof

/-- The opcodes of the map (R103); every other OPC is reserved (R106 (a)). -/
def RawCommand.opcodeDefined (c : RawCommand) : Bool :=
  [0x00#8, 0x01#8, 0x10#8, 0x11#8, 0x20#8, 0x21#8, 0x22#8, 0x23#8, 0x24#8, 0x25#8,
   0x30#8, 0x31#8, 0x32#8, 0x33#8, 0x34#8, 0x35#8].contains c.opc

/-- Bit 11 and bits 31:13 are 0 (R101). -/
def RawCommand.reservedClear (c : RawCommand) : Bool :=
  !c.rsv11 && c.rsv == 0#19

/-- The opcode's row admits the field KS (R101, R103). -/
def RawCommand.admitsKs (c : RawCommand) : Bool :=
  [0x10#8, 0x11#8, 0x20#8, 0x21#8, 0x22#8, 0x23#8, 0x24#8, 0x25#8, 0x30#8].contains c.opc

/-- The opcode's row admits the field M (R101, R103). -/
def RawCommand.admitsM (c : RawCommand) : Bool :=
  [0x20#8, 0x21#8, 0x22#8, 0x23#8, 0x24#8, 0x25#8].contains c.opc

/-- The opcode's row admits the field H (R101, R103). -/
def RawCommand.admitsH (c : RawCommand) : Bool :=
  [0x30#8, 0x31#8, 0x32#8].contains c.opc

/-- The word spells a command: a defined opcode, reserved bits 0, and 0 in every field the row does not
admit (R101, R106). -/
def RawCommand.wellFormed (c : RawCommand) : Bool :=
  c.opcodeDefined && c.reservedClear &&
  (c.admitsKs || c.ks == 0#2) && (c.admitsM || !c.m) && (c.admitsH || !c.h)

/-- A written value has 8·w bits (R70). -/
def HostStmt.wellFormed : HostStmt → Bool
  | .wr _ w v => v.toNat < 2 ^ (8 * w.bytes)
  | .get _ w keep => keep ≤ w.bytes
  | .openContent args => 0 < args.pieceBytes && args.pieceBytes % 16 == 0 && args.tag.length == 32
  | .rd _ _ => true
  | .getOutput _ => true
  | .wait => true
  | .chk => true
  | .emit _ => true
  | .emitGot _ _ => true
  | .clearGot => true
  | .raise _ => true
  | .powerOnReset => true

/-- Every statement of a host program is well-formed. -/
def programWellFormed (p : List HostStmt) : Bool :=
  p.all HostStmt.wellFormed

end Sys2Proof
end

