-- ==== Sys2Proof/Decode.lean ====
section
/-! DEFINITION. The decoder and the encoder of command words (30_encoding.md rules R100 to R108), and the byte
order of a word on the little-endian bus (20_memory.md rule R72). -/

namespace Sys2Proof

/-! ### Bytes and words -/

/-- The 4 bytes of a word, byte 0 in bits 7:0 (R72). -/
def wordBytes (w : Word) : Bytes :=
  [w.extractLsb' 0 8, w.extractLsb' 8 8, w.extractLsb' 16 8, w.extractLsb' 24 8]

/-- The word whose little-endian bytes are the four given (`le32`, R11). -/
def leWord (b0 b1 b2 b3 : Byte) : Word := b3 ++ b2 ++ b1 ++ b0

/-- The little-endian word at the start of a byte string; bytes past its end count as 0: so a
read of 1 or 2 bytes is a number below 2^8 or 2^16 (R72, log entry 17), and else log entry 11. -/
def leWordOf (bs : Bytes) : Word :=
  leWord (bs.getD 0 0#8) (bs.getD 1 0#8) (bs.getD 2 0#8) (bs.getD 3 0#8)

/-! ### The opcode map -/

/-- A row of the opcode map (R103): the match and the mask a decoder applies. -/
structure OpcodeRow where
  pattern : Word
  mask : Word
  deriving DecidableEq, Repr

/-- The opcode map, in the order of R103. -/
def opcodeRows : List OpcodeRow :=
  [⟨0x00000000#32, 0xFFFFFFFF#32⟩,  -- NOP
   ⟨0x00000001#32, 0xFFFFFFFF#32⟩,  -- ZEROIZE
   ⟨0x00000010#32, 0xFFFFFCFF#32⟩,  -- KDF_LEGACY
   ⟨0x00000011#32, 0xFFFFFCFF#32⟩,  -- KDF_PBKDF2
   ⟨0x00000020#32, 0xFFFFF8FF#32⟩,  -- CBC_ENC
   ⟨0x00000021#32, 0xFFFFF8FF#32⟩,  -- CBC_DEC
   ⟨0x00000022#32, 0xFFFFF8FF#32⟩,  -- CBC_ENC_PKCS7
   ⟨0x00000023#32, 0xFFFFF8FF#32⟩,  -- CBC_DEC_PKCS7
   ⟨0x00000024#32, 0xFFFFF8FF#32⟩,  -- CBC_ENC_LEGACY
   ⟨0x00000025#32, 0xFFFFF8FF#32⟩,  -- CBC_DEC_LEGACY
   ⟨0x00000030#32, 0xFFFFECFF#32⟩,  -- MAC_INIT_KS
   ⟨0x00000031#32, 0xFFFFEFFF#32⟩,  -- MAC_INIT_BUF
   ⟨0x00000032#32, 0xFFFFEFFF#32⟩,  -- HASH_INIT
   ⟨0x00000033#32, 0xFFFFFFFF#32⟩,  -- CTX_UPDATE
   ⟨0x00000034#32, 0xFFFFFFFF#32⟩,  -- CTX_FINAL
   ⟨0x00000035#32, 0xFFFFFFFF#32⟩]  -- CTX_VERIFY

/-- A word spells a row iff `w & mask = match` (R104). -/
def OpcodeRow.spells (r : OpcodeRow) (w : Word) : Bool := w &&& r.mask == r.pattern

/-- The fields of a command word (R101). -/
def RawCommand.ofWord (w : Word) : RawCommand where
  opc := w.extractLsb' 0 8
  ks := w.extractLsb' 8 2
  m := w.getLsbD 10
  rsv11 := w.getLsbD 11
  h := w.getLsbD 12
  rsv := w.extractLsb' 13 19

/-- The field KS as a key slot (R102). -/
def slotOf (ks : BitVec 2) : KeySlot := ⟨ks.toNat, ks.isLt⟩

/-- The field H as a hash (R101). -/
def hashOf (h : Bool) : HashAlg := if h then .sha512 else .sha256

/-- The command an opcode names, with the fields KS, M and H (R103); `none` for a reserved opcode. -/
def commandOf (opc : BitVec 8) (ks : KeySlot) (m : Bool) (h : HashAlg) : Option Instr :=
  match opc.toNat with
  | 0x00 => some .nop
  | 0x01 => some .zeroize
  | 0x10 => some (.kdfLegacy ks)
  | 0x11 => some (.kdfPbkdf2 ks)
  | 0x20 => some (.cbcEnc ks m)
  | 0x21 => some (.cbcDec ks m)
  | 0x22 => some (.cbcEncPkcs7 ks m)
  | 0x23 => some (.cbcDecPkcs7 ks m)
  | 0x24 => some (.cbcEncLegacy ks m)
  | 0x25 => some (.cbcDecLegacy ks m)
  | 0x30 => some (.macInitKs ks h)
  | 0x31 => some (.macInitBuf h)
  | 0x32 => some (.hashInit h)
  | 0x33 => some .ctxUpdate
  | 0x34 => some .ctxFinal
  | 0x35 => some .ctxVerify
  | _ => none

/-- Why a command word is illegal (R106): its opcode is reserved, or a bit is set that its row does not admit. -/
inductive DecodeError where
  /-- R106 (a): a reserved opcode -/
  | reservedOpcode
  /-- R106 (b): a 1 in bit 11, in bits 31:13 or in a field the row does not admit -/
  | reservedBits
  deriving DecidableEq, Repr

/-- The decoder: total on every 32-bit word, rejecting by name (R104, R106). -/
def decodeWord (w : Word) : Except DecodeError Instr :=
  let c := RawCommand.ofWord w
  match commandOf c.opc (slotOf c.ks) c.m (hashOf c.h) with
  | none => .error .reservedOpcode
  | some i => if opcodeRows.any (fun r => r.spells w) then .ok i else .error .reservedBits

/-- The command a word spells, or `none` if it is illegal (R104, R106). -/
def decode (w : Word) : Option Instr := (decodeWord w).toOption

/-- The decoder on the bytes of a command word as the bus carries them (R72, R100): it takes the first 4
bytes, low byte first, and answers the rest too; a shorter string is no command word. -/
def decodeBytes : Bytes → Option (Instr × Bytes)
  | b0 :: b1 :: b2 :: b3 :: rest => (decode (leWord b0 b1 b2 b3)).map (fun i => (i, rest))
  | _ => none

/-- The instruction the decoder reads from the bits `w` of a row of `nbits` bits: laid out as the 4 bytes of
a command word, low byte first. -/
def decodeTableWord (nbits w : Nat) : Option Instr :=
  if w % 2 ^ nbits < 2 ^ 32 then
    (decodeBytes (wordBytes (BitVec.ofNat 32 (w % 2 ^ nbits)))).map Prod.fst
  else none

/-! ### The encoder -/

/-- The opcode of a command (R103). -/
def opcodeOf : Instr → BitVec 8
  | .nop => 0x00#8
  | .zeroize => 0x01#8
  | .kdfLegacy _ => 0x10#8
  | .kdfPbkdf2 _ => 0x11#8
  | .cbcEnc _ _ => 0x20#8
  | .cbcDec _ _ => 0x21#8
  | .cbcEncPkcs7 _ _ => 0x22#8
  | .cbcDecPkcs7 _ _ => 0x23#8
  | .cbcEncLegacy _ _ => 0x24#8
  | .cbcDecLegacy _ _ => 0x25#8
  | .macInitKs _ _ => 0x30#8
  | .macInitBuf _ => 0x31#8
  | .hashInit _ => 0x32#8
  | .ctxUpdate => 0x33#8
  | .ctxFinal => 0x34#8
  | .ctxVerify => 0x35#8

/-- `OPC | ks << 8 | m << 10 | h << 12` (R104). -/
def encodeFields (opc : BitVec 8) (ks : KeySlot) (m : Bool) (h : HashAlg) : Word :=
  opc.zeroExtend 32 ||| (BitVec.ofNat 32 ks.val <<< 8) ||| ((BitVec.ofBool m).zeroExtend 32 <<< 10) |||
    ((BitVec.ofBool (h == .sha512)).zeroExtend 32 <<< 12)

/-- The command word of a command, fields its row does not admit being 0 (R104). -/
def encode (i : Instr) : Word :=
  match i with
  | .nop => encodeFields (opcodeOf i) 0 false .sha256
  | .zeroize => encodeFields (opcodeOf i) 0 false .sha256
  | .kdfLegacy ks => encodeFields (opcodeOf i) ks false .sha256
  | .kdfPbkdf2 ks => encodeFields (opcodeOf i) ks false .sha256
  | .cbcEnc ks m => encodeFields (opcodeOf i) ks m .sha256
  | .cbcDec ks m => encodeFields (opcodeOf i) ks m .sha256
  | .cbcEncPkcs7 ks m => encodeFields (opcodeOf i) ks m .sha256
  | .cbcDecPkcs7 ks m => encodeFields (opcodeOf i) ks m .sha256
  | .cbcEncLegacy ks m => encodeFields (opcodeOf i) ks m .sha256
  | .cbcDecLegacy ks m => encodeFields (opcodeOf i) ks m .sha256
  | .macInitKs ks h => encodeFields (opcodeOf i) ks false h
  | .macInitBuf h => encodeFields (opcodeOf i) 0 false h
  | .hashInit h => encodeFields (opcodeOf i) 0 false h
  | .ctxUpdate => encodeFields (opcodeOf i) 0 false .sha256
  | .ctxFinal => encodeFields (opcodeOf i) 0 false .sha256
  | .ctxVerify => encodeFields (opcodeOf i) 0 false .sha256

end Sys2Proof
end

