-- ==== Sys2Proof/Machine/Bytes.lean ====
section
/-! DEFINITION. Byte strings (00_scope.md rule R11): exclusive or, big-endian numbers, slices, blocks, and the
registers that hold a byte string as words (20_memory.md rule R72). -/

namespace Sys2Proof.Machine

/-- `0^n` (R11). -/
def zeros (n : Nat) : Bytes := List.replicate n 0#8

/-- `byte(v)^n` (R11), for v < 256. DESIGN CHOICE: a larger v is taken modulo 256 (log entry 11). -/
def byteRep (v n : Nat) : Bytes := List.replicate n (BitVec.ofNat 8 v)

/-- `xor(s, t)`, byte by byte (R11). The rule defines it for strings of equal length only. DESIGN CHOICE: on
unequal lengths the longer string is cut to the length of the shorter; no command gets there (log entry 11). -/
def xorBytes (s t : Bytes) : Bytes := List.zipWith (· ^^^ ·) s t

/-- `s[i .. i+n)` (R11). DESIGN CHOICE: a slice that passes the end of the string has the bytes that are there (log
entries 11 and 22). -/
def slice (i n : Nat) (s : Bytes) : Bytes := (s.drop i).take n

/-- The first `k` pieces of `n` bytes of a byte string; past its end the pieces are short or empty (log entry
11). -/
def blocks (n : Nat) : Nat → Bytes → List Bytes
  | 0, _ => []
  | k + 1, s => s.take n :: blocks n k (s.drop n)

/-- The `n`-byte big-endian encoding of a number: `be32`, `be64`, `be128` for n = 4, 8, 16 (R11). DESIGN CHOICE: of
a number too large for n bytes the low n bytes are taken (log entries 6, 11 and 12). -/
def beBytes : Nat → Nat → Bytes
  | 0, _ => []
  | n + 1, x => beBytes n (x / 256) ++ [BitVec.ofNat 8 x]

/-- The number whose big-endian encoding is the byte string (R90). -/
def beNat (s : Bytes) : Nat := s.foldl (fun acc b => acc * 256 + b.toNat) 0

/-- The byte string that word registers hold: bytes 4j to 4j+3 in word j (R72). -/
def bytesOfWords {n : Nat} (ws : Vector Word n) : Bytes := ws.toList.flatMap wordBytes

/-- The word registers that hold a byte string of 4·n bytes (R72). DESIGN CHOICE: missing bytes count as 0 and
further bytes are ignored (log entry 11). -/
def wordsOfBytes (n : Nat) (s : Bytes) : Vector Word n :=
  Vector.ofFn fun j => leWordOf (s.drop (4 * j.val))

end Sys2Proof.Machine
end

