-- ==== Sys2Proof/Machine/Aes.lean ====
section
/-! DEFINITION. AES-256 and CBC chaining, 41_aes_core.md. -/

namespace Sys2Proof.Machine

/-! ### Bytes of GF(2^8) (R142) -/

/-- `xtime(a)` (R142). -/
def xtime (a : Byte) : Byte := (a <<< 1) ^^^ (if a.getLsbD 7 then 0x1B#8 else 0x00#8)

/-- The exclusive or of `p`, `xtime p`, .. over the bits i, i+1, .. set in b, for the next `k` bits. -/
def gfMulBits (b : Byte) : Nat → Byte → Nat → Byte
  | 0, _, _ => 0x00#8
  | k + 1, p, i => (if b.getLsbD i then p else 0x00#8) ^^^ gfMulBits b k (xtime p) (i + 1)

/-- The product `a • b` of GF(2^8): the exclusive or of `xtime^i(a)` over the bits i set in b (R142). -/
def gfMul (a b : Byte) : Byte := gfMulBits b 8 a 0

/-! ### S-boxes (R143, R144) -/

/-- Rows 0x to 7x of the table SBOX (R143). -/
def sboxTableLow : List Nat :=
  [0x63, 0x7c, 0x77, 0x7b, 0xf2, 0x6b, 0x6f, 0xc5, 0x30, 0x01, 0x67, 0x2b, 0xfe, 0xd7, 0xab, 0x76,
   0xca, 0x82, 0xc9, 0x7d, 0xfa, 0x59, 0x47, 0xf0, 0xad, 0xd4, 0xa2, 0xaf, 0x9c, 0xa4, 0x72, 0xc0,
   0xb7, 0xfd, 0x93, 0x26, 0x36, 0x3f, 0xf7, 0xcc, 0x34, 0xa5, 0xe5, 0xf1, 0x71, 0xd8, 0x31, 0x15,
   0x04, 0xc7, 0x23, 0xc3, 0x18, 0x96, 0x05, 0x9a, 0x07, 0x12, 0x80, 0xe2, 0xeb, 0x27, 0xb2, 0x75,
   0x09, 0x83, 0x2c, 0x1a, 0x1b, 0x6e, 0x5a, 0xa0, 0x52, 0x3b, 0xd6, 0xb3, 0x29, 0xe3, 0x2f, 0x84,
   0x53, 0xd1, 0x00, 0xed, 0x20, 0xfc, 0xb1, 0x5b, 0x6a, 0xcb, 0xbe, 0x39, 0x4a, 0x4c, 0x58, 0xcf,
   0xd0, 0xef, 0xaa, 0xfb, 0x43, 0x4d, 0x33, 0x85, 0x45, 0xf9, 0x02, 0x7f, 0x50, 0x3c, 0x9f, 0xa8,
   0x51, 0xa3, 0x40, 0x8f, 0x92, 0x9d, 0x38, 0xf5, 0xbc, 0xb6, 0xda, 0x21, 0x10, 0xff, 0xf3, 0xd2]

/-- Rows 8x to Fx of the table SBOX (R143). -/
def sboxTableHigh : List Nat :=
  [0xcd, 0x0c, 0x13, 0xec, 0x5f, 0x97, 0x44, 0x17, 0xc4, 0xa7, 0x7e, 0x3d, 0x64, 0x5d, 0x19, 0x73,
   0x60, 0x81, 0x4f, 0xdc, 0x22, 0x2a, 0x90, 0x88, 0x46, 0xee, 0xb8, 0x14, 0xde, 0x5e, 0x0b, 0xdb,
   0xe0, 0x32, 0x3a, 0x0a, 0x49, 0x06, 0x24, 0x5c, 0xc2, 0xd3, 0xac, 0x62, 0x91, 0x95, 0xe4, 0x79,
   0xe7, 0xc8, 0x37, 0x6d, 0x8d, 0xd5, 0x4e, 0xa9, 0x6c, 0x56, 0xf4, 0xea, 0x65, 0x7a, 0xae, 0x08,
   0xba, 0x78, 0x25, 0x2e, 0x1c, 0xa6, 0xb4, 0xc6, 0xe8, 0xdd, 0x74, 0x1f, 0x4b, 0xbd, 0x8b, 0x8a,
   0x70, 0x3e, 0xb5, 0x66, 0x48, 0x03, 0xf6, 0x0e, 0x61, 0x35, 0x57, 0xb9, 0x86, 0xc1, 0x1d, 0x9e,
   0xe1, 0xf8, 0x98, 0x11, 0x69, 0xd9, 0x8e, 0x94, 0x9b, 0x1e, 0x87, 0xe9, 0xce, 0x55, 0x28, 0xdf,
   0x8c, 0xa1, 0x89, 0x0d, 0xbf, 0xe6, 0x42, 0x68, 0x41, 0x99, 0x2d, 0x0f, 0xb0, 0x54, 0xbb, 0x16]

/-- The table SBOX (R143). -/
def sboxTable : List Nat := sboxTableLow ++ sboxTableHigh

/-- Rows 0x to 7x of the table INV_SBOX (R144). -/
def invSboxTableLow : List Nat :=
  [0x52, 0x09, 0x6a, 0xd5, 0x30, 0x36, 0xa5, 0x38, 0xbf, 0x40, 0xa3, 0x9e, 0x81, 0xf3, 0xd7, 0xfb,
   0x7c, 0xe3, 0x39, 0x82, 0x9b, 0x2f, 0xff, 0x87, 0x34, 0x8e, 0x43, 0x44, 0xc4, 0xde, 0xe9, 0xcb,
   0x54, 0x7b, 0x94, 0x32, 0xa6, 0xc2, 0x23, 0x3d, 0xee, 0x4c, 0x95, 0x0b, 0x42, 0xfa, 0xc3, 0x4e,
   0x08, 0x2e, 0xa1, 0x66, 0x28, 0xd9, 0x24, 0xb2, 0x76, 0x5b, 0xa2, 0x49, 0x6d, 0x8b, 0xd1, 0x25,
   0x72, 0xf8, 0xf6, 0x64, 0x86, 0x68, 0x98, 0x16, 0xd4, 0xa4, 0x5c, 0xcc, 0x5d, 0x65, 0xb6, 0x92,
   0x6c, 0x70, 0x48, 0x50, 0xfd, 0xed, 0xb9, 0xda, 0x5e, 0x15, 0x46, 0x57, 0xa7, 0x8d, 0x9d, 0x84,
   0x90, 0xd8, 0xab, 0x00, 0x8c, 0xbc, 0xd3, 0x0a, 0xf7, 0xe4, 0x58, 0x05, 0xb8, 0xb3, 0x45, 0x06,
   0xd0, 0x2c, 0x1e, 0x8f, 0xca, 0x3f, 0x0f, 0x02, 0xc1, 0xaf, 0xbd, 0x03, 0x01, 0x13, 0x8a, 0x6b]

/-- Rows 8x to Fx of the table INV_SBOX (R144). -/
def invSboxTableHigh : List Nat :=
  [0x3a, 0x91, 0x11, 0x41, 0x4f, 0x67, 0xdc, 0xea, 0x97, 0xf2, 0xcf, 0xce, 0xf0, 0xb4, 0xe6, 0x73,
   0x96, 0xac, 0x74, 0x22, 0xe7, 0xad, 0x35, 0x85, 0xe2, 0xf9, 0x37, 0xe8, 0x1c, 0x75, 0xdf, 0x6e,
   0x47, 0xf1, 0x1a, 0x71, 0x1d, 0x29, 0xc5, 0x89, 0x6f, 0xb7, 0x62, 0x0e, 0xaa, 0x18, 0xbe, 0x1b,
   0xfc, 0x56, 0x3e, 0x4b, 0xc6, 0xd2, 0x79, 0x20, 0x9a, 0xdb, 0xc0, 0xfe, 0x78, 0xcd, 0x5a, 0xf4,
   0x1f, 0xdd, 0xa8, 0x33, 0x88, 0x07, 0xc7, 0x31, 0xb1, 0x12, 0x10, 0x59, 0x27, 0x80, 0xec, 0x5f,
   0x60, 0x51, 0x7f, 0xa9, 0x19, 0xb5, 0x4a, 0x0d, 0x2d, 0xe5, 0x7a, 0x9f, 0x93, 0xc9, 0x9c, 0xef,
   0xa0, 0xe0, 0x3b, 0x4d, 0xae, 0x2a, 0xf5, 0xb0, 0xc8, 0xeb, 0xbb, 0x3c, 0x83, 0x53, 0x99, 0x61,
   0x17, 0x2b, 0x04, 0x7e, 0xba, 0x77, 0xd6, 0x26, 0xe1, 0x69, 0x14, 0x63, 0x55, 0x21, 0x0c, 0x7d]

/-- The table INV_SBOX (R144). -/
def invSboxTable : List Nat := invSboxTableLow ++ invSboxTableHigh

/-- `SBOX[a]` (R143). -/
def sbox (a : Byte) : Byte := BitVec.ofNat 8 (sboxTable.getD a.toNat 0)

/-- `INV_SBOX[a]` (R144). -/
def invSbox (a : Byte) : Byte := BitVec.ofNat 8 (invSboxTable.getD a.toNat 0)

/-! ### The state, in columns (R141) -/

/-- Four bytes: a column of the AES state, rows 0 to 3, or a word of the key schedule. -/
structure Quad where
  b0 : Byte
  b1 : Byte
  b2 : Byte
  b3 : Byte
  deriving DecidableEq, Repr

/-- The AES state as its four columns: byte (r, c) is row r of column c (R141). -/
structure AesState where
  c0 : Quad
  c1 : Quad
  c2 : Quad
  c3 : Quad
  deriving DecidableEq, Repr

/-- The word of 4 bytes at the start of a byte string; bytes past its end count as 0 (log entry 11). -/
def Quad.load (s : Bytes) : Quad :=
  ⟨s.getD 0 0#8, s.getD 1 0#8, s.getD 2 0#8, s.getD 3 0#8⟩

/-- The bytes of a word, in order. -/
def Quad.store (q : Quad) : Bytes := [q.b0, q.b1, q.b2, q.b3]

/-- Byte-wise exclusive or of two words. -/
def Quad.xor (p q : Quad) : Quad := ⟨p.b0 ^^^ q.b0, p.b1 ^^^ q.b1, p.b2 ^^^ q.b2, p.b3 ^^^ q.b3⟩

/-- The same function on each byte of a word. -/
def Quad.map (f : Byte → Byte) (q : Quad) : Quad := ⟨f q.b0, f q.b1, f q.b2, f q.b3⟩

/-- `load`: bytes fill the state column by column (R141). The rule loads 16 bytes. DESIGN CHOICE: missing bytes
count as 0 and further bytes are ignored (log entry 11). -/
def AesState.load (s : Bytes) : AesState :=
  ⟨Quad.load s, Quad.load (s.drop 4), Quad.load (s.drop 8), Quad.load (s.drop 12)⟩

/-- `store` (R141). -/
def AesState.store (s : AesState) : Bytes :=
  s.c0.store ++ s.c1.store ++ s.c2.store ++ s.c3.store

/-- The same function on each column. -/
def AesState.mapColumns (f : Quad → Quad) (s : AesState) : AesState :=
  ⟨f s.c0, f s.c1, f s.c2, f s.c3⟩

/-! ### The round functions -/

/-- SubBytes (R143). -/
def subBytes (s : AesState) : AesState := s.mapColumns (Quad.map sbox)

/-- InvSubBytes (R144). -/
def invSubBytes (s : AesState) : AesState := s.mapColumns (Quad.map invSbox)

/-- ShiftRows: `s'[r][c] = s[r][(c + r) mod 4]` (R145). -/
def shiftRows (s : AesState) : AesState :=
  ⟨⟨s.c0.b0, s.c1.b1, s.c2.b2, s.c3.b3⟩,
   ⟨s.c1.b0, s.c2.b1, s.c3.b2, s.c0.b3⟩,
   ⟨s.c2.b0, s.c3.b1, s.c0.b2, s.c1.b3⟩,
   ⟨s.c3.b0, s.c0.b1, s.c1.b2, s.c2.b3⟩⟩

/-- InvShiftRows: `s'[r][(c + r) mod 4] = s[r][c]` (R145). -/
def invShiftRows (s : AesState) : AesState :=
  ⟨⟨s.c0.b0, s.c3.b1, s.c2.b2, s.c1.b3⟩,
   ⟨s.c1.b0, s.c0.b1, s.c3.b2, s.c2.b3⟩,
   ⟨s.c2.b0, s.c1.b1, s.c0.b2, s.c3.b3⟩,
   ⟨s.c3.b0, s.c2.b1, s.c1.b2, s.c0.b3⟩⟩

/-- One column times the circulant matrix whose first row is (k0, k1, k2, k3):
`a_r' = k0•a_r xor k1•a_(r+1) xor k2•a_(r+2) xor k3•a_(r+3)`, indices mod 4 (R146). -/
def circulant (k0 k1 k2 k3 : Byte) (q : Quad) : Quad :=
  ⟨gfMul q.b0 k0 ^^^ gfMul q.b1 k1 ^^^ gfMul q.b2 k2 ^^^ gfMul q.b3 k3,
   gfMul q.b1 k0 ^^^ gfMul q.b2 k1 ^^^ gfMul q.b3 k2 ^^^ gfMul q.b0 k3,
   gfMul q.b2 k0 ^^^ gfMul q.b3 k1 ^^^ gfMul q.b0 k2 ^^^ gfMul q.b1 k3,
   gfMul q.b3 k0 ^^^ gfMul q.b0 k1 ^^^ gfMul q.b1 k2 ^^^ gfMul q.b2 k3⟩

/-- MixColumns (R146). -/
def mixColumns (s : AesState) : AesState := s.mapColumns (circulant 0x02#8 0x03#8 0x01#8 0x01#8)

/-- InvMixColumns (R146). -/
def invMixColumns (s : AesState) : AesState := s.mapColumns (circulant 0x0E#8 0x0B#8 0x0D#8 0x09#8)

/-- A round key: the words w[4r .. 4r+3] of the key schedule, one per column (R147). -/
abbrev RoundKey := AesState

/-- AddRoundKey (R147). -/
def addRoundKey (k : RoundKey) (s : AesState) : AesState :=
  ⟨s.c0.xor k.c0, s.c1.xor k.c1, s.c2.xor k.c2, s.c3.xor k.c3⟩

/-! ### Key expansion (R148) -/

/-- `RotWord` (R148). -/
def rotWord (q : Quad) : Quad := ⟨q.b1, q.b2, q.b3, q.b0⟩

/-- `SubWord` (R148). -/
def subWord (q : Quad) : Quad := q.map sbox

/-- `Rcon[i]`: 0x01, 0x02, .. 0x40 for i = 1 to 7 (R148). DESIGN CHOICE: 0 for other i, which the key expansion
never asks for (log entry 11). -/
def rcon : Nat → Byte
  | 1 => 0x01#8
  | 2 => 0x02#8
  | 3 => 0x04#8
  | 4 => 0x08#8
  | 5 => 0x10#8
  | 6 => 0x20#8
  | 7 => 0x40#8
  | _ => 0x00#8

/-- The word `w[i]` from `t = w[i-1]` and `w[i-8]` (R148). -/
def scheduleWord (i : Nat) (t back8 : Quad) : Quad :=
  if i % 8 = 0 then back8.xor ((subWord (rotWord t)).xor ⟨rcon (i / 8), 0x00#8, 0x00#8, 0x00#8⟩)
  else if i % 8 = 4 then back8.xor (subWord t)
  else back8.xor t

/-- `n` further words of the key schedule after `i` words; `acc` holds the words so far, the latest first. -/
def expandFrom : Nat → Nat → List Quad → List Quad
  | 0, _, acc => acc.reverse
  | n + 1, i, acc =>
    expandFrom n (i + 1) (scheduleWord i (acc.getD 0 ⟨0, 0, 0, 0⟩) (acc.getD 7 ⟨0, 0, 0, 0⟩) :: acc)

/-- KeyExpansion: the 60 words of a 32-byte key (R148). DESIGN CHOICE: a key's missing bytes count as 0 and further
bytes are ignored; every slot has 32 bytes (log entry 11). -/
def keyExpansion (k : Bytes) : List Quad :=
  expandFrom 52 8 ((List.range 8).map (fun i => Quad.load (k.drop (4 * i)))).reverse

/-- The round key of round r, 0 to 14 (R147). DESIGN CHOICE: words past the schedule's end count as 0; the cipher
asks for none (log entry 11). -/
def roundKey (w : List Quad) (r : Nat) : RoundKey :=
  ⟨w.getD (4 * r) ⟨0, 0, 0, 0⟩, w.getD (4 * r + 1) ⟨0, 0, 0, 0⟩,
   w.getD (4 * r + 2) ⟨0, 0, 0, 0⟩, w.getD (4 * r + 3) ⟨0, 0, 0, 0⟩⟩

/-! ### Block encryption and decryption -/

/-- One full round of the cipher: SubBytes, ShiftRows, MixColumns, AddRoundKey (R150). -/
def encRound (s : AesState) (k : RoundKey) : AesState :=
  addRoundKey k (mixColumns (shiftRows (subBytes s)))

/-- One full round of the inverse cipher: InvShiftRows, InvSubBytes, AddRoundKey, InvMixColumns (R152). -/
def decRound (s : AesState) (k : RoundKey) : AesState :=
  invMixColumns (addRoundKey k (invSubBytes (invShiftRows s)))

/-- The cipher under the key schedule `w`: rounds 1 to 13, then the last round without MixColumns (R150). -/
def cipher (w : List Quad) (s : AesState) : AesState :=
  let s := addRoundKey (roundKey w 0) s
  let s := ((List.range 13).map (fun r => roundKey w (r + 1))).foldl encRound s
  addRoundKey (roundKey w 14) (shiftRows (subBytes s))

/-- The inverse cipher: rounds 13 down to 1, then the last round without InvMixColumns (R152). -/
def invCipher (w : List Quad) (s : AesState) : AesState :=
  let s := addRoundKey (roundKey w 14) s
  let s := ((List.range 13).map (fun r => roundKey w (13 - r))).foldl decRound s
  addRoundKey (roundKey w 0) (invSubBytes (invShiftRows s))

/-- `AES_Enc(k, b)` (R150). -/
def aesEnc (k b : Bytes) : Bytes := (cipher (keyExpansion k) (AesState.load b)).store

/-- `AES_Dec(k, b)` (R152). -/
def aesDec (k b : Bytes) : Bytes := (invCipher (keyExpansion k) (AesState.load b)).store

/-! ### CBC chaining -/

/-- The loop of R155 over the blocks, each of 16 bytes (else log entry 11): the ciphertext and the chaining value. -/
def cbcEncBlocks (k : Bytes) : Bytes → List Bytes → Bytes × Bytes
  | iv, [] => ([], iv)
  | iv, p :: ps =>
    let c := aesEnc k (xorBytes p iv)
    let rest := cbcEncBlocks k c ps
    (c ++ rest.1, rest.2)

/-- The loop of R156 over the blocks, each of 16 bytes (else log entry 11): the plaintext and the chaining value. -/
def cbcDecBlocks (k : Bytes) : Bytes → List Bytes → Bytes × Bytes
  | iv, [] => ([], iv)
  | iv, c :: cs =>
    let rest := cbcDecBlocks k c cs
    (xorBytes (aesDec k c) iv ++ rest.1, rest.2)

/-- `CBC_Enc(k, iv, p)` for `|p| mod 16 = 0`: the ciphertext and the chaining value (R155). DESIGN CHOICE: on other
lengths, which the rule does not define, the bytes after the last whole block are dropped; no command gets there
(log entry 11). -/
def cbcEnc (k iv p : Bytes) : Bytes × Bytes := cbcEncBlocks k iv (blocks 16 (p.length / 16) p)

/-- `CBC_Dec(k, iv, c)` for `|c| mod 16 = 0`: the plaintext and the chaining value (R156). DESIGN CHOICE: on other
lengths, which the rule does not define, the bytes after the last whole block are dropped; no command gets there
(log entry 11). -/
def cbcDec (k iv c : Bytes) : Bytes × Bytes := cbcDecBlocks k iv (blocks 16 (c.length / 16) c)

end Sys2Proof.Machine
end

