-- ==== Sys2Proof/Machine/Sha.lean ====
section
/-! DEFINITION. SHA-256 and SHA-512, 42_hash_cores.md. Rule R182 gives SHA-512 as the compression of SHA-256 with
other constants, functions and widths, so one text over the word width serves both. -/

namespace Sys2Proof.Machine

/-- The eight words H[0..7] of a hash value, or the working variables a to h (R174). -/
structure HashValue (w : Nat) where
  a : BitVec w
  b : BitVec w
  c : BitVec w
  d : BitVec w
  e : BitVec w
  f : BitVec w
  g : BitVec w
  h : BitVec w
  deriving DecidableEq, Repr

/-- What distinguishes SHA-256 from SHA-512: constants, initial value and the four rotation functions
(R171, R173, R179, R181). -/
structure ShaFamily (w : Nat) where
  k : List (BitVec w)
  h0 : HashValue w
  bigSigma0 : BitVec w → BitVec w
  bigSigma1 : BitVec w → BitVec w
  smallSigma0 : BitVec w → BitVec w
  smallSigma1 : BitVec w → BitVec w

/-! ### Functions (R173, R181) -/

/-- `Ch(x, y, z)` (R173). -/
def ch {w : Nat} (x y z : BitVec w) : BitVec w := (x &&& y) ^^^ (~~~x &&& z)

/-- `Maj(x, y, z)` (R173). -/
def maj {w : Nat} (x y z : BitVec w) : BitVec w := (x &&& y) ^^^ (x &&& z) ^^^ (y &&& z)

/-- `ROTR^i xor ROTR^j xor ROTR^k` of x (R170, R173). -/
def rotr3 {w : Nat} (i j k : Nat) (x : BitVec w) : BitVec w :=
  x.rotateRight i ^^^ x.rotateRight j ^^^ x.rotateRight k

/-- `ROTR^i xor ROTR^j xor SHR^k` of x (R170, R173). -/
def rotr2shr {w : Nat} (i j k : Nat) (x : BitVec w) : BitVec w :=
  x.rotateRight i ^^^ x.rotateRight j ^^^ (x >>> k)

/-! ### Compression (R174, R182) -/

/-- `n` further words of the message schedule; `acc` holds the words so far, the latest first (R174). -/
def scheduleFrom {w : Nat} (F : ShaFamily w) : Nat → List (BitVec w) → List (BitVec w)
  | 0, acc => acc.reverse
  | n + 1, acc =>
    scheduleFrom F n
      ((F.smallSigma1 (acc.getD 1 0) + acc.getD 6 0 + F.smallSigma0 (acc.getD 14 0) + acc.getD 15 0) :: acc)

/-- The message schedule W[0 ..] of a block's 16 words, as long as the constants K (R174). DESIGN CHOICE: words that
a shorter block lacks count as 0; `shaDigest` gives 16 (log entry 11). -/
def schedule {w : Nat} (F : ShaFamily w) (block : List (BitVec w)) : List (BitVec w) :=
  scheduleFrom F (F.k.length - 16) block.reverse

/-- One round with K[t] and W[t] (R174). -/
def shaRound {w : Nat} (F : ShaFamily w) (v : HashValue w) (kw : BitVec w × BitVec w) : HashValue w :=
  let t1 := v.h + F.bigSigma1 v.e + ch v.e v.f v.g + kw.1 + kw.2
  let t2 := F.bigSigma0 v.a + maj v.a v.b v.c
  ⟨t1 + t2, v.a, v.b, v.c, v.d + t1, v.e, v.f, v.g⟩

/-- `H[i] <- H[i] + (a, .., h)[i]` (R174). -/
def HashValue.add {w : Nat} (x y : HashValue w) : HashValue w :=
  ⟨x.a + y.a, x.b + y.b, x.c + y.c, x.d + y.d, x.e + y.e, x.f + y.f, x.g + y.g, x.h + y.h⟩

/-- The compression of a block's 16 words into the hash value (R174, R182). -/
def compress {w : Nat} (F : ShaFamily w) (H : HashValue w) (block : List (BitVec w)) : HashValue w :=
  H.add ((F.k.zip (schedule F block)).foldl (shaRound F) H)

/-! ### Padding and the digest (R172, R176, R180, R183) -/

/-- `m ‖ 0x80 ‖ 0^z ‖ L` with the bit length L in `lenBytes` big-endian bytes and z the least number that makes
the whole a multiple of `blockBytes` (R172, R180; log entry 12). -/
def shaPad (blockBytes lenBytes : Nat) (m : Bytes) : Bytes :=
  let used := (m.length + 1 + lenBytes) % blockBytes
  m ++ [0x80#8] ++ zeros ((blockBytes - used) % blockBytes) ++ beBytes lenBytes (8 * m.length)

/-- A block as words of `n` big-endian bytes (R172, R180). -/
def blockWords (w n : Nat) (block : Bytes) : List (BitVec w) :=
  (blocks n 16 block).map (fun s => BitVec.ofNat w (beNat s))

/-- The bytes of a hash value, each word in `n` big-endian bytes (R176, R183). -/
def HashValue.toBytes {w : Nat} (n : Nat) (H : HashValue w) : Bytes :=
  [H.a, H.b, H.c, H.d, H.e, H.f, H.g, H.h].flatMap (fun x => beBytes n x.toNat)

/-- The digest of a message for words of `n` bytes, so blocks of 16·n bytes and a length of 2·n bytes
(R176, R183). -/
def shaDigest {w : Nat} (F : ShaFamily w) (n : Nat) (m : Bytes) : Bytes :=
  let padded := shaPad (16 * n) (2 * n) m
  (((blocks (16 * n) (padded.length / (16 * n)) padded).map (blockWords w n)).foldl (compress F) F.h0).toBytes n

/-! ### The two families -/

/-- The first half of the SHA-256 constants K[t] (R171). -/
def sha256KLow : List (BitVec 32) :=
  [0x428a2f98#32, 0x71374491#32, 0xb5c0fbcf#32, 0xe9b5dba5#32,
   0x3956c25b#32, 0x59f111f1#32, 0x923f82a4#32, 0xab1c5ed5#32,
   0xd807aa98#32, 0x12835b01#32, 0x243185be#32, 0x550c7dc3#32,
   0x72be5d74#32, 0x80deb1fe#32, 0x9bdc06a7#32, 0xc19bf174#32,
   0xe49b69c1#32, 0xefbe4786#32, 0x0fc19dc6#32, 0x240ca1cc#32,
   0x2de92c6f#32, 0x4a7484aa#32, 0x5cb0a9dc#32, 0x76f988da#32,
   0x983e5152#32, 0xa831c66d#32, 0xb00327c8#32, 0xbf597fc7#32,
   0xc6e00bf3#32, 0xd5a79147#32, 0x06ca6351#32, 0x14292967#32]

/-- The second half of the SHA-256 constants K[t] (R171). -/
def sha256KHigh : List (BitVec 32) :=
  [0x27b70a85#32, 0x2e1b2138#32, 0x4d2c6dfc#32, 0x53380d13#32,
   0x650a7354#32, 0x766a0abb#32, 0x81c2c92e#32, 0x92722c85#32,
   0xa2bfe8a1#32, 0xa81a664b#32, 0xc24b8b70#32, 0xc76c51a3#32,
   0xd192e819#32, 0xd6990624#32, 0xf40e3585#32, 0x106aa070#32,
   0x19a4c116#32, 0x1e376c08#32, 0x2748774c#32, 0x34b0bcb5#32,
   0x391c0cb3#32, 0x4ed8aa4a#32, 0x5b9cca4f#32, 0x682e6ff3#32,
   0x748f82ee#32, 0x78a5636f#32, 0x84c87814#32, 0x8cc70208#32,
   0x90befffa#32, 0xa4506ceb#32, 0xbef9a3f7#32, 0xc67178f2#32]

/-- The 64 SHA-256 constants K[t] (R171). -/
def sha256K : List (BitVec 32) := sha256KLow ++ sha256KHigh

/-- The initial hash value H0 of SHA-256 (R171). -/
def sha256H0 : HashValue 32 :=
  ⟨0x6a09e667#32, 0xbb67ae85#32, 0x3c6ef372#32, 0xa54ff53a#32,
   0x510e527f#32, 0x9b05688c#32, 0x1f83d9ab#32, 0x5be0cd19#32⟩

/-- The first half of the SHA-512 constants K[t] (R179). -/
def sha512KLow : List (BitVec 64) :=
  [0x428a2f98d728ae22#64, 0x7137449123ef65cd#64, 0xb5c0fbcfec4d3b2f#64, 0xe9b5dba58189dbbc#64,
   0x3956c25bf348b538#64, 0x59f111f1b605d019#64, 0x923f82a4af194f9b#64, 0xab1c5ed5da6d8118#64,
   0xd807aa98a3030242#64, 0x12835b0145706fbe#64, 0x243185be4ee4b28c#64, 0x550c7dc3d5ffb4e2#64,
   0x72be5d74f27b896f#64, 0x80deb1fe3b1696b1#64, 0x9bdc06a725c71235#64, 0xc19bf174cf692694#64,
   0xe49b69c19ef14ad2#64, 0xefbe4786384f25e3#64, 0x0fc19dc68b8cd5b5#64, 0x240ca1cc77ac9c65#64,
   0x2de92c6f592b0275#64, 0x4a7484aa6ea6e483#64, 0x5cb0a9dcbd41fbd4#64, 0x76f988da831153b5#64,
   0x983e5152ee66dfab#64, 0xa831c66d2db43210#64, 0xb00327c898fb213f#64, 0xbf597fc7beef0ee4#64,
   0xc6e00bf33da88fc2#64, 0xd5a79147930aa725#64, 0x06ca6351e003826f#64, 0x142929670a0e6e70#64,
   0x27b70a8546d22ffc#64, 0x2e1b21385c26c926#64, 0x4d2c6dfc5ac42aed#64, 0x53380d139d95b3df#64,
   0x650a73548baf63de#64, 0x766a0abb3c77b2a8#64, 0x81c2c92e47edaee6#64, 0x92722c851482353b#64]

/-- The second half of the SHA-512 constants K[t] (R179). -/
def sha512KHigh : List (BitVec 64) :=
  [0xa2bfe8a14cf10364#64, 0xa81a664bbc423001#64, 0xc24b8b70d0f89791#64, 0xc76c51a30654be30#64,
   0xd192e819d6ef5218#64, 0xd69906245565a910#64, 0xf40e35855771202a#64, 0x106aa07032bbd1b8#64,
   0x19a4c116b8d2d0c8#64, 0x1e376c085141ab53#64, 0x2748774cdf8eeb99#64, 0x34b0bcb5e19b48a8#64,
   0x391c0cb3c5c95a63#64, 0x4ed8aa4ae3418acb#64, 0x5b9cca4f7763e373#64, 0x682e6ff3d6b2b8a3#64,
   0x748f82ee5defb2fc#64, 0x78a5636f43172f60#64, 0x84c87814a1f0ab72#64, 0x8cc702081a6439ec#64,
   0x90befffa23631e28#64, 0xa4506cebde82bde9#64, 0xbef9a3f7b2c67915#64, 0xc67178f2e372532b#64,
   0xca273eceea26619c#64, 0xd186b8c721c0c207#64, 0xeada7dd6cde0eb1e#64, 0xf57d4f7fee6ed178#64,
   0x06f067aa72176fba#64, 0x0a637dc5a2c898a6#64, 0x113f9804bef90dae#64, 0x1b710b35131c471b#64,
   0x28db77f523047d84#64, 0x32caab7b40c72493#64, 0x3c9ebe0a15c9bebc#64, 0x431d67c49c100d4c#64,
   0x4cc5d4becb3e42b6#64, 0x597f299cfc657e2a#64, 0x5fcb6fab3ad6faec#64, 0x6c44198c4a475817#64]

/-- The 80 SHA-512 constants K[t] (R179). -/
def sha512K : List (BitVec 64) := sha512KLow ++ sha512KHigh

/-- The initial hash value H0 of SHA-512 (R179). -/
def sha512H0 : HashValue 64 :=
  ⟨0x6a09e667f3bcc908#64, 0xbb67ae8584caa73b#64, 0x3c6ef372fe94f82b#64, 0xa54ff53a5f1d36f1#64,
   0x510e527fade682d1#64, 0x9b05688c2b3e6c1f#64, 0x1f83d9abfb41bd6b#64, 0x5be0cd19137e2179#64⟩

/-- SHA-256 (R171, R173). -/
def sha256Family : ShaFamily 32 where
  k := sha256K
  h0 := sha256H0
  bigSigma0 := rotr3 2 13 22
  bigSigma1 := rotr3 6 11 25
  smallSigma0 := rotr2shr 7 18 3
  smallSigma1 := rotr2shr 17 19 10

/-- SHA-512 (R179, R181). -/
def sha512Family : ShaFamily 64 where
  k := sha512K
  h0 := sha512H0
  bigSigma0 := rotr3 28 34 39
  bigSigma1 := rotr3 14 18 41
  smallSigma0 := rotr2shr 1 8 7
  smallSigma1 := rotr2shr 19 61 6

/-- `SHA256(m)` (R176). -/
def sha256 (m : Bytes) : Bytes := shaDigest sha256Family 4 m

/-- `SHA512(m)` (R183). -/
def sha512 (m : Bytes) : Bytes := shaDigest sha512Family 8 m

end Sys2Proof.Machine
end

