-- ==== Sys2Proof/Machine/Hmac.lean ====
section
/-! DEFINITION. HMAC, PBKDF2-HMAC-SHA-512 and the legacy stretch, 42_hash_cores.md sections 3 to 5. -/

namespace Sys2Proof.Machine

/-- `h(m)` for the hash h (R280). -/
def hashBytes (h : HashAlg) (m : Bytes) : Bytes :=
  match h with
  | .sha256 => sha256 m
  | .sha512 => sha512 m

/-- The block size B of a hash (R185). -/
def hashBlockBytes : HashAlg → Nat
  | .sha256 => 64
  | .sha512 => 128

/-- The output size Lh of a hash (R185). -/
def hashOutBytes : HashAlg → Nat
  | .sha256 => 32
  | .sha512 => 64

/-- `K0`: the key, hashed first if longer than a block, then zero-filled to a block (R186). -/
def hmacKey (h : HashAlg) (key : Bytes) : Bytes :=
  let k' := if hashBlockBytes h < key.length then hashBytes h key else key
  k' ++ zeros (hashBlockBytes h - k'.length)

/-- `HMAC(h, K, m)` (R186). -/
def hmac (h : HashAlg) (key m : Bytes) : Bytes :=
  let k0 := hmacKey h key
  hashBytes h (xorBytes k0 (byteRep 0x5c (hashBlockBytes h)) ++
    hashBytes h (xorBytes k0 (byteRep 0x36 (hashBlockBytes h)) ++ m))

/-- `n` further iterations of PBKDF2 from (U, T): `U <- PRF(P, U)`, `T <- xor(T, U)` (R190). -/
def pbkdf2Iterate (p : Bytes) : Nat → Bytes → Bytes → Bytes
  | 0, _, t => t
  | n + 1, u, t =>
    let u' := hmac .sha512 p u
    pbkdf2Iterate p n u' (xorBytes t u')

/-- `PBKDF2_SHA512_32(P, S, c)` for c ≥ 1 (R190). DESIGN CHOICE: for c = 0, which the rule does not define, it is the
value for c = 1; KDF_PBKDF2 gets there with no count, since ITER = 0 is PARAM (R232, log entry 11). -/
def pbkdf2Sha512 (p s : Bytes) (c : Nat) : Bytes :=
  let u := hmac .sha512 p (s ++ beBytes 4 1)
  (pbkdf2Iterate p (c - 1) u u).take 32

/-- `n` rounds of `acc <- SHA256(acc ‖ P)` (R193). -/
def stretchRounds (p : Bytes) : Nat → Bytes → Bytes
  | 0, acc => acc
  | n + 1, acc => stretchRounds p n (sha256 (acc ++ p))

/-- `LegacyStretch(P, S)` for a 16-byte salt: the accumulator is the salt, then 16 zero bytes, for LEGACY_ROUNDS
rounds (R193, 90_conflicts.md C2). DESIGN CHOICE: a salt of another length is taken as it is; IVR has 16 bytes (log
entry 11). -/
def legacyStretch (p s : Bytes) : Bytes := stretchRounds p Config.legacyRounds (s ++ zeros 16)

end Sys2Proof.Machine
end

