-- ==== Sys2Proof/Machine/State.lean ====
section
/-! DEFINITION. The state of the engine, 10_state.md rule R20, with the host agent beside it (00_scope.md rule
R8), the reasons a step can stop, and the state right after reset (70_reset_and_hazards.md rule R401). -/

namespace Sys2Proof.Machine

/-- Reasons the machine stops with a fault. There are none, so this type has no constructor: no command
word, operand value or host access stops the engine (60_exceptions.md R378), every failure of a command is a
completion code (R360) and a bus error is a response to the host that changes no engine state (R73). Safe:
nothing can be proved of a run that stops, because no run stops (log entry 10). -/
inductive Fault : Type
  deriving DecidableEq, Repr

/-- Reasons an instruction has no meaning. -/
inductive Refusal where
  /-- Raised only by an arm of `exec` whose instruction has no meaning yet; no arm raises it. Safe: the run
  stops where the engine would go on (log entry 10). -/
  | notModelled (mnemonic : String)
  deriving DecidableEq, Repr

/-- The completion codes (60_exceptions.md R361). Codes 0x08 to 0xFF are never produced. -/
inductive Code where
  | ok
  | illegal
  | ctxState
  | length
  | range
  | param
  | auth
  | padding
  deriving DecidableEq, Repr

/-- The phase of the engine (R50). -/
inductive Phase where
  | idle
  | busy
  deriving DecidableEq, Repr

/-- The kind of an active context (R45). -/
inductive ContextKind where
  | hmac
  | hash
  deriving DecidableEq, Repr

/-- The context, the one hash or MAC accumulator (R45, R280): inactive, or active with its kind, its hash,
the HMAC key as given at init (empty for a plain hash) and the bytes absorbed since. -/
inductive Context where
  | inactive
  | active (kind : ContextKind) (h : HashAlg) (key msg : Bytes)
  deriving DecidableEq, Repr

/-- The bytes of BUF by offset, in canonical form: offsets strictly rising, no byte equal to
`Memory.unlisted` (R49). -/
abbrev Memory := List Host.Cell

/-- What an offset that is not listed reads as: the reset contents of BUF (R401). -/
def Memory.unlisted : Byte := 0#8

/-- What the host sees of its last access: the error response of a bus error, and the data of a read
(R72, R73). -/
structure BusResponse where
  error : Bool
  data : Word
  deriving DecidableEq, Repr

/-- The host agent (R8): its program and what it has seen, kept and emitted. The model's own (log entry 8). -/
structure HostAgent where
  /-- the statements still to run -/
  program : List HostStmt
  /-- the response of the last bus access -/
  last : BusResponse
  /-- bytes read and kept -/
  got : Bytes
  /-- the output stream -/
  emitted : Bytes
  /-- the error kind a sequence stopped with -/
  raised : Option ErrorKind
  deriving DecidableEq, Repr

/-- The state. The fields from `irqEn` to `phase` are the spec's (R20); `bufSize` is its parameter BUF_BYTES
(R7, log entry 2); `issues`, `delay` and `host` are the model's own (log entries 3 and 8). -/
structure State where
  /-- CTRL.IRQ_EN (R27) -/
  irqEn : Bool
  /-- STATUS.DONE (R31) -/
  done : Bool
  /-- STATUS.ERR (R32) -/
  err : Bool
  /-- STATUS.AUTH_OK (R33) -/
  authOk : Bool
  /-- STATUS.OVF (R35) -/
  ovf : Bool
  /-- ERRCODE (R37) -/
  errcode : Code
  /-- CMDR, read at CMD (R38) -/
  cmdr : Word
  /-- SRC (R39) -/
  src : Word
  /-- DST (R40) -/
  dst : Word
  /-- LEN (R41) -/
  len : Word
  /-- ITER (R42) -/
  iter : Word
  /-- LMOD bits 3:0 (R43) -/
  lmod : BitVec 4
  /-- OUTLEN (R44) -/
  outlen : Word
  /-- IVR0 .. IVR3 (R46) -/
  ivr : Vector Word 4
  /-- KEYs_j (R47) -/
  keys : Vector (Vector Word 8) 4
  /-- RES0 .. RES15 (R48) -/
  result : Vector Word 16
  /-- BUF (R49) -/
  buf : Memory
  /-- the context (R45) -/
  context : Context
  /-- the phase (R50) -/
  phase : Phase
  /-- BUF_BYTES (R7) -/
  bufSize : BufSize
  /-- the number of commands issued -/
  issues : Nat
  /-- host steps left before the outstanding command completes -/
  delay : Nat
  /-- the host agent -/
  host : HostAgent
  deriving DecidableEq, Repr

/-- The host agent with nothing to run (log entry 8). -/
def HostAgent.initial : HostAgent where
  program := []
  last := ⟨false, 0#32⟩
  got := []
  emitted := []
  raised := none

/-- The machine right after reset (R401), with the reference BUF_BYTES = 4096 (R7, log entry 2). -/
def State.reset : State where
  irqEn := false
  done := false
  err := false
  authOk := false
  ovf := false
  errcode := .ok
  cmdr := 0#32
  src := 0#32
  dst := 0#32
  len := 0#32
  iter := Config.iterReset
  lmod := 0#4
  outlen := 0#32
  ivr := Vector.replicate 4 0#32
  keys := Vector.replicate 4 (Vector.replicate 8 0#32)
  result := Vector.replicate 16 0#32
  buf := []
  context := .inactive
  phase := .idle
  bufSize := .b4096
  issues := 0
  delay := 0
  host := HostAgent.initial

end Sys2Proof.Machine
end

