-- ==== Sys2Proof/Machine/Ops.lean ====
section
/-! DEFINITION. The named operations over BUF, the byte-string registers and the context, and the three events
every command shares: issue (60_exceptions.md R362), completion with a code (40_control.md R131, 60_exceptions.md
R360) and reset (70_reset_and_hazards.md R400). -/

namespace Sys2Proof.Machine

/-! ### BUF as a canonical list of cells (R49) -/

/-- The byte at an offset. -/
def Memory.read : Memory → Nat → Byte
  | [], _ => Memory.unlisted
  | (b, x) :: rest, a => if b = a then x else Memory.read rest a

/-- A cell put in front, left out if it holds what an unlisted offset reads as. -/
def Memory.cons (a : Nat) (v : Byte) (rest : Memory) : Memory :=
  if v = Memory.unlisted then rest else (a, v) :: rest

/-- The memory with the byte at an offset replaced. -/
def Memory.write : Memory → Nat → Byte → Memory
  | [], a, v => Memory.cons a v []
  | (b, x) :: rest, a, v =>
    if a < b then Memory.cons a v ((b, x) :: rest)
    else if a = b then Memory.cons a v rest
    else (b, x) :: Memory.write rest a v

/-- The memory with a byte string stored from an offset on. -/
def Memory.writeBytes : Memory → Nat → Bytes → Memory
  | m, _, [] => m
  | m, a, v :: vs => Memory.writeBytes (Memory.write m a v) (a + 1) vs

/-- The canonical form: offsets strictly rising, no cell that holds what an unlisted offset reads as. -/
def Memory.wf (m : Memory) : Bool :=
  decide (m.Pairwise (fun c d => c.1 < d.1)) && m.all (fun c => c.2 != Memory.unlisted)

/-- Every listed offset lies below `n`. -/
def Memory.below (n : Nat) (m : Memory) : Bool := m.all (fun c => c.1 < n)

/-- BUF_BYTES (R7). -/
def State.bufBytes (s : State) : Nat := s.bufSize.bytes

/-- `MemRead(off, n)` (R12). The rule defines it only when `off + n <= BUF_BYTES`. DESIGN CHOICE (log entry 11):
the function is total, and an offset from BUF_BYTES on reads as the listed byte, else 0. No access of a step gets
there: a command checks its ranges first. -/
def State.memRead (s : State) (off n : Nat) : Bytes :=
  (List.range n).map (fun i => s.buf.read (off + i))

/-- `MemWrite(off, |v|, v)` (R12). The rule defines it only when `off + |v| <= BUF_BYTES`. DESIGN CHOICE (log entry
11): the function is total, and a byte at an offset from BUF_BYTES on is stored like any other. No access of a step
gets there: a command checks its ranges first. -/
def State.memWrite (s : State) (off : Nat) (v : Bytes) : State :=
  { s with buf := s.buf.writeBytes off v }

/-! ### Registers that hold a byte string (R46 to R48) -/

/-- `KEY[s]` as a byte string (R47). -/
def State.keyBytes (s : State) (ks : KeySlot) : Bytes := bytesOfWords s.keys[ks]

/-- `KEY[s] <- k` (R47), for 32 bytes (else log entry 11). -/
def State.setKeyBytes (s : State) (ks : KeySlot) (k : Bytes) : State :=
  { s with keys := s.keys.set ks (wordsOfBytes 8 k) }

/-- IVR as a byte string (R46). -/
def State.ivrBytes (s : State) : Bytes := bytesOfWords s.ivr

/-- `IVR <- v` (R46), for 16 bytes (else log entry 11). -/
def State.setIvrBytes (s : State) (v : Bytes) : State := { s with ivr := wordsOfBytes 4 v }

/-- RESULT as a byte string (R48). -/
def State.resultBytes (s : State) : Bytes := bytesOfWords s.result

/-- `RESULT <- d ‖ 0^(64 - |d|)` (R293), for |d| ≤ 64. DESIGN CHOICE: further bytes are ignored; a digest has 32 or
64 (log entry 11). -/
def State.setResultBytes (s : State) (d : Bytes) : State :=
  { s with result := wordsOfBytes 16 (d ++ zeros (64 - d.length)) }

/-- `OUTLEN <- n` (R44). DESIGN CHOICE: of a number of more than 32 bits the low 32 are stored; an output length is
at most BUF_BYTES (log entry 11). -/
def State.setOutlen (s : State) (n : Nat) : State := { s with outlen := BitVec.ofNat 32 n }

/-! ### The context (R45, R280) -/

/-- The context is Inactive. -/
def Context.isInactive : Context → Bool
  | .inactive => true
  | .active _ _ _ _ => false

/-- `|context.M|`. DESIGN CHOICE: 0 for an inactive context, which has no M; a command that needs M is CTX_STATE then,
whatever the length (log entry 11). -/
def Context.msgLength : Context → Nat
  | .inactive => 0
  | .active _ _ _ msg => msg.length

/-- `context.M <- context.M ‖ bs` (R243, R290). DESIGN CHOICE: an inactive context, which has no M, stays so; the
commands that absorb are CTX_STATE then (log entry 11). -/
def Context.absorb (c : Context) (bs : Bytes) : Context :=
  match c with
  | .inactive => .inactive
  | .active kind h key msg => .active kind h key (msg ++ bs)

/-- The digest of an active context (R280). -/
def contextDigest (kind : ContextKind) (h : HashAlg) (key msg : Bytes) : Bytes :=
  match kind with
  | .hmac => hmac h key msg
  | .hash => hashBytes h msg

/-- The MAC feed: with M = 1 the context absorbs the ciphertext, with M = 0 it is not changed (R243). -/
def State.feed (s : State) (m : Bool) (bs : Bytes) : State :=
  if m then { s with context := s.context.absorb bs } else s

/-! ### Issue, completion, errors, reset -/

/-- The issue of a command word (R362). The latency of the command is a free value of its own (log entry 3). -/
def State.issue (s : State) (v : Word) : State :=
  { s with
    cmdr := v
    errcode := .ok
    done := false
    err := false
    authOk := false
    phase := .busy
    issues := s.issues + 1
    delay := Config.latency s.issues }

/-- The completion with a code; `verify` says that the command is CTX_VERIFY (R131). -/
def State.finish (s : State) (verify : Bool) (c : Code) : State :=
  { s with
    errcode := c
    err := c != .ok
    done := true
    authOk := verify && c == .ok
    phase := .idle }

/-- `complete()` of a command other than CTX_VERIFY (R12, R131). -/
def State.completeOk (s : State) : State := s.finish false .ok

/-- `raise Error(c)`: the one way a command fails (R360). Nothing is saved and no control is transferred
(R369); effects made before it remain (R133). -/
def State.raiseError (s : State) (c : Code) : State := s.finish false c

/-- The acknowledgement of completions and the clearing of OVF, a write of v to STATUS (R36, R366, R370): the
engine's only counterpart of a return from an exception. -/
def State.clearStatus (s : State) (v : Word) : State :=
  { s with
    done := s.done && !v.getLsbD 1
    err := s.err && !v.getLsbD 2
    ovf := s.ovf && !v.getLsbD 7 }

/-- Reset of the engine, soft or power-on: every element of R20 takes its reset value and an outstanding
command is abandoned (R28, R400, R404). BUF_BYTES is a parameter and the host is another agent: they stay. -/
def State.resetEngine (s : State) : State :=
  { State.reset with
    bufSize := s.bufSize
    issues := s.issues
    host := s.host }

end Sys2Proof.Machine
end

