-- ==== Sys2Proof/Machine/Flags.lean ====
section
/-! DEFINITION. The status flags and the registers that are views of other state: STATUS, CTRL, ERRCODE, CAPS,
ID and the irq output (10_state.md R24 to R37, R51). -/

namespace Sys2Proof.Machine

/-- The number of a completion code (R361). -/
def Code.toByte : Code → BitVec 8
  | .ok => 0x00#8
  | .illegal => 0x01#8
  | .ctxState => 0x02#8
  | .length => 0x03#8
  | .range => 0x04#8
  | .param => 0x05#8
  | .auth => 0x06#8
  | .padding => 0x07#8

/-- STATUS.BUSY (R30). -/
def State.busy (s : State) : Bool := s.phase == .busy

/-- STATUS.CTX_ACTIVE (R34). -/
def State.ctxActive (s : State) : Bool := !s.context.isInactive

/-- STATUS.CTX_H: active with hash SHA-512 (R34). -/
def State.ctxH (s : State) : Bool :=
  match s.context with
  | .inactive => false
  | .active _ h _ _ => h == .sha512

/-- STATUS.CTX_KEYED: active with kind HMAC (R34). -/
def State.ctxKeyed (s : State) : Bool :=
  match s.context with
  | .inactive => false
  | .active kind _ _ _ => kind == .hmac

/-- A word with one bit at place `i`. -/
def bitAt (i : Nat) (b : Bool) : Word := (BitVec.ofBool b).zeroExtend 32 <<< i

/-- STATUS as read (R29); bits 31:8 read 0. -/
def State.statusWord (s : State) : Word :=
  bitAt 0 s.busy ||| bitAt 1 s.done ||| bitAt 2 s.err ||| bitAt 3 s.authOk |||
  bitAt 4 s.ctxActive ||| bitAt 5 s.ctxH ||| bitAt 6 s.ctxKeyed ||| bitAt 7 s.ovf

/-- CTRL as read: bit 1 and bits 31:2 read 0 (R27). -/
def State.ctrlWord (s : State) : Word := bitAt 0 s.irqEn

/-- ERRCODE as read: bits 31:8 read 0 (R37). -/
def State.errcodeWord (s : State) : Word := s.errcode.toByte.zeroExtend 32

/-- ID (R24). -/
def idWord : Word := 0x54414345#32

/-- CAPS: BUF_LOG2 in bits 7:0, NKEYS in 11:8, HWREV in 15:12 (R26). -/
def State.capsWord (s : State) : Word :=
  BitVec.ofNat 32 (s.bufSize.log2 + 2 ^ 8 * Config.numKeySlots + 2 ^ 12 * Config.hwRev)

/-- The interrupt output: `irq = CTRL.IRQ_EN and STATUS.DONE` (R51, R366). -/
def State.irq (s : State) : Bool := s.irqEn && s.done

/-- The level irq puts on a host interrupt input (`true` is high): on IRQ_LINE the level the board's polarity gives
it; on another input, nothing (R367). The line and the polarity are the platform's: both are free values (log
entry 5). -/
def State.irqInput (s : State) (line : Nat) : Option Bool :=
  if line = Config.irqLine then some (s.irq == Config.irqActiveHigh) else none

end Sys2Proof.Machine
end

