-- ==== Sys2Proof/Machine/Operands.lean ====
section
/-! DEFINITION. The operand forms of the commands and the checks they make, in the order of 60_exceptions.md rule
R364: buffer ranges (20_memory.md R81, R82), the password and salt of a KDF (43_kdf_commands.md R220, R223), the
operands, paddings and checks of a CBC command (44_cbc_commands.md R240, R241, R244). -/

namespace Sys2Proof.Machine

/-! ### Checks -/

/-- The first check that fails decides the code (R244, R364); a check is the condition that fails and its code. -/
def firstFailure : List (Bool × Code) → Option Code
  | [] => none
  | (failed, c) :: rest => if failed then some c else firstFailure rest

/-- A command with validation checks: the first that fails is raised with no effect (R132), else it runs. -/
def State.validated (s : State) (checks : List (Bool × Code)) (run : State → State) : State :=
  match firstFailure checks with
  | some c => s.raiseError c
  | none => run s

/-- A range (o, n) of BUF is valid iff `o + n <= BUF_BYTES`, without wrap-around (R81). -/
def State.rangeValid (s : State) (o n : Nat) : Bool := o + n ≤ s.bufBytes

/-- Two ranges (a, n) and (d, m) conflict (R82). -/
def rangesConflict (a n d m : Nat) : Bool := 0 < n && 0 < m && a != d && a < d + m && d < a + n

/-! ### Register operands (R102) -/

/-- SRC as a number (R39). -/
def State.srcN (s : State) : Nat := s.src.toNat

/-- DST as a number (R40). -/
def State.dstN (s : State) : Nat := s.dst.toNat

/-- LEN as a number (R41). -/
def State.lenN (s : State) : Nat := s.len.toNat

/-- The input `MemRead(SRC, LEN)` (R220, R240, R286, R290). -/
def State.input (s : State) : Bytes := s.memRead s.srcN s.lenN

/-- The input range is not valid (R81). -/
def State.inputBad (s : State) : Bool := !s.rangeValid s.srcN s.lenN

/-- Absorbing `n` more bytes would pass CTX_MAX_BYTES (R282). -/
def State.contextFull (s : State) (n : Nat) : Bool := Config.ctxMaxBytes < s.context.msgLength + n

/-! ### KDF commands -/

/-- The checks both KDF commands make (R223). -/
def State.kdfChecks (s : State) : List (Bool × Code) :=
  [(Config.pwMaxBytes < s.lenN, .length), (s.inputBad, .range)]

/-! ### Paddings (R241) -/

/-- The pad count of PKCS7Pad for an input of n bytes: 1 to 16. -/
def pkcs7Count (n : Nat) : Nat := 16 - n % 16

/-- The pad count of LegacyPad for an input of n bytes: 0 to 15. -/
def legacyCount (n : Nat) : Nat := (16 - n % 16) % 16

/-- `PKCS7Pad(p)`. -/
def pkcs7Pad (p : Bytes) : Bytes := p ++ byteRep (pkcs7Count p.length) (pkcs7Count p.length)

/-- `LegacyPad(p)`. -/
def legacyPad (p : Bytes) : Bytes := p ++ byteRep (legacyCount p.length) (legacyCount p.length)

/-- The pad count of a decrypted byte string whose end is a valid PKCS#7 padding (R257). DESIGN CHOICE: none for a
string with fewer bytes than the count its last byte names, and for the empty string; the command has 16 bytes or
more (log entry 11). -/
def pkcs7Strip (p : Bytes) : Option Nat :=
  let q := (p.getD (p.length - 1) 0x00#8).toNat
  if 1 ≤ q ∧ q ≤ 16 ∧ p.drop (p.length - q) = byteRep q q then some q else none

/-- The bytes CBC_DEC_LEGACY trims: `(16 - LMOD[3:0]) mod 16`, none for an empty input (R265). -/
def State.legacyTrim (s : State) : Nat :=
  if 0 < s.lenN then (16 - s.lmod.toNat) % 16 else 0

/-! ### CBC commands -/

/-- The checks of a CBC command whose length rule fails iff `lenBad` and whose output has `out` bytes (R244).
The bytes fed to the context number `out` too: on decryption out = n (R241, R243). -/
def State.cbcChecks (s : State) (m lenBad : Bool) (out : Nat) : List (Bool × Code) :=
  [(m && s.context.isInactive, .ctxState),
   (lenBad, .length),
   (m && s.contextFull out, .length),
   (s.inputBad || !s.rangeValid s.dstN out, .range),
   (rangesConflict s.srcN s.lenN s.dstN out, .range)]

/-- The length rule "n multiple of 16" fails (R241). -/
def State.lenNotBlocks (s : State) : Bool := s.lenN % 16 != 0

/-- Encrypt a padded input: output at DST, IVR, MAC feed, OUTLEN (R242, R243, R246). -/
def State.cbcEncrypt (s : State) (ks : KeySlot) (m : Bool) (padded : Bytes) : State :=
  let r := cbcEnc (s.keyBytes ks) s.ivrBytes padded
  (((s.memWrite s.dstN r.1).setIvrBytes r.2).feed m r.1).setOutlen r.1.length

/-- The plaintext of the input (R251). -/
def State.cbcPlaintext (s : State) (ks : KeySlot) : Bytes :=
  (cbcDec (s.keyBytes ks) s.ivrBytes s.input).1

/-- Decrypt the input: MAC feed of the input as read, output at DST, IVR (R242, R243, R251). -/
def State.cbcDecrypt (s : State) (ks : KeySlot) (m : Bool) : State :=
  let x := s.input
  let r := cbcDec (s.keyBytes ks) s.ivrBytes x
  ((s.feed m x).memWrite s.dstN r.1).setIvrBytes r.2

end Sys2Proof.Machine
end

