-- ==== Sys2Proof/Machine/Cbc.lean ====
section
/-! DEFINITION. The CBC commands, 44_cbc_commands.md. -/

namespace Sys2Proof.Machine

/-- CBC_ENC (R248). -/
def execCbcEnc (ks : KeySlot) (m : Bool) (s : State) : Host.Outcome State Fault Refusal :=
  .next (s.validated (s.cbcChecks m s.lenNotBlocks s.lenN) fun s =>
    (s.cbcEncrypt ks m s.input).completeOk)

/-- CBC_DEC (R251). -/
def execCbcDec (ks : KeySlot) (m : Bool) (s : State) : Host.Outcome State Fault Refusal :=
  .next (s.validated (s.cbcChecks m s.lenNotBlocks s.lenN) fun s =>
    ((s.cbcDecrypt ks m).setOutlen s.lenN).completeOk)

/-- CBC_ENC_PKCS7 (R254). -/
def execCbcEncPkcs7 (ks : KeySlot) (m : Bool) (s : State) : Host.Outcome State Fault Refusal :=
  .next (s.validated (s.cbcChecks m false (s.lenN + pkcs7Count s.lenN)) fun s =>
    (s.cbcEncrypt ks m (pkcs7Pad s.input)).completeOk)

/-- CBC_DEC_PKCS7 (R257): the writes happen before the padding is checked and remain on PADDING (R258). -/
def execCbcDecPkcs7 (ks : KeySlot) (m : Bool) (s : State) : Host.Outcome State Fault Refusal :=
  .next (s.validated (s.cbcChecks m (s.lenNotBlocks || s.lenN == 0) s.lenN) fun s =>
    match pkcs7Strip (s.cbcPlaintext ks) with
    | some q => ((s.cbcDecrypt ks m).setOutlen (s.lenN - q)).completeOk
    | none => ((s.cbcDecrypt ks m).setOutlen 0).raiseError .padding)

/-- CBC_ENC_LEGACY (R261): LMOD takes `LEN mod 16` (R262). -/
def execCbcEncLegacy (ks : KeySlot) (m : Bool) (s : State) : Host.Outcome State Fault Refusal :=
  .next (s.validated (s.cbcChecks m false (s.lenN + legacyCount s.lenN)) fun s =>
    State.completeOk
      { s.cbcEncrypt ks m (legacyPad s.input) with lmod := BitVec.ofNat 4 (s.lenN % 16) })

/-- CBC_DEC_LEGACY (R265): the trimmed bytes are not checked (R267). -/
def execCbcDecLegacy (ks : KeySlot) (m : Bool) (s : State) : Host.Outcome State Fault Refusal :=
  .next (s.validated (s.cbcChecks m s.lenNotBlocks s.lenN) fun s =>
    ((s.cbcDecrypt ks m).setOutlen (s.lenN - s.legacyTrim)).completeOk)

end Sys2Proof.Machine
end

