-- ==== Sys2Proof/Machine/Control.lean ====
section
/-! DEFINITION. The control commands, 40_control.md, and the completion of an illegal word, 30_encoding.md R108. -/

namespace Sys2Proof.Machine

/-- NOP (R134). -/
def execNop (s : State) : Host.Outcome State Fault Refusal := .next s.completeOk

/-- What ZEROIZE clears (R135). -/
def State.zeroized (s : State) : State :=
  { s with
    keys := Vector.replicate 4 (Vector.replicate 8 0#32)
    ivr := Vector.replicate 4 0#32
    result := Vector.replicate 16 0#32
    context := .inactive
    buf := []
    lmod := 0#4
    outlen := 0#32 }

/-- ZEROIZE (R135). -/
def execZeroize (s : State) : Host.Outcome State Fault Refusal := .next s.zeroized.completeOk

/-- The completion of a word that spells no command: ILLEGAL and nothing else (R106, R108). -/
def execIllegal (s : State) : Host.Outcome State Fault Refusal := .next (s.raiseError .illegal)

end Sys2Proof.Machine
end

