-- ==== Sys2Proof/Machine/Ctx.lean ====
section
/-! DEFINITION. The hash and MAC context commands, 45_context_commands.md. -/

namespace Sys2Proof.Machine

/-- MAC_INIT_KS (R284): the key is a copy of the slot (R283). -/
def execMacInitKs (ks : KeySlot) (h : HashAlg) (s : State) : Host.Outcome State Fault Refusal :=
  .next (State.completeOk { s with context := .active .hmac h (s.keyBytes ks) [] })

/-- MAC_INIT_BUF (R286). -/
def execMacInitBuf (h : HashAlg) (s : State) : Host.Outcome State Fault Refusal :=
  .next (s.validated [(s.inputBad, .range)] fun s =>
    State.completeOk { s with context := .active .hmac h s.input [] })

/-- HASH_INIT (R288). -/
def execHashInit (h : HashAlg) (s : State) : Host.Outcome State Fault Refusal :=
  .next (State.completeOk { s with context := .active .hash h [] [] })

/-- CTX_UPDATE (R290). -/
def execCtxUpdate (s : State) : Host.Outcome State Fault Refusal :=
  .next (s.validated
    [(s.context.isInactive, .ctxState), (s.contextFull s.lenN, .length), (s.inputBad, .range)] fun s =>
    State.completeOk { s with context := s.context.absorb s.input })

/-- CTX_FINAL (R293). -/
def execCtxFinal (s : State) : Host.Outcome State Fault Refusal :=
  .next (match s.context with
    | .inactive => s.raiseError .ctxState
    | .active kind h key msg =>
      State.completeOk
        { (s.setResultBytes (contextDigest kind h key msg)).setOutlen (hashOutBytes h) with
          context := .inactive })

/-- `OR over i of (d[i] xor t[i])` (R296), for d and t of one length (else `xorBytes`, log entry 11). -/
def byteDifference (d t : Bytes) : Byte := (xorBytes d t).foldl (· ||| ·) 0x00#8

/-- CTX_VERIFY (R296): past its checks it consumes the context, match or not (R298). -/
def execCtxVerify (s : State) : Host.Outcome State Fault Refusal :=
  .next (match s.context with
    | .inactive => s.raiseError .ctxState
    | .active kind h key msg =>
      if s.rangeValid s.srcN (hashOutBytes h) then
        if byteDifference (contextDigest kind h key msg) (s.memRead s.srcN (hashOutBytes h)) = 0x00#8 then
          State.finish { s with context := .inactive } true .ok
        else State.raiseError { s with context := .inactive } .auth
      else s.raiseError .range)

end Sys2Proof.Machine
end

