-- ==== Sys2Proof/Machine/Kdf.lean ====
section
/-! DEFINITION. The key-derivation commands, 43_kdf_commands.md. -/

namespace Sys2Proof.Machine

/-- KDF_LEGACY (R225): the salt is IVR, the password the input (R220, R221). -/
def execKdfLegacy (ks : KeySlot) (s : State) : Host.Outcome State Fault Refusal :=
  .next (s.validated s.kdfChecks fun s =>
    (s.setKeyBytes ks (legacyStretch s.input s.ivrBytes)).completeOk)

/-- KDF_PBKDF2 (R230): ITER = 0 is PARAM, after the LENGTH and RANGE checks (R232). -/
def execKdfPbkdf2 (ks : KeySlot) (s : State) : Host.Outcome State Fault Refusal :=
  .next (s.validated (s.kdfChecks ++ [(s.iter == 0#32, .param)]) fun s =>
    (s.setKeyBytes ks (pbkdf2Sha512 s.input s.ivrBytes s.iter.toNat)).completeOk)

end Sys2Proof.Machine
end

