-- ==== Sys2Proof/Machine/Dispatch.lean ====
section
/-! DEFINITION. The dispatch: one arm per command of the opcode map (30_encoding.md R103), each one call of its
meaning, which is the command's completion step (40_control.md R131). -/

namespace Sys2Proof.Machine

def exec (i : Instr) (s : State) : Host.Outcome State Fault Refusal :=
  match i with
  | .nop => Sys2Proof.Machine.execNop s
  | .zeroize => Sys2Proof.Machine.execZeroize s
  | .kdfLegacy ks => Sys2Proof.Machine.execKdfLegacy ks s
  | .kdfPbkdf2 ks => Sys2Proof.Machine.execKdfPbkdf2 ks s
  | .cbcEnc ks m => Sys2Proof.Machine.execCbcEnc ks m s
  | .cbcDec ks m => Sys2Proof.Machine.execCbcDec ks m s
  | .cbcEncPkcs7 ks m => Sys2Proof.Machine.execCbcEncPkcs7 ks m s
  | .cbcDecPkcs7 ks m => Sys2Proof.Machine.execCbcDecPkcs7 ks m s
  | .cbcEncLegacy ks m => Sys2Proof.Machine.execCbcEncLegacy ks m s
  | .cbcDecLegacy ks m => Sys2Proof.Machine.execCbcDecLegacy ks m s
  | .macInitKs ks h => Sys2Proof.Machine.execMacInitKs ks h s
  | .macInitBuf h => Sys2Proof.Machine.execMacInitBuf h s
  | .hashInit h => Sys2Proof.Machine.execHashInit h s
  | .ctxUpdate => Sys2Proof.Machine.execCtxUpdate s
  | .ctxFinal => Sys2Proof.Machine.execCtxFinal s
  | .ctxVerify => Sys2Proof.Machine.execCtxVerify s

end Sys2Proof.Machine
end

