-- ==== Sys2Proof/Machine/Bus.lean ====
section
/-! DEFINITION. The host's accesses to the register window and the data buffer: 20_memory.md, with the register map
of 10_state.md rule R23. -/

namespace Sys2Proof.Machine

/-! ### The register map (R23) -/

/-- The registers of the window; `reserved` stands for every reserved offset of the register region. -/
inductive Reg where
  | id
  | caps
  | ctrl
  | status
  | errcode
  | cmd
  | src
  | dst
  | len
  | iter
  | lmod
  | outlen
  | ivr (j : Fin 4)
  | key (ks : KeySlot) (j : Fin 8)
  | res (j : Fin 16)
  | reserved
  deriving DecidableEq, Repr

/-- The register at the aligned offset 4·n of the register region (R23). -/
def regAt (n : Nat) : Reg :=
  match n with
  | 0 => .id
  | 1 => .caps
  | 2 => .ctrl
  | 3 => .status
  | 4 => .errcode
  | 5 => .cmd
  | 6 => .src
  | 7 => .dst
  | 8 => .len
  | 9 => .iter
  | 10 => .lmod
  | 11 => .outlen
  | n =>
    if 0x40 / 4 ≤ n ∧ n < 0x50 / 4 then .ivr (Fin.ofNat 4 (n - 0x40 / 4))
    else if 0x80 / 4 ≤ n ∧ n < 0x100 / 4 then
      .key (Fin.ofNat 4 ((n - 0x80 / 4) / 8)) (Fin.ofNat 8 ((n - 0x80 / 4) % 8))
    else if 0x100 / 4 ≤ n ∧ n < 0x140 / 4 then .res (Fin.ofNat 16 (n - 0x100 / 4))
    else .reserved

/-- The window offset of a register, the name an assembler statement uses (R23, R109); the first reserved
offset stands for `reserved`. -/
def Reg.offset : Reg → Nat
  | .id => 0x0000
  | .caps => 0x0004
  | .ctrl => 0x0008
  | .status => 0x000C
  | .errcode => 0x0010
  | .cmd => 0x0014
  | .src => 0x0018
  | .dst => 0x001C
  | .len => 0x0020
  | .iter => 0x0024
  | .lmod => 0x0028
  | .outlen => 0x002C
  | .ivr j => 0x0040 + 4 * j.val
  | .key ks j => 0x0080 + 0x20 * ks.val + 4 * j.val
  | .res j => 0x0100 + 4 * j.val
  | .reserved => 0x0030

/-- The first offset of the buffer region (R71). -/
def bufBase : Nat := 0x8000

/-- The bus address of a register. -/
def Reg.addr (r : Reg) : BusAddr := .window (BitVec.ofNat 16 r.offset)

/-- The bus address `BUF+n`, window offset 0x8000 + n (R109). DESIGN CHOICE: for n ≥ 0x8000 that is no offset of the window
and the spec gives the name no meaning; the model takes it as a bus address outside the window (log entry 23). -/
def bufAddr (n : Nat) : BusAddr :=
  if n < 0x8000 then .window (BitVec.ofNat 16 (bufBase + n)) else .outside

/-- Where a physical address of the host bus goes: the window at BASE, or outside it (R70, R79). -/
def busAddrOf (physical : Nat) : BusAddr :=
  if Config.base ≤ physical ∧ physical < Config.base + 0x10000 then
    .window (BitVec.ofNat 16 (physical - Config.base))
  else .outside

/-! ### Legality and lockout -/

/-- Legal widths and alignment (R71). -/
def legalAccess (a : BitVec 16) (w : Width) : Bool :=
  if a.toNat < bufBase then w == .w4 && a.toNat % 4 == 0 else a.toNat % w.bytes == 0

/-- The registers the host can read while Busy (R78 (a)). -/
def Reg.readableWhileBusy : Reg → Bool
  | .id => true
  | .caps => true
  | .ctrl => true
  | .status => true
  | .errcode => true
  | .cmd => true
  | .src => false
  | .dst => false
  | .len => false
  | .iter => false
  | .lmod => false
  | .outlen => false
  | .ivr _ => false
  | .key _ _ => false
  | .res _ => false
  | .reserved => false

/-- The registers the host can write while Busy (R78 (b)). -/
def Reg.writableWhileBusy : Reg → Bool
  | .ctrl => true
  | .status => true
  | .id => false
  | .caps => false
  | .errcode => false
  | .cmd => false
  | .src => false
  | .dst => false
  | .len => false
  | .iter => false
  | .lmod => false
  | .outlen => false
  | .ivr _ => false
  | .key _ _ => false
  | .res _ => false
  | .reserved => false

/-! ### Reads (R75: without side effects) -/

/-- A read of a register: key slots and reserved offsets read 0 (R23, R47). -/
def State.regRead (s : State) : Reg → Word
  | .id => idWord
  | .caps => s.capsWord
  | .ctrl => s.ctrlWord
  | .status => s.statusWord
  | .errcode => s.errcodeWord
  | .cmd => s.cmdr
  | .src => s.src
  | .dst => s.dst
  | .len => s.len
  | .iter => s.iter
  | .lmod => s.lmod.zeroExtend 32
  | .outlen => s.outlen
  | .ivr j => s.ivr[j]
  | .key _ _ => 0#32
  | .res j => s.result[j]
  | .reserved => 0#32

/-- A read of `w` bytes at index `i` of the buffer region, byte 0 in bits 7:0; past BUF_BYTES it is reserved
and reads 0 (R23, R25, R72). -/
def State.bufLoad (s : State) (i : Nat) (w : Width) : Word :=
  if i < s.bufBytes then leWordOf (s.memRead i w.bytes) else 0#32

/-- A host read (R70 to R78): a bus error reads 0 with the error response; while Busy a locked offset reads 0. -/
def State.busRead (s : State) (t : BusAddr) (w : Width) : BusResponse :=
  match t with
  | .outside => ⟨true, 0#32⟩
  | .window a =>
    if !legalAccess a w then ⟨true, 0#32⟩
    else if a.toNat < bufBase then
      if s.busy && !(regAt (a.toNat / 4)).readableWhileBusy then ⟨false, 0#32⟩
      else ⟨false, s.regRead (regAt (a.toNat / 4))⟩
    else if s.busy then ⟨false, 0#32⟩
    else ⟨false, s.bufLoad (a.toNat - bufBase) w⟩

/-! ### Writes -/

/-- A write to CTRL: soft reset if bit 1 is set, else IRQ_EN takes bit 0 (R27, R28). -/
def State.writeCtrl (s : State) (v : Word) : State :=
  if v.getLsbD 1 then s.resetEngine else { s with irqEn := v.getLsbD 0 }

/-- A write to a register that the lockout does not drop: read-only and reserved offsets store nothing, CMD
issues, CTRL and STATUS have their effects, the rest is stored (R23, R36, R38, R76). -/
def State.regWrite (s : State) (r : Reg) (v : Word) : State :=
  match r with
  | .id => s
  | .caps => s
  | .ctrl => s.writeCtrl v
  | .status => s.clearStatus v
  | .errcode => s
  | .cmd => s.issue v
  | .src => { s with src := v }
  | .dst => { s with dst := v }
  | .len => { s with len := v }
  | .iter => { s with iter := v }
  | .lmod => { s with lmod := v.extractLsb' 0 4 }
  | .outlen => s
  | .ivr j => { s with ivr := s.ivr.set j v }
  | .key ks j => { s with keys := s.keys.set ks (s.keys[ks].set j v) }
  | .res _ => s
  | .reserved => s

/-- A write of `w` bytes at index `i` of the buffer region; past BUF_BYTES it stores nothing (R25, R72). -/
def State.bufStore (s : State) (i : Nat) (w : Width) (v : Word) : State :=
  if i < s.bufBytes then s.memWrite i ((wordBytes v).take w.bytes) else s

/-- A write the busy lockout drops: nothing stored, OVF set (R35, R78 (b)). -/
def State.dropWrite (s : State) : State := { s with ovf := true }

/-- A host write (R70 to R78): the state after it, and whether the bus answers with an error. A bus error
changes nothing, not even OVF (R73). -/
def State.busWrite (s : State) (t : BusAddr) (w : Width) (v : Word) : State × Bool :=
  match t with
  | .outside => (s, true)
  | .window a =>
    if !legalAccess a w then (s, true)
    else if a.toNat < bufBase then
      if s.busy && !(regAt (a.toNat / 4)).writableWhileBusy then (s.dropWrite, false)
      else (s.regWrite (regAt (a.toNat / 4)) v, false)
    else if s.busy then (s.dropWrite, false)
    else (s.bufStore (a.toNat - bufBase) w v, false)

end Sys2Proof.Machine
end

