-- ==== Sys2Proof/Machine/Sequences.lean ====
section
/-! DEFINITION. The pseudo-instructions of the host assembler (30_encoding.md R109, R110) and the host sequences of
the container protocol (46_host_sequences.md R322 to R343), as programs of host statements. -/

namespace Sys2Proof.Machine

/-! ### Pseudo-instructions (R110) -/

/-- `wr NAME, imm32`. -/
def wr (r : Reg) (v : Word) : HostStmt := .wr r.addr .w4 v

/-- `rd NAME`, the bytes read kept by the host. -/
def rdKeep (r : Reg) (keep : Nat) : HostStmt := .get r.addr .w4 keep

/-- `cmd MNEMONIC ..`: a write of the command word to CMD. -/
def cmd (i : Instr) : HostStmt := wr .cmd (encode i)

/-- `run MNEMONIC ..`: `cmd` then `wait`. -/
def run (i : Instr) : List HostStmt := [cmd i, .wait]

/-- `run MNEMONIC .. ; chk` (R323). -/
def runChk (i : Instr) : List HostStmt := run i ++ [.chk]

/-- `setop src, dst, len`. DESIGN CHOICE: of a number of more than 32 bits the low 32 are written, since the spec gives
such an operand no meaning (log entry 23). -/
def setop (src dst len : Nat) : List HostStmt :=
  [wr .src (BitVec.ofNat 32 src), wr .dst (BitVec.ofNat 32 dst), wr .len (BitVec.ofNat 32 len)]

/-- `setiv b0..b15`, for 16 bytes (log entry 23). -/
def setiv (b : Bytes) : List HostStmt :=
  (List.finRange 4).map (fun j => wr (.ivr j) (leWordOf (b.drop (4 * j.val))))

/-- `setkey s, b0..b31`, for 32 bytes (log entry 23). -/
def setkey (ks : KeySlot) (b : Bytes) : List HostStmt :=
  (List.finRange 8).map (fun j => wr (.key ks j) (leWordOf (b.drop (4 * j.val))))

/-- `ack`: clears DONE, ERR and OVF. -/
def ack : HostStmt := wr .status 0x00000086#32

/-- The split of `n` bytes at BUF+o into accesses: a word where the offset is aligned and 4 bytes are left,
else a byte. The first argument bounds the number of accesses. -/
def bufSplit : Nat → Nat → Nat → List (Nat × Width)
  | 0, _, _ => []
  | fuel + 1, o, n =>
    if n = 0 then []
    else if o % 4 = 0 ∧ 4 ≤ n then (o, .w4) :: bufSplit fuel (o + 4) (n - 4)
    else (o, .w1) :: bufSplit fuel (o + 1) (n - 1)

/-- `wrb BUF+o, b`. -/
def wrb (o : Nat) (b : Bytes) : List HostStmt :=
  (bufSplit b.length o b.length).map (fun p =>
    .wr (bufAddr p.1) p.2 (leWordOf ((b.drop (p.1 - o)).take p.2.bytes)))

/-- `rdb BUF+o, n`, the bytes kept by the host. -/
def rdb (o n : Nat) : List HostStmt :=
  (bufSplit n o n).map (fun p => .get (bufAddr p.1) p.2 p.2.bytes)

/-- `rd RES0 .. RES7`: the 32 bytes of a tag (R322, R326). -/
def rdTag : List HostStmt :=
  (List.finRange 8).map (fun j => rdKeep (.res (Fin.castLE (by decide) j)) 4)

/-! ### The error kind of a completion code (R336) -/

/-- The error kind `chk` raises for a value of ERRCODE that is not 0 (R323, R336). -/
def errorKindOf (code : Word) : ErrorKind :=
  if code = 0x05#32 then .invalidParameter
  else if code = 0x06#32 then .authenticationFailed
  else if code = 0x07#32 then .corruptContainer
  else .hostFault

/-! ### The reference layout of BUF (R320) -/

/-- The password, then the 48 bytes content IV ‖ content key. -/
def offPlain : Nat := 0x000

/-- W, the wrapped key material. -/
def offWrapped : Nat := 0x040

/-- The version byte of the Current wrap tag. -/
def offVersion : Nat := 0x070

/-- A stored tag to verify. -/
def offTag : Nat := 0x080

/-- The content pieces. -/
def offPiece : Nat := 0x100

/-- `CHMAX = BUF_BYTES - 0x110` (R320). -/
def chMax (size : BufSize) : Nat := size.bytes - 0x110

/-! ### Sequences -/

/-- The derivation of the KEK into KEY[0] from the password in BUF and the main IV in IVR (R322, R330). -/
def deriveKek (v : Version) (pw mainIV : Bytes) (c : Word) : List HostStmt :=
  wrb offPlain pw ++ setop offPlain 0 pw.length ++ setiv mainIV ++
  (match v with
    | .current => [wr .iter c] ++ runChk (.kdfPbkdf2 0)
    | .legacy => runChk (.kdfLegacy 0))

/-- The wrap tag's input, W or W ‖ 0x03, absorbed by a context keyed with the KEK (R313, R322, R330). -/
def absorbWrapped (v : Version) : List HostStmt :=
  runChk (.macInitKs 0 .sha256) ++
  (match v with
    | .current => .wr (bufAddr offVersion) .w1 0x03#32 :: setop offWrapped 0 49
    | .legacy => setop offWrapped 0 48) ++
  runChk .ctxUpdate

/-- WRAP (R322). -/
def wrapSeq (v : Version) (pw mainIV cIV cKey : Bytes) (c : Word) : List HostStmt :=
  deriveKek v pw mainIV c ++
  wrb offPlain (cIV ++ cKey) ++ setop offPlain offWrapped 48 ++ runChk (.cbcEnc 0 false) ++
  absorbWrapped v ++ runChk .ctxFinal ++
  .clearGot :: rdTag ++ rdb offWrapped 48 ++
  [.emit mainIV, .emitGot 32 48, .emitGot 0 32, .clearGot]

/-- One content piece, processed in place, its output emitted (R326, R340, R342). -/
def pieceSeq (i : Instr) (p : Bytes) : List HostStmt :=
  wrb offPiece p ++ setop offPiece offPiece p.length ++ runChk i ++
  .clearGot :: rdb offPiece p.length ++ [.emitGot 0 p.length, .clearGot]

/-- The last content piece: the number of output bytes is read from OUTLEN (R326, R340, R342). -/
def lastPieceSeq (i : Instr) (p : Bytes) : List HostStmt :=
  wrb offPiece p ++ setop offPiece offPiece p.length ++ runChk i ++
  [.clearGot, .getOutput offPiece]

/-- The content tag, read from RESULT and emitted (R326). -/
def emitTag : List HostStmt :=
  runChk .ctxFinal ++ .clearGot :: rdTag ++ [.emitGot 0 32, .clearGot]

/-- The common start of the sequences that use the content key: `setkey 1` (R326, R340, R342). -/
def contentKey (cKey : Bytes) : List HostStmt := setkey 1 cKey

/-- SEAL over the pieces before the last and the last one (R326). The host emits what it keeps after the
last piece: the statement that emits all of it takes BUF_BYTES as its bound. -/
def sealSeq (cIV cKey : Bytes) (init : List Bytes) (last : Bytes) : List HostStmt :=
  contentKey cKey ++ setiv cIV ++ runChk (.macInitKs 1 .sha256) ++
  init.flatMap (pieceSeq (.cbcEnc 1 true)) ++
  lastPieceSeq (.cbcEncPkcs7 1 true) last ++ [.emitGot 0 BufSize.b32768.bytes, .clearGot] ++ emitTag

/-- SEAL_LEGACY: CBC_ENC_LEGACY on the last piece, and the modulo byte before the tag (R327). -/
def sealLegacySeq (cIV cKey : Bytes) (init : List Bytes) (last : Bytes) : List HostStmt :=
  contentKey cKey ++ setiv cIV ++ runChk (.macInitKs 1 .sha256) ++
  init.flatMap (pieceSeq (.cbcEnc 1 true)) ++
  lastPieceSeq (.cbcEncLegacy 1 true) last ++ [.emitGot 0 BufSize.b32768.bytes, .clearGot] ++
  [rdKeep .lmod 1, .emitGot 0 1, .clearGot] ++ emitTag

/-- A stored tag in BUF and the verification of the context against it (R330, R340, R342). -/
def verifyTag (t : Bytes) : List HostStmt :=
  wrb offTag t ++ [wr .src (BitVec.ofNat 32 offTag)] ++ runChk .ctxVerify

/-- UNWRAP: at its end the host keeps the 48 bytes content IV ‖ content key (R330). -/
def unwrapSeq (v : Version) (pw mainIV w t : Bytes) (c : Word) : List HostStmt :=
  deriveKek v pw mainIV c ++
  wrb offWrapped w ++ wrb offTag t ++
  absorbWrapped v ++
  [wr .src (BitVec.ofNat 32 offTag)] ++ runChk .ctxVerify ++
  setop offWrapped offPlain 48 ++ runChk (.cbcDec 0 false) ++
  .clearGot :: rdb offPlain 48

/-- The content tag computed over the pieces and compared, before anything is decrypted (R340, R343). -/
def verifyFirst (t : Bytes) (pieces : List Bytes) : List HostStmt :=
  runChk (.macInitKs 1 .sha256) ++
  pieces.flatMap (fun q => wrb offPiece q ++ setop offPiece 0 q.length ++ runChk .ctxUpdate) ++
  verifyTag t

/-- OPEN_CURRENT: verify, check the region's length (R333), decrypt (R340). -/
def openCurrentSeq (cIV cKey t : Bytes) (init : List Bytes) (last : Bytes) : List HostStmt :=
  let r := ((init ++ [last]).map List.length).sum
  contentKey cKey ++ verifyFirst t (init ++ [last]) ++
  (if r = 0 ∨ r % 16 ≠ 0 then [.raise .corruptContainer]
   else
    setiv cIV ++ init.flatMap (pieceSeq (.cbcDec 1 false)) ++
    lastPieceSeq (.cbcDecPkcs7 1 false) last ++ [.emitGot 0 BufSize.b32768.bytes, .clearGot])

/-- The decrypt loop of the Legacy sequences (R342, R343). -/
def legacyDecrypt (m : Bool) (modulo : Byte) (init : List Bytes) (last : Bytes) : List HostStmt :=
  init.flatMap (pieceSeq (.cbcDec 1 m)) ++
  [wr .lmod (modulo.zeroExtend 32)] ++
  lastPieceSeq (.cbcDecLegacy 1 m) last ++ [.emitGot 0 BufSize.b32768.bytes, .clearGot]

/-- OPEN_LEGACY, the reference: plaintext is emitted before the tag is compared (R338, R342). -/
def openLegacySeq (cIV cKey : Bytes) (modulo : Byte) (t : Bytes) (init : List Bytes) (last : Bytes) :
    List HostStmt :=
  contentKey cKey ++ setiv cIV ++ runChk (.macInitKs 1 .sha256) ++
  legacyDecrypt true modulo init last ++ verifyTag t

/-- OPEN_LEGACY_BUFFERED, the flagged variant: verify first (R343). -/
def openLegacyBufferedSeq (cIV cKey : Bytes) (modulo : Byte) (t : Bytes) (init : List Bytes) (last : Bytes) :
    List HostStmt :=
  contentKey cKey ++ verifyFirst t (init ++ [last]) ++ setiv cIV ++ legacyDecrypt false modulo init last

/-! ### Pieces (R321, log entry 13) -/

/-- A cut for encryption: pieces of n bytes, then what is left, which may be empty (R321). For n = 0, which no valid
bufferSize gives (R317), there is one piece (log entry 13). -/
def cutPieces (n : Nat) (data : Bytes) : List Bytes × Bytes :=
  (blocks n (data.length / n) data, data.drop (n * (data.length / n)))

/-- A cut for decryption: pieces of n bytes, then what is left, empty only if the data is (R340, R342). For n = 0,
which no valid bufferSize gives (R317), there is one piece (log entry 13). -/
def cutRegion (n : Nat) (data : Bytes) : List Bytes × Bytes :=
  (blocks n ((data.length - 1) / n) data, data.drop (n * ((data.length - 1) / n)))

/-- The content sequence of DECRYPT once UNWRAP has given content IV and content key (R344 step 6). -/
def openSeq (args : OpenArgs) (cIV cKey : Bytes) : List HostStmt :=
  let cut := cutRegion args.pieceBytes args.region
  match args.mode with
  | .current => openCurrentSeq cIV cKey args.tag cut.1 cut.2
  | .legacy => openLegacySeq cIV cKey args.modulo args.tag cut.1 cut.2
  | .legacyBuffered => openLegacyBufferedSeq cIV cKey args.modulo args.tag cut.1 cut.2

end Sys2Proof.Machine
end

