-- ==== Sys2Proof/Machine/HostAgent.lean ====
section
/-! DEFINITION. One step of the host agent (00_scope.md R8, R9): the next statement of its program. Each access is
one step (20_memory.md R70); `wait` is one read of STATUS a step (30_encoding.md R110). -/

namespace Sys2Proof.Machine

/-- The state with the host's program and last response replaced. -/
def State.hostAfter (s : State) (program : List HostStmt) (r : BusResponse) : State :=
  { s with host := { s.host with program := program, last := r } }

/-- The state with the bytes the host keeps, its program and its last response replaced. -/
def State.hostKeep (s : State) (program : List HostStmt) (r : BusResponse) (bs : Bytes) : State :=
  { s with host := { s.host with program := program, last := r, got := s.host.got ++ bs } }

/-- The state with only the host's program replaced. -/
def State.hostContinue (s : State) (program : List HostStmt) : State :=
  { s with host := { s.host with program := program } }

/-- The sequence stops and raises an error kind; what was emitted stays emitted (R337). -/
def State.hostRaise (s : State) (k : ErrorKind) : State :=
  { s with host := { s.host with program := [], raised := some k } }

/-- The effect of a statement; `rest` is the program after it. -/
def runStmt (st : HostStmt) (rest : List HostStmt) (s : State) : State :=
  match st with
  | .rd a w => s.hostAfter rest (s.busRead a w)
  | .wr a w v =>
    (s.busWrite a w v).1.hostAfter rest ⟨(s.busWrite a w v).2, 0#32⟩
  | .get a w keep =>
    s.hostKeep rest (s.busRead a w) ((wordBytes (s.busRead a w).data).take keep)
  | .getOutput o =>
    let r := s.busRead Reg.outlen.addr .w4
    s.hostAfter (rdb o r.data.toNat ++ rest) r
  | .wait =>
    let r := s.busRead Reg.status.addr .w4
    s.hostAfter (if r.data.getLsbD 0 then .wait :: rest else rest) r
  | .chk =>
    let r := s.busRead Reg.errcode.addr .w4
    if r.data = 0#32 then s.hostAfter rest r
    else (s.hostAfter rest r).hostRaise (errorKindOf r.data)
  | .emit bs =>
    { s with host := { s.host with program := rest, emitted := s.host.emitted ++ bs } }
  | .emitGot i n =>
    { s with host :=
        { s.host with program := rest, emitted := s.host.emitted ++ slice i n s.host.got } }
  | .clearGot => { s with host := { s.host with program := rest, got := [] } }
  | .raise k => s.hostRaise k
  | .openContent args =>
    { s with host :=
        { s.host with
          program := openSeq args (slice 0 16 s.host.got) (slice 16 32 s.host.got) ++ rest
          got := [] } }
  | .powerOnReset => s.resetEngine.hostContinue rest

/-- One host step: an outstanding command comes one host step nearer to its completion (R421, log entry 3),
and the host runs the next statement, or does nothing if its program has ended. -/
def hostStep (s : State) : State :=
  match s.host.program with
  | [] => { s with delay := s.delay - 1 }
  | st :: rest => runStmt st rest { s with delay := s.delay - 1 }

end Sys2Proof.Machine
end

