-- ==== Sys2Proof/Machine/Step.lean ====
section
/-! DEFINITION. One step of the machine: the engine's completion of the outstanding command, or one host step
(00_scope.md R9). -/

namespace Sys2Proof.Machine

/-- The engine moves: a command is outstanding and its latency is used up (R131, R421, log entry 3). -/
def State.engineTurn (s : State) : Bool := s.busy && s.delay == 0

/-- The completion of the outstanding command: the meaning of the word in CMDR, or ILLEGAL if it spells none
(R108, R131). -/
def completion (s : State) : Host.Outcome State Fault Refusal :=
  match decode s.cmdr with
  | some i => exec i s
  | none => execIllegal s

/-- One step of the two agents (R8, R9, R77). -/
def step (s : State) : Host.Outcome State Fault Refusal :=
  if s.engineTurn then completion s else .next (hostStep s)

/-- The state with a command word outstanding whose completion is the very next step (log entry 7): the engine
fetches nothing, so the word stands in CMDR, the phase is Busy and no latency is left. -/
def State.withFetchWord (s : State) (nbits w : Nat) : State :=
  { s with
    cmdr := leWordOf (wordBytes (BitVec.ofNat 32 (w % 2 ^ nbits)))
    phase := .busy
    delay := 0 }

end Sys2Proof.Machine
end

