-- ==== Sys2Proof/Safety.lean ====
section
/-! DEFINITION. The terms the claims are stated in: the invariant of the engine, the completion of a command as 40_control.md
R131 and 60_exceptions.md R360 give it, what a CBC command requires and leaves, which commands write which state
(30_encoding.md R105) and the codes each may complete with (60_exceptions.md R361). -/

namespace Sys2Proof.Machine

/-! ### The invariant -/

/-- The key of a context: none for a plain hash, at most BUF_BYTES bytes for an HMAC (R45, R284, R286, R288). -/
def Context.keyLegal (bufBytes : Nat) : Context → Prop
  | .inactive => True
  | .active .hmac _ key _ => key.length ≤ bufBytes
  | .active .hash _ key _ => key = []

/-- The invariant every step keeps. No run from reset leaves it; states outside it are no states of the engine. -/
structure EngineInv (s : State) : Prop where
  /-- BUF is in canonical form, so equal buffers are equal data -/
  bufCanonical : s.buf.wf = true
  /-- nothing is stored past BUF_BYTES (R49, R81) -/
  bufInside : s.buf.below s.bufBytes = true
  /-- the message of the context stays below CTX_MAX_BYTES (R282) -/
  contextBounded : s.context.msgLength ≤ 2 ^ 60
  /-- the key of the context is one an init command can give -/
  contextKey : s.context.keyLegal s.bufBytes
  /-- OUTLEN never counts more bytes than BUF holds (R44, R246) -/
  outlenBounded : s.outlen.toNat ≤ s.bufBytes
  /-- while Busy nothing is reported of the outstanding command (R52, R362) -/
  busyReportsNothing : s.phase = .busy → s.done = false ∧ s.err = false ∧ s.authOk = false ∧ s.errcode = .ok
  /-- ERR is set only with a code that is not OK (R32) -/
  errHasCode : s.err = true → s.errcode ≠ .ok
  /-- AUTH_OK is set only after a CTX_VERIFY that completed with OK and consumed its context (R33, R296) -/
  authOkVerified : s.authOk = true → s.errcode = .ok ∧ decode s.cmdr = some .ctxVerify ∧ s.context = .inactive
  /-- no delay is left over when no command is outstanding -/
  idleNoDelay : s.phase = .idle → s.delay = 0

/-! ### Completions (R131, R360) -/

/-- The state after a completion with code OK of a command whose other effects left `s`; AUTH_OK as given. -/
def State.completed (s : State) (authOk : Bool) : State :=
  { s with errcode := .ok, err := false, done := true, authOk := authOk, phase := .idle }

/-- The state after a completion with an error code of a command whose other effects left `s`. -/
def State.failed (s : State) (c : Code) : State :=
  { s with errcode := c, err := true, done := true, authOk := false, phase := .idle }

/-- The codes found before any effect (R132). -/
def Code.isValidation : Code → Bool
  | .ok => false
  | .illegal => true
  | .ctxState => true
  | .length => true
  | .range => true
  | .param => true
  | .auth => false
  | .padding => false

/-! ### CBC commands -/

/-- Input (SRC, n) and output (DST, out) are not valid ranges of BUF (R81, R244 check 4). -/
abbrev State.rangesInvalid (s : State) (out : Nat) : Prop :=
  s.bufBytes < s.src.toNat + s.len.toNat ∨ s.bufBytes < s.dst.toNat + out

/-- Input (SRC, n) and output (DST, out) partly overlap (R82, R244 check 5). -/
abbrev State.rangesOverlap (s : State) (out : Nat) : Prop :=
  0 < s.len.toNat ∧ 0 < out ∧ s.src ≠ s.dst ∧ s.src.toNat < s.dst.toNat + out ∧
    s.dst.toNat < s.src.toNat + s.len.toNat

/-- The operands pass the checks of R244 but the length rule, for an output of `out` bytes. -/
structure State.CbcAdmitted (s : State) (m : Bool) (out : Nat) : Prop where
  contextReady : m = true → s.context ≠ .inactive ∧ s.context.msgLength + out ≤ 2 ^ 60
  inRange : ¬ s.rangesInvalid out
  noOverlap : ¬ s.rangesOverlap out

/-- `t` is `s` with the byte string stored in BUF from an offset on: those bytes there, every other byte as
before (R91, R247). -/
def StoredAt (s t : State) (offset : Nat) (bs : Bytes) : Prop :=
  ∀ i, t.buf.read i =
    if offset ≤ i ∧ i < offset + bs.length then bs.getD (i - offset) 0#8 else s.buf.read i

/-- What a CBC command leaves before it completes: the output at DST, the chaining value in IVR, the fed
ciphertext in the context if M = 1, OUTLEN and LMOD; nothing else changes (R242, R243, R246, R247). -/
def CbcLeaves (s t : State) (m : Bool) (output chain fed : Bytes) (outlen : Nat) (lmod : BitVec 4) : Prop :=
  StoredAt s t s.dst.toNat output ∧
  t = { s with
    buf := t.buf
    ivr := wordsOfBytes 4 chain
    context := if m then s.context.absorb fed else s.context
    outlen := BitVec.ofNat 32 outlen
    lmod := lmod }

/-- The table of R241 for an input of n bytes: the MAC-feed bit of a CBC command, whether n is a length it takes,
and its output length; `none` for a command that is no CBC command. -/
def cbcShape (n : Nat) : Instr → Option (Bool × Bool × Nat)
  | .nop => none
  | .zeroize => none
  | .kdfLegacy _ => none
  | .kdfPbkdf2 _ => none
  | .cbcEnc _ m => some (m, n % 16 == 0, n)
  | .cbcDec _ m => some (m, n % 16 == 0, n)
  | .cbcEncPkcs7 _ m => some (m, true, n + 16 - n % 16)
  | .cbcDecPkcs7 _ m => some (m, n % 16 == 0 && 16 ≤ n, n)
  | .cbcEncLegacy _ m => some (m, true, n + (16 - n % 16) % 16)
  | .cbcDecLegacy _ m => some (m, n % 16 == 0, n)
  | .macInitKs _ _ => none
  | .macInitBuf _ => none
  | .hashInit _ => none
  | .ctxUpdate => none
  | .ctxFinal => none
  | .ctxVerify => none

/-! ### Updates in pieces (R291) -/

/-- CTX_UPDATE over successive pieces of BUF from SRC on, of the given lengths. -/
def updatePieces : List Nat → State → Host.Outcome State Fault Refusal
  | [], s => .next s
  | n :: ns, s =>
    match exec .ctxUpdate { s with len := BitVec.ofNat 32 n } with
    | .next t => updatePieces ns { t with src := t.src + BitVec.ofNat 32 n }
    | .fault r => .fault r
    | .refused r => .refused r

/-! ### What the host may learn (R47, R53) -/

/-- The two states differ at most in the key slots and in the context, and STATUS reads the same. -/
def SameButSecrets (s t : State) : Prop :=
  t = { s with keys := t.keys, context := t.context } ∧ t.statusWord = s.statusWord

/-! ### Which command writes what (R105) -/

/-- The six CBC commands. -/
def isCbc : Instr → Bool
  | .nop => false
  | .zeroize => false
  | .kdfLegacy _ => false
  | .kdfPbkdf2 _ => false
  | .cbcEnc _ _ => true
  | .cbcDec _ _ => true
  | .cbcEncPkcs7 _ _ => true
  | .cbcDecPkcs7 _ _ => true
  | .cbcEncLegacy _ _ => true
  | .cbcDecLegacy _ _ => true
  | .macInitKs _ _ => false
  | .macInitBuf _ => false
  | .hashInit _ => false
  | .ctxUpdate => false
  | .ctxFinal => false
  | .ctxVerify => false

/-- The commands that make the context Active (R281). -/
def isInit : Instr → Bool
  | .nop => false
  | .zeroize => false
  | .kdfLegacy _ => false
  | .kdfPbkdf2 _ => false
  | .cbcEnc _ _ => false
  | .cbcDec _ _ => false
  | .cbcEncPkcs7 _ _ => false
  | .cbcDecPkcs7 _ _ => false
  | .cbcEncLegacy _ _ => false
  | .cbcDecLegacy _ _ => false
  | .macInitKs _ _ => true
  | .macInitBuf _ => true
  | .hashInit _ => true
  | .ctxUpdate => false
  | .ctxFinal => false
  | .ctxVerify => false

/-- The column "context" of R105 has a W: the context commands, ZEROIZE and the CBC commands with M = 1. -/
def writesContext : Instr → Bool
  | .nop => false
  | .zeroize => true
  | .kdfLegacy _ => false
  | .kdfPbkdf2 _ => false
  | .cbcEnc _ m => m
  | .cbcDec _ m => m
  | .cbcEncPkcs7 _ m => m
  | .cbcDecPkcs7 _ m => m
  | .cbcEncLegacy _ m => m
  | .cbcDecLegacy _ m => m
  | .macInitKs _ _ => true
  | .macInitBuf _ => true
  | .hashInit _ => true
  | .ctxUpdate => true
  | .ctxFinal => true
  | .ctxVerify => true

/-! ### Which command completes with what (R361) -/

/-- The codes a command may complete with: the column "raised by" of R361. -/
def completionCodes : Instr → List Code
  | .nop => [.ok]
  | .zeroize => [.ok]
  | .kdfLegacy _ => [.ok, .length, .range]
  | .kdfPbkdf2 _ => [.ok, .length, .range, .param]
  | .cbcEnc _ m => [.ok, .length, .range] ++ (if m then [.ctxState] else [])
  | .cbcDec _ m => [.ok, .length, .range] ++ (if m then [.ctxState] else [])
  | .cbcEncPkcs7 _ m => [.ok, .range] ++ (if m then [.ctxState, .length] else [])
  | .cbcDecPkcs7 _ m => [.ok, .length, .range, .padding] ++ (if m then [.ctxState] else [])
  | .cbcEncLegacy _ m => [.ok, .range] ++ (if m then [.ctxState, .length] else [])
  | .cbcDecLegacy _ m => [.ok, .length, .range] ++ (if m then [.ctxState] else [])
  | .macInitKs _ _ => [.ok]
  | .macInitBuf _ => [.ok, .range]
  | .hashInit _ => [.ok]
  | .ctxUpdate => [.ok, .ctxState, .length, .range]
  | .ctxFinal => [.ok, .ctxState]
  | .ctxVerify => [.ok, .ctxState, .range, .auth]

end Sys2Proof.Machine
end

