-- ==== Sys2Proof/Certificates/Slice0/Obligations.lean ====
section
/-! DEFINITION. The statements for the provers, each over every state and operand it names. A docstring names the rule
of the spec a statement formalises. A window offset is written as the number the register map (10_state.md R23) gives it. -/

section Slice0

open Sys2Proof Sys2Proof.Machine

/-! ### Encoding (30_encoding.md) -/

/-- The decoder gives a command exactly on the word the encoder writes for it, with every field at every value
(R103, R104). -/
def Obligations.DecodeIffEncode : Prop :=
  ∀ (w : Word) (i : Instr), decode w = some i ↔ w = encode i

/-- At most one row matches a word, and a word decodes iff some row matches it (R103, R104). -/
def Obligations.AtMostOneRowSpells : Prop :=
  ∀ w : Word,
    (∀ r ∈ opcodeRows, ∀ q ∈ opcodeRows, w &&& r.mask = r.pattern → w &&& q.mask = q.pattern → r = q) ∧
    ((decode w).isSome = true ↔ ∃ r ∈ opcodeRows, w &&& r.mask = r.pattern)

/-- The illegal words are those with a reserved opcode or a 1 in a bit their row does not admit; an illegal word is
still issued and completes with ILLEGAL (R106). -/
def Obligations.IllegalWords : Prop :=
  (∀ w : Word, decode w = none ↔
    ((0x02 ≤ (w.extractLsb' 0 8).toNat ∧ (w.extractLsb' 0 8).toNat ≤ 0x0F) ∨
     (0x12 ≤ (w.extractLsb' 0 8).toNat ∧ (w.extractLsb' 0 8).toNat ≤ 0x1F) ∨
     (0x26 ≤ (w.extractLsb' 0 8).toNat ∧ (w.extractLsb' 0 8).toNat ≤ 0x2F) ∨
     0x36 ≤ (w.extractLsb' 0 8).toNat) ∨
    w.getLsbD 11 = true ∨ w.extractLsb' 13 19 ≠ 0#19 ∨
    (w.extractLsb' 8 2 ≠ 0#2 ∧ (w.extractLsb' 0 8).toNat ∈ [0x00, 0x01, 0x31, 0x32, 0x33, 0x34, 0x35]) ∨
    (w.getLsbD 10 = true ∧ (w.extractLsb' 0 8).toNat ∉ [0x20, 0x21, 0x22, 0x23, 0x24, 0x25]) ∨
    (w.getLsbD 12 = true ∧ (w.extractLsb' 0 8).toNat ∉ [0x30, 0x31, 0x32])) ∧
  (∀ (s : State) (w : Word), decode w = none →
    (s.phase = .idle →
      (s.busWrite (.window 0x0014#16) .w4 w).1.cmdr = w ∧
      (s.busWrite (.window 0x0014#16) .w4 w).1.phase = .busy) ∧
    (s.cmdr = w → s.phase = .busy → s.delay = 0 → ∃ t, step s = .next t ∧ t.errcode = .illegal))

/-- An illegal word completes with ILLEGAL, ERR and DONE and changes nothing else, whatever the operands (R108). -/
def Obligations.IllegalCompletion : Prop :=
  ∀ s : State, s.phase = .busy → s.delay = 0 → s.authOk = false → decode s.cmdr = none →
    step s = .next { s with errcode := .illegal, err := true, done := true, phase := .idle }

/-- The worked encodings (R111). -/
def Obligations.WorkedEncodings : Prop :=
  decode 0x00000000#32 = some .nop ∧ decode 0x00000001#32 = some .zeroize ∧
  decode 0x00000011#32 = some (.kdfPbkdf2 0) ∧ decode 0x00000210#32 = some (.kdfLegacy 2) ∧
  decode 0x00000520#32 = some (.cbcEnc 1 true) ∧ decode 0x00000123#32 = some (.cbcDecPkcs7 1 false) ∧
  decode 0x00000725#32 = some (.cbcDecLegacy 3 true) ∧ decode 0x00000130#32 = some (.macInitKs 1 .sha256) ∧
  decode 0x00001030#32 = some (.macInitKs 0 .sha512) ∧ decode 0x00001032#32 = some (.hashInit .sha512) ∧
  decode 0x00000035#32 = some .ctxVerify ∧
  encode .nop = 0x00000000#32 ∧ encode .zeroize = 0x00000001#32 ∧
  encode (.kdfPbkdf2 0) = 0x00000011#32 ∧ encode (.kdfLegacy 2) = 0x00000210#32 ∧
  encode (.cbcEnc 1 true) = 0x00000520#32 ∧ encode (.cbcDecPkcs7 1 false) = 0x00000123#32 ∧
  encode (.cbcDecLegacy 3 true) = 0x00000725#32 ∧ encode (.macInitKs 1 .sha256) = 0x00000130#32 ∧
  encode (.macInitKs 0 .sha512) = 0x00001030#32 ∧ encode (.hashInit .sha512) = 0x00001032#32 ∧
  encode .ctxVerify = 0x00000035#32 ∧
  decode 0x00000002#32 = none ∧ decode 0x00000800#32 = none ∧ decode 0x00000411#32 = none

/-! ### Steps (00_scope.md R8, R9; 40_control.md R131) -/

/-- When a command is outstanding with no latency left, the step is the meaning of the word in CMDR; and the step
after `withFetchWord` runs the instruction the decoder reads from the placed bits. -/
def Obligations.StepRunsDecoded : Prop :=
  (∀ (s : State) (i : Instr), s.phase = .busy → s.delay = 0 → decode s.cmdr = some i → step s = exec i s) ∧
  (∀ (s : State) (w : Nat) (i : Instr), decodeTableWord 32 w = some i →
    step (s.withFetchWord 32 w) = exec i (s.withFetchWord 32 w))

/-- When the engine has nothing to complete, or latency is left, the host runs the next statement of its program:
a read records the response, a write is the bus write, `wait` repeats while BUSY, `chk` raises on a code that is
not 0 (R8, R9, R109, R110, R323). The delay counts down beside it, which is the model's choice (log entry 3). -/
def Obligations.StepRunsHost : Prop :=
  ∀ (s : State) (rest : List HostStmt), ¬ (s.phase = .busy ∧ s.delay = 0) →
    let u : State := { s with delay := s.delay - 1 }
    (s.host.program = [] → step s = .next u) ∧
    (∀ a w, s.host.program = .rd a w :: rest →
      step s = .next { u with host := { s.host with program := rest, last := s.busRead a w } }) ∧
    (∀ a w v, s.host.program = .wr a w v :: rest →
      step s = .next { (u.busWrite a w v).1 with
        host := { s.host with program := rest, last := ⟨(u.busWrite a w v).2, 0#32⟩ } }) ∧
    (s.host.program = .wait :: rest →
      step s = .next { u with host := { s.host with
        program := if s.phase = .busy then .wait :: rest else rest
        last := ⟨false, s.statusWord⟩ } }) ∧
    (s.host.program = .chk :: rest →
      step s = .next { u with host := { s.host with
        program := if s.errcode = .ok then rest else []
        last := ⟨false, s.errcodeWord⟩
        raised := if s.errcode = .ok then s.host.raised else some (errorKindOf s.errcodeWord) } })

/-- The engine has no stuck state: it reaches Idle by waiting, whatever the host does, or by a soft reset, and every
state has a next state (R378). That the wait ends within `delay + 1` steps is how the model makes LATENCY finite
(log entry 3). -/
def Obligations.NoStuckState : Prop :=
  ∀ s : State,
    (∃ (n : Nat) (t : State), n ≤ s.delay + 1 ∧ Host.Core.run Sys2Proof.core n s = .next t ∧ t.phase = .idle) ∧
    (∀ v : Word, v.getLsbD 1 = true → (s.busWrite (.window 0x0008#16) .w4 v).1.phase = .idle) ∧
    (∃ t, step s = .next t)

/-! ### Issue, status, control, reset -/

/-- The issue of a command, and the writes to CMD that are none (R362). Of the issue count and the delay, which are the
model's (log entry 3), nothing is said. -/
def Obligations.IssueEffects : Prop :=
  ∀ (s : State) (v : Word),
    (s.phase = .idle → ∃ t, s.busWrite (.window 0x0014#16) .w4 v = (t, false) ∧
      t = { s with cmdr := v, errcode := .ok, done := false, err := false, authOk := false, phase := .busy,
                   issues := t.issues, delay := t.delay }) ∧
    (s.phase = .busy → s.busWrite (.window 0x0014#16) .w4 v = ({ s with ovf := true }, false)) ∧
    s.busWrite (.window 0x0014#16) .w1 v = (s, true) ∧
    s.busWrite (.window 0x0014#16) .w2 v = (s, true)

/-- A write to STATUS clears DONE, ERR and OVF where it holds a 1, in either phase, and does nothing else (R36). -/
def Obligations.StatusWriteOneToClear : Prop :=
  ∀ (s : State) (v : Word), s.busWrite (.window 0x000C#16) .w4 v =
    ({ s with
        done := if v.getLsbD 1 then false else s.done
        err := if v.getLsbD 2 then false else s.err
        ovf := if v.getLsbD 7 then false else s.ovf }, false)

/-- The bits of STATUS as read, in either phase (R29, R30, R34). -/
def Obligations.StatusBits : Prop :=
  ∀ s : State,
    s.busRead (.window 0x000C#16) .w4 = ⟨false, s.statusWord⟩ ∧
    s.statusWord.getLsbD 0 = (s.phase == .busy) ∧
    s.statusWord.getLsbD 1 = s.done ∧ s.statusWord.getLsbD 2 = s.err ∧ s.statusWord.getLsbD 3 = s.authOk ∧
    (s.statusWord.getLsbD 4 = true ↔ ∃ kind h k m, s.context = .active kind h k m) ∧
    (s.statusWord.getLsbD 5 = true ↔ ∃ kind k m, s.context = .active kind .sha512 k m) ∧
    (s.statusWord.getLsbD 6 = true ↔ ∃ h k m, s.context = .active .hmac h k m) ∧
    s.statusWord.getLsbD 7 = s.ovf ∧ (∀ i, 8 ≤ i → s.statusWord.getLsbD i = false)

/-- A write to CTRL with bit 1 set resets every element, CTRL included; with bit 1 clear it sets IRQ_EN to bit 0 and nothing
else (R28). Written while Busy it abandons the command: no effect of it, no completion for it, DONE 0, no interrupt,
OVF cleared (R404). That BUF_BYTES and the host agent, which are no elements of R20, stay and that the delay becomes 0 is
the model's choice (log entries 8 and 21). -/
def Obligations.CtrlWrite : Prop :=
  ∀ (s : State) (v : Word),
    (v.getLsbD 1 = true → ∃ t, s.busWrite (.window 0x0008#16) .w4 v = (t, false) ∧
      t = { State.reset with bufSize := s.bufSize, issues := t.issues, host := s.host } ∧
      t.phase = .idle ∧ t.done = false ∧ t.irq = false ∧ t.ovf = false ∧ step t = .next (hostStep t)) ∧
    (v.getLsbD 1 = false → s.busWrite (.window 0x0008#16) .w4 v = ({ s with irqEn := v.getLsbD 0 }, false))

/-- Power-on reset and soft reset have the same effect on the engine: every element at its reset value, no command
outstanding, ready for the next access (R400). That power-on reset is a statement of the host's program (log entry 8) and
that both resets keep BUF_BYTES, the issue count and the host and clear the delay (log entry 21) is the model's choice. -/
def Obligations.BothResetsAgree : Prop :=
  ∀ (s : State) (rest : List HostStmt) (v : Word), ¬ (s.phase = .busy ∧ s.delay = 0) → v.getLsbD 1 = true →
    let engine : State := { State.reset with bufSize := s.bufSize, issues := s.issues, host := s.host }
    (s.host.program = .powerOnReset :: rest →
      step s = .next { engine with host := { s.host with program := rest } }) ∧
    (s.host.program = .wr (.window 0x0008#16) .w4 v :: rest →
      step s = .next { engine with host := { s.host with program := rest, last := ⟨false, 0#32⟩ } }) ∧
    engine.phase = .idle ∧ step engine = .next (hostStep engine)

/-- The reset values, as the host reads them, and those of the state it cannot read (R401). That BUF_BYTES is 4096 in the
reset state, and with it the value of CAPS, is the model's choice of the reference value (log entry 2). -/
def Obligations.ResetValues : Prop :=
  State.reset.busRead (.window 0x0000#16) .w4 = ⟨false, 0x54414345#32⟩ ∧
  State.reset.bufSize = .b4096 ∧
  State.reset.busRead (.window 0x0004#16) .w4 = ⟨false, 0x0000140C#32⟩ ∧
  State.reset.busRead (.window 0x0008#16) .w4 = ⟨false, 0#32⟩ ∧
  State.reset.busRead (.window 0x000C#16) .w4 = ⟨false, 0#32⟩ ∧
  State.reset.busRead (.window 0x0010#16) .w4 = ⟨false, 0#32⟩ ∧
  State.reset.busRead (.window 0x0014#16) .w4 = ⟨false, 0#32⟩ ∧
  State.reset.busRead (.window 0x0018#16) .w4 = ⟨false, 0#32⟩ ∧
  State.reset.busRead (.window 0x001C#16) .w4 = ⟨false, 0#32⟩ ∧
  State.reset.busRead (.window 0x0020#16) .w4 = ⟨false, 0#32⟩ ∧
  State.reset.busRead (.window 0x0024#16) .w4 = ⟨false, 0x000493E0#32⟩ ∧
  State.reset.busRead (.window 0x0028#16) .w4 = ⟨false, 0#32⟩ ∧
  State.reset.busRead (.window 0x002C#16) .w4 = ⟨false, 0#32⟩ ∧
  (∀ j : Fin 4, State.reset.busRead (.window (BitVec.ofNat 16 (0x0040 + 4 * j.val))) .w4 = ⟨false, 0#32⟩) ∧
  (∀ j : Fin 16, State.reset.busRead (.window (BitVec.ofNat 16 (0x0100 + 4 * j.val))) .w4 = ⟨false, 0#32⟩) ∧
  (∀ ks : KeySlot, State.reset.keyBytes ks = zeros 32) ∧
  (∀ i : Nat, State.reset.buf.read i = 0x00#8) ∧
  State.reset.context = .inactive ∧ State.reset.phase = .idle ∧ State.reset.irq = false

/-! ### Host accesses (20_memory.md) -/

/-- ID reads its constant in both phases; a write stores nothing, and while Busy sets OVF (R24). CAPS reads its fields in
both phases, 0x0000140C with the reference BUF_BYTES (R26). -/
def Obligations.IdAndCaps : Prop :=
  (∀ (s : State) (v : Word),
    s.busRead (.window 0x0000#16) .w4 = ⟨false, 0x54414345#32⟩ ∧
    (s.phase = .idle → s.busWrite (.window 0x0000#16) .w4 v = (s, false)) ∧
    (s.phase = .busy → s.busWrite (.window 0x0000#16) .w4 v = ({ s with ovf := true }, false))) ∧
  (∀ s : State, s.busRead (.window 0x0004#16) .w4 = ⟨false, s.capsWord⟩ ∧
    2 ^ (s.capsWord.extractLsb' 0 8).toNat = s.bufBytes ∧
    (s.capsWord.extractLsb' 0 8).toNat ∈ [12, 13, 14, 15] ∧
    s.capsWord.extractLsb' 8 4 = 4#4 ∧ s.capsWord.extractLsb' 12 4 = 1#4 ∧
    s.capsWord.extractLsb' 16 16 = 0#16) ∧
  (∀ s : State, s.bufSize.bytes = 4096 → s.capsWord = 0x0000140C#32)

/-- An access errs exactly when it is not legal; it then changes nothing and a read gives 0 (R71, R73). -/
def Obligations.BusErrors : Prop :=
  ∀ (s : State) (t : BusAddr) (w : Width) (v : Word),
    let legal : Prop := ∃ a : BitVec 16, t = .window a ∧
      ((a.toNat ≤ 0x7FFF ∧ w = .w4 ∧ a.toNat % 4 = 0) ∨ (0x8000 ≤ a.toNat ∧ a.toNat % w.bytes = 0))
    (legal → (s.busRead t w).error = false ∧ (s.busWrite t w v).2 = false) ∧
    (¬ legal → s.busRead t w = ⟨true, 0#32⟩ ∧ s.busWrite t w v = (s, true))

/-- The busy lockout: while Busy six registers read and two take writes; every other legal read gives 0 and every
other legal write is dropped and sets OVF. While Idle a write to a read-only register is ignored (R78). -/
def Obligations.BusyLockout : Prop :=
  ∀ (s : State) (a : BitVec 16) (w : Width) (v : Word), legalAccess a w = true →
    (s.phase = .busy →
      (a.toNat ∉ [0x0000, 0x0004, 0x0008, 0x000C, 0x0010, 0x0014] →
        s.busRead (.window a) w = ⟨false, 0#32⟩) ∧
      (a.toNat ∉ [0x0008, 0x000C] → s.busWrite (.window a) w v = ({ s with ovf := true }, false))) ∧
    (s.phase = .idle →
      a.toNat ∈ [0x0000, 0x0004, 0x0010, 0x002C] ∨ (0x0100 ≤ a.toNat ∧ a.toNat < 0x0140) →
        s.busWrite (.window a) w v = (s, false))

/-- Reserved offsets read 0 and ignore writes, but for OVF while Busy; reserved bits of the defined registers read 0
and what is written to them is ignored (R25). -/
def Obligations.ReservedOffsetsAndBits : Prop :=
  (∀ (s : State) (a : BitVec 16) (w : Width) (v : Word), legalAccess a w = true →
    ((0x0030 ≤ a.toNat ∧ a.toNat < 0x0040) ∨ (0x0050 ≤ a.toNat ∧ a.toNat < 0x0080) ∨
      (0x0140 ≤ a.toNat ∧ a.toNat < 0x8000) ∨ 0x8000 + s.bufBytes ≤ a.toNat) →
    s.busRead (.window a) w = ⟨false, 0#32⟩ ∧
    (s.phase = .idle → s.busWrite (.window a) w v = (s, false)) ∧
    (s.phase = .busy → s.busWrite (.window a) w v = ({ s with ovf := true }, false))) ∧
  (∀ s : State,
    (∀ i, 1 ≤ i → (s.busRead (.window 0x0008#16) .w4).data.getLsbD i = false) ∧
    (∀ i, 8 ≤ i → (s.busRead (.window 0x000C#16) .w4).data.getLsbD i = false) ∧
    (∀ i, 8 ≤ i → (s.busRead (.window 0x0010#16) .w4).data.getLsbD i = false) ∧
    (∀ i, 16 ≤ i → (s.busRead (.window 0x0004#16) .w4).data.getLsbD i = false) ∧
    (∀ i, 4 ≤ i → (s.busRead (.window 0x0028#16) .w4).data.getLsbD i = false)) ∧
  (∀ (s : State) (v u : Word),
    (v.extractLsb' 0 2 = u.extractLsb' 0 2 →
      s.busWrite (.window 0x0008#16) .w4 v = s.busWrite (.window 0x0008#16) .w4 u) ∧
    (v.extractLsb' 0 8 = u.extractLsb' 0 8 →
      s.busWrite (.window 0x000C#16) .w4 v = s.busWrite (.window 0x000C#16) .w4 u) ∧
    (v.extractLsb' 0 4 = u.extractLsb' 0 4 →
      s.busWrite (.window 0x0028#16) .w4 v = s.busWrite (.window 0x0028#16) .w4 u))

/-- A host read changes nothing of the engine, and a second read of the same offset gives the same value (R75). Of the
delay, which is the model's (log entry 3), nothing is said. -/
def Obligations.ReadsHaveNoSideEffect : Prop :=
  ∀ (s t : State) (a : BusAddr) (w : Width) (rest : List HostStmt), ¬ (s.phase = .busy ∧ s.delay = 0) →
    s.host.program = .rd a w :: rest → step s = .next t →
    t = { s with delay := t.delay, host := { s.host with program := rest, last := s.busRead a w } } ∧
    t.busRead a w = s.busRead a w

/-- A legal write to BUF stores its bytes, the low byte at the lowest offset, and changes nothing else; read at the same
width they are the value written (R72). -/
def Obligations.BufAccess : Prop :=
  ∀ (s : State) (i : Nat) (w : Width) (v : Word), s.phase = .idle → s.buf.wf = true →
    i < s.bufBytes → i % w.bytes = 0 →
    ∃ t, s.busWrite (.window (BitVec.ofNat 16 (0x8000 + i))) w v = (t, false) ∧
      t = { s with buf := t.buf } ∧
      (∀ j, t.buf.read j =
        if i ≤ j ∧ j < i + w.bytes then v.extractLsb' (8 * (j - i)) 8 else s.buf.read j) ∧
      t.busRead (.window (BitVec.ofNat 16 (0x8000 + i))) w = ⟨false, BitVec.ofNat 32 (v.toNat % 2 ^ (8 * w.bytes))⟩

/-- Accesses of different widths see one byte array (R74). -/
def Obligations.MixedWidths : Prop :=
  ∀ s : State, s.phase = .idle → s.buf.wf = true →
    let t := (s.busWrite (.window 0x8000#16) .w4 0x44332211#32).1
    t.busRead (.window 0x8000#16) .w1 = ⟨false, 0x11#32⟩ ∧
    t.busRead (.window 0x8002#16) .w2 = ⟨false, 0x4433#32⟩ ∧
    t.busRead (.window 0x8001#16) .w1 = ⟨false, 0x22#32⟩

/-- What the registers read and take. In either phase CMD reads CMDR and CTRL reads IRQ_EN in bit 0 (R27, R38). While Idle
a write to an operand register or a word of IVR stores it, and it alone; each reads what it holds, LMOD as its low 4 bits
(R39 to R43, R46); OUTLEN reads the number of output bytes (R44), and word j of RESULT, as of IVR, reads bytes 4j to 4j+3
of its byte string (R46, R48). -/
def Obligations.OperandRegisters : Prop :=
  ∀ (s : State) (v : Word),
    s.busRead (.window 0x0014#16) .w4 = ⟨false, s.cmdr⟩ ∧
    s.busRead (.window 0x0008#16) .w4 = ⟨false, if s.irqEn then 1#32 else 0#32⟩ ∧
    (s.phase = .idle →
      (s.busWrite (.window 0x0018#16) .w4 v = ({ s with src := v }, false) ∧
        (s.busRead (.window 0x0018#16) .w4) = ⟨false, s.src⟩) ∧
      (s.busWrite (.window 0x001C#16) .w4 v = ({ s with dst := v }, false) ∧
        (s.busRead (.window 0x001C#16) .w4) = ⟨false, s.dst⟩) ∧
      (s.busWrite (.window 0x0020#16) .w4 v = ({ s with len := v }, false) ∧
        (s.busRead (.window 0x0020#16) .w4) = ⟨false, s.len⟩) ∧
      (s.busWrite (.window 0x0024#16) .w4 v = ({ s with iter := v }, false) ∧
        (s.busRead (.window 0x0024#16) .w4) = ⟨false, s.iter⟩) ∧
      (s.busWrite (.window 0x0028#16) .w4 v = ({ s with lmod := BitVec.ofNat 4 (v.toNat % 16) }, false) ∧
        (s.busRead (.window 0x0028#16) .w4) = ⟨false, s.lmod.zeroExtend 32⟩) ∧
      (∀ j : Fin 4,
        s.busWrite (.window (BitVec.ofNat 16 (0x0040 + 4 * j.val))) .w4 v = ({ s with ivr := s.ivr.set j v }, false) ∧
        s.busRead (.window (BitVec.ofNat 16 (0x0040 + 4 * j.val))) .w4 = ⟨false, s.ivr[j]⟩ ∧
        wordBytes s.ivr[j] = slice (4 * j.val) 4 s.ivrBytes) ∧
      s.busRead (.window 0x002C#16) .w4 = ⟨false, s.outlen⟩ ∧
      (∀ j : Fin 16,
        s.busRead (.window (BitVec.ofNat 16 (0x0100 + 4 * j.val))) .w4 = ⟨false, s.result[j]⟩ ∧
        wordBytes s.result[j] = slice (4 * j.val) 4 s.resultBytes))

/-- Key slots read as 0 in both phases; a write while Idle replaces the 4 bytes of its word of its slot and nothing
else (R47, R406). -/
def Obligations.KeySlotAccess : Prop :=
  ∀ (s : State) (ks : KeySlot) (j : Fin 8) (v : Word),
    let a : BusAddr := .window (BitVec.ofNat 16 (0x0080 + 0x20 * ks.val + 4 * j.val))
    s.busRead a .w4 = ⟨false, 0#32⟩ ∧
    (s.phase = .idle → ∃ t, s.busWrite a .w4 v = (t, false) ∧ t = { s with keys := t.keys } ∧
      t.keyBytes ks = (s.keyBytes ks).take (4 * j.val) ++ wordBytes v ++ (s.keyBytes ks).drop (4 * j.val + 4) ∧
      ∀ q : KeySlot, q ≠ ks → t.keyBytes q = s.keyBytes q)

/-- A host step cannot tell apart two states that differ in key slots, context key and absorbed bytes only: everything
it reads, keeps, emits or changes is the same (R47, R53). -/
def Obligations.HostStepsRevealNoSecret : Prop :=
  ∀ s t : State, SameButSecrets s t → SameButSecrets (hostStep s) (hostStep t)

/-! ### Flags over whole steps -/

/-- OVF is sticky: a step sets it only when the host makes a write to a locked offset while Busy, and clears it only when
the host writes 1 to its bit of STATUS or resets the engine (R35); power-on reset is a host statement (log entry 8). -/
def Obligations.OvfSticky : Prop :=
  ∀ s t : State, step s = .next t →
    (s.ovf = false → t.ovf = true →
      s.phase = .busy ∧ ∃ a w v rest, s.host.program = .wr (.window a) w v :: rest ∧
        legalAccess a w = true ∧ a.toNat ∉ [0x0008, 0x000C]) ∧
    (s.ovf = true → t.ovf = false →
      (∃ v rest, s.host.program = .wr (.window 0x000C#16) .w4 v :: rest ∧ v.getLsbD 7 = true) ∨
      (∃ v rest, s.host.program = .wr (.window 0x0008#16) .w4 v :: rest ∧ v.getLsbD 1 = true) ∨
      (∃ rest, s.host.program = .powerOnReset :: rest))

/-- irq is IRQ_EN and DONE in every state. Over a step it rises exactly at a completion with IRQ_EN = 1 or when the host
sets IRQ_EN while DONE = 1, and falls exactly when the host clears DONE or IRQ_EN, issues a command or resets the engine
(R51, R366, R367); power-on reset is a host statement (log entry 8). -/
def Obligations.IrqEdges : Prop :=
  (∀ s : State, s.irq = true ↔ s.irqEn = true ∧ s.done = true) ∧
  ∀ s t : State, step s = .next t →
    (s.irq = false → (t.irq = true ↔
      (s.engineTurn = true ∧ s.irqEn = true) ∨
      (s.engineTurn = false ∧ s.done = true ∧ ∃ v rest, s.host.program = .wr (.window 0x0008#16) .w4 v :: rest ∧
        v.getLsbD 0 = true ∧ v.getLsbD 1 = false))) ∧
    (s.irq = true → (t.irq = false ↔
      s.engineTurn = false ∧
      ((∃ v rest, s.host.program = .wr (.window 0x000C#16) .w4 v :: rest ∧ v.getLsbD 1 = true) ∨
       (∃ v rest, s.host.program = .wr (.window 0x0008#16) .w4 v :: rest ∧
        (v.getLsbD 0 = false ∨ v.getLsbD 1 = true)) ∨
       (s.phase = .idle ∧ ∃ v rest, s.host.program = .wr (.window 0x0014#16) .w4 v :: rest) ∨
       (∃ rest, s.host.program = .powerOnReset :: rest))))

/-- AUTH_OK becomes 1 only when a CTX_VERIFY completes with OK (R33). -/
def Obligations.AuthOkOnlyByVerify : Prop :=
  ∀ s t : State, step s = .next t → s.authOk = false → t.authOk = true →
    s.engineTurn = true ∧ decode s.cmdr = some .ctxVerify ∧ t.errcode = .ok

/-- The context becomes Active only at the completion of an init command, and Inactive only at the completion of CTX_FINAL,
CTX_VERIFY or ZEROIZE or by a reset; a host step that is no reset keeps it (R34, R281, R283). Power-on reset is a host
statement (log entry 8). -/
def Obligations.ContextLifetime : Prop :=
  ∀ s t : State, step s = .next t →
    (s.context = .inactive → t.context ≠ .inactive →
      s.engineTurn = true ∧ ∃ i, decode s.cmdr = some i ∧ isInit i = true) ∧
    (s.context ≠ .inactive → t.context = .inactive →
      (s.engineTurn = true ∧ decode s.cmdr ∈ [some .ctxFinal, some .ctxVerify, some .zeroize]) ∨
      (∃ v rest, s.host.program = .wr (.window 0x0008#16) .w4 v :: rest ∧ v.getLsbD 1 = true) ∨
      (∃ rest, s.host.program = .powerOnReset :: rest)) ∧
    (s.engineTurn = false → t.context = s.context ∨ t.context = .inactive)

/-! ### Every command -/

/-- What a command may change: only what its row of the table of implicit operands marks with W, and STATUS and ERRCODE
(R105). -/
def Obligations.OnlyListedStateWritten : Prop :=
  ∀ (i : Instr) (s t : State), exec i s = .next t →
    (t.src = s.src ∧ t.dst = s.dst ∧ t.len = s.len ∧ t.iter = s.iter ∧ t.cmdr = s.cmdr ∧ t.irqEn = s.irqEn ∧
      t.ovf = s.ovf ∧ t.bufSize = s.bufSize ∧ t.issues = s.issues ∧ t.delay = s.delay ∧ t.host = s.host) ∧
    (t.lmod ≠ s.lmod → i = .zeroize ∨ ∃ ks m, i = .cbcEncLegacy ks m) ∧
    (t.ivr ≠ s.ivr → i = .zeroize ∨ isCbc i = true) ∧
    (∀ ks : KeySlot, t.keys[ks] ≠ s.keys[ks] → i = .zeroize ∨ i = .kdfLegacy ks ∨ i = .kdfPbkdf2 ks) ∧
    (t.context ≠ s.context → writesContext i = true) ∧
    (t.buf ≠ s.buf → i = .zeroize ∨ isCbc i = true) ∧
    (t.result ≠ s.result → i = .zeroize ∨ i = .ctxFinal) ∧
    (t.outlen ≠ s.outlen → i = .zeroize ∨ isCbc i = true ∨ i = .ctxFinal)

/-- Every completion sets ERR to "the code is not OK", DONE to 1, AUTH_OK to "CTX_VERIFY with OK" and the phase to Idle
(R131). -/
def Obligations.CompletionFlags : Prop :=
  ∀ s t : State, s.phase = .busy → s.delay = 0 → step s = .next t →
    (t.err = true ↔ t.errcode ≠ .ok) ∧ t.done = true ∧ t.phase = .idle ∧
    (t.authOk = true ↔ decode s.cmdr = some .ctxVerify ∧ t.errcode = .ok)

/-- A completion with ILLEGAL, CTX_STATE, LENGTH, RANGE or PARAM changes nothing but ERRCODE and STATUS (R132). -/
def Obligations.ValidationErrorsPrecise : Prop :=
  ∀ s t : State, s.phase = .busy → s.delay = 0 → step s = .next t → t.errcode.isValidation = true →
    t = { s with errcode := t.errcode, err := true, done := true, authOk := false, phase := .idle }

/-- A command completes only with a code the table of completion codes gives it, and in either phase ERRCODE reads the
number the table gives the code (R37, R361). -/
def Obligations.CodesPerCommand : Prop :=
  (∀ (i : Instr) (s t : State), exec i s = .next t → t.errcode ∈ completionCodes i) ∧
  ∀ s : State, s.busRead (.window 0x0010#16) .w4 = ⟨false,
    match s.errcode with
    | .ok => 0x00#32
    | .illegal => 0x01#32
    | .ctxState => 0x02#32
    | .length => 0x03#32
    | .range => 0x04#32
    | .param => 0x05#32
    | .auth => 0x06#32
    | .padding => 0x07#32⟩

/-! ### Control commands (40_control.md) -/

/-- NOP completes with OK and changes nothing else (R134). -/
def Obligations.NopCompletes : Prop :=
  ∀ s : State, exec .nop s = .next (s.completed false)

/-- ZEROIZE clears the key slots, IVR, RESULT, the context, every byte of BUF, LMOD and OUTLEN, completes with OK and
changes nothing else (R135). -/
def Obligations.ZeroizeCompletes : Prop :=
  ∀ s : State, ∃ u, exec .zeroize s = .next (State.completed u false) ∧
    u = { s with keys := u.keys, ivr := u.ivr, result := u.result, context := .inactive, buf := u.buf,
                 lmod := 0#4, outlen := 0#32 } ∧
    (∀ ks : KeySlot, u.keyBytes ks = zeros 32) ∧ u.ivrBytes = zeros 16 ∧ u.resultBytes = zeros 64 ∧
    (∀ i, u.buf.read i = 0x00#8) ∧
    (State.completed u false).statusWord &&& 0x00000070#32 = 0#32

/-! ### Key derivation (43_kdf_commands.md) -/

/-- KDF_LEGACY: the slot takes the stretch of the password at (SRC, LEN) and the salt in IVR; nothing else changes
(R225). -/
def Obligations.KdfLegacyCompletes : Prop :=
  ∀ (ks : KeySlot) (s : State), s.len.toNat ≤ 2048 → s.src.toNat + s.len.toNat ≤ s.bufBytes →
    ∃ u, exec (.kdfLegacy ks) s = .next (State.completed u false) ∧ u = { s with keys := u.keys } ∧
      u.keyBytes ks = legacyStretch (s.memRead s.src.toNat s.len.toNat) s.ivrBytes ∧
      ∀ q : KeySlot, q ≠ ks → u.keyBytes q = s.keyBytes q

/-- KDF_PBKDF2: the slot takes PBKDF2 of the password, the salt in IVR and the count in ITER; nothing else changes
(R230). -/
def Obligations.KdfPbkdf2Completes : Prop :=
  ∀ (ks : KeySlot) (s : State), s.len.toNat ≤ 2048 → s.src.toNat + s.len.toNat ≤ s.bufBytes → s.iter ≠ 0#32 →
    ∃ u, exec (.kdfPbkdf2 ks) s = .next (State.completed u false) ∧ u = { s with keys := u.keys } ∧
      u.keyBytes ks = pbkdf2Sha512 (s.memRead s.src.toNat s.len.toNat) s.ivrBytes s.iter.toNat ∧
      ∀ q : KeySlot, q ≠ ks → u.keyBytes q = s.keyBytes q

/-- The checks of both KDF commands, in their order: LENGTH, RANGE, and PARAM for KDF_PBKDF2 with ITER = 0, which the
host reports as InvalidParameter (R223, R232). -/
def Obligations.KdfErrors : Prop :=
  ∀ (ks : KeySlot) (s : State),
    (2048 < s.len.toNat →
      exec (.kdfLegacy ks) s = .next (s.failed .length) ∧ exec (.kdfPbkdf2 ks) s = .next (s.failed .length)) ∧
    (s.len.toNat ≤ 2048 → s.bufBytes < s.src.toNat + s.len.toNat →
      exec (.kdfLegacy ks) s = .next (s.failed .range) ∧ exec (.kdfPbkdf2 ks) s = .next (s.failed .range)) ∧
    (s.len.toNat ≤ 2048 → s.src.toNat + s.len.toNat ≤ s.bufBytes → s.iter = 0#32 →
      exec (.kdfPbkdf2 ks) s = .next (s.failed .param) ∧
      errorKindOf (s.failed .param).errcodeWord = .invalidParameter)

/-! ### CBC commands (44_cbc_commands.md) -/

/-- The checks of every CBC command, in their order, and the code of the first that fails; a command that passes them
completes with OK or PADDING (R244). -/
def Obligations.CbcChecksInOrder : Prop :=
  ∀ (i : Instr) (s : State) (m lengthTaken : Bool) (out : Nat),
    cbcShape s.len.toNat i = some (m, lengthTaken, out) →
    ∃ t, exec i s = .next t ∧
      if m = true ∧ s.context = .inactive then t = s.failed .ctxState
      else if lengthTaken = false then t = s.failed .length
      else if m = true ∧ 2 ^ 60 < s.context.msgLength + out then t = s.failed .length
      else if s.rangesInvalid out then t = s.failed .range
      else if s.rangesOverlap out then t = s.failed .range
      else t.errcode = .ok ∨ t.errcode = .padding

/-- CBC_ENC on admitted operands (R248). -/
def Obligations.CbcEncCompletes : Prop :=
  ∀ (ks : KeySlot) (m : Bool) (s : State), s.buf.wf = true → s.len.toNat % 16 = 0 →
    s.CbcAdmitted m s.len.toNat →
    let r := cbcEnc (s.keyBytes ks) s.ivrBytes (s.memRead s.src.toNat s.len.toNat)
    ∃ u, exec (.cbcEnc ks m) s = .next (State.completed u false) ∧ r.1.length = s.len.toNat ∧
      CbcLeaves s u m r.1 r.2 r.1 s.len.toNat s.lmod

/-- CBC_DEC on admitted operands; the context takes the input as it was read (R251). -/
def Obligations.CbcDecCompletes : Prop :=
  ∀ (ks : KeySlot) (m : Bool) (s : State), s.buf.wf = true → s.len.toNat % 16 = 0 →
    s.CbcAdmitted m s.len.toNat →
    let x := s.memRead s.src.toNat s.len.toNat
    let r := cbcDec (s.keyBytes ks) s.ivrBytes x
    ∃ u, exec (.cbcDec ks m) s = .next (State.completed u false) ∧ r.1.length = s.len.toNat ∧
      CbcLeaves s u m r.1 r.2 x s.len.toNat s.lmod

/-- CBC_ENC_PKCS7 on admitted operands: q = 16 - (LEN mod 16) pad bytes of value q (R254). -/
def Obligations.CbcEncPkcs7Completes : Prop :=
  ∀ (ks : KeySlot) (m : Bool) (s : State), s.buf.wf = true →
    let q := 16 - s.len.toNat % 16
    s.CbcAdmitted m (s.len.toNat + q) →
    let r := cbcEnc (s.keyBytes ks) s.ivrBytes (s.memRead s.src.toNat s.len.toNat ++ byteRep q q)
    ∃ u, exec (.cbcEncPkcs7 ks m) s = .next (State.completed u false) ∧ r.1.length = s.len.toNat + q ∧
      CbcLeaves s u m r.1 r.2 r.1 (s.len.toNat + q) s.lmod

/-- CBC_DEC_PKCS7 on admitted operands: with a plaintext that ends in q bytes of value q, 1 ≤ q ≤ 16, it completes with OK
and OUTLEN = LEN - q; otherwise with PADDING and OUTLEN = 0, the other writes made (R257, R258). -/
def Obligations.CbcDecPkcs7Completes : Prop :=
  ∀ (ks : KeySlot) (m : Bool) (s : State), s.buf.wf = true → s.len.toNat % 16 = 0 → 0 < s.len.toNat →
    s.CbcAdmitted m s.len.toNat →
    let x := s.memRead s.src.toNat s.len.toNat
    let r := cbcDec (s.keyBytes ks) s.ivrBytes x
    (∀ (p : Bytes) (q : Nat), 1 ≤ q → q ≤ 16 → r.1 = p ++ byteRep q q →
      ∃ u, exec (.cbcDecPkcs7 ks m) s = .next (State.completed u false) ∧ p.length = s.len.toNat - q ∧
        CbcLeaves s u m r.1 r.2 x (s.len.toNat - q) s.lmod) ∧
    ((¬ ∃ (p : Bytes) (q : Nat), 1 ≤ q ∧ q ≤ 16 ∧ r.1 = p ++ byteRep q q) →
      ∃ u, exec (.cbcDecPkcs7 ks m) s = .next (State.failed u .padding) ∧
        CbcLeaves s u m r.1 r.2 x 0 s.lmod)

/-- CBC_ENC_LEGACY on admitted operands: q = (16 - LEN mod 16) mod 16 pad bytes of value q, and LMOD = LEN mod 16
(R261, R262). -/
def Obligations.CbcEncLegacyCompletes : Prop :=
  ∀ (ks : KeySlot) (m : Bool) (s : State), s.buf.wf = true →
    let q := (16 - s.len.toNat % 16) % 16
    s.CbcAdmitted m (s.len.toNat + q) →
    let r := cbcEnc (s.keyBytes ks) s.ivrBytes (s.memRead s.src.toNat s.len.toNat ++ byteRep q q)
    ∃ u, exec (.cbcEncLegacy ks m) s = .next (State.completed u false) ∧ r.1.length = s.len.toNat + q ∧
      CbcLeaves s u m r.1 r.2 r.1 (s.len.toNat + q) (BitVec.ofNat 4 (s.len.toNat % 16))

/-- CBC_DEC_LEGACY on admitted operands: OUTLEN = LEN - t, with t = (16 - LMOD) mod 16 for LEN > 0 and 0 else; no padding
is checked and LMOD stays (R265, R267). -/
def Obligations.CbcDecLegacyCompletes : Prop :=
  ∀ (ks : KeySlot) (m : Bool) (s : State), s.buf.wf = true → s.len.toNat % 16 = 0 →
    s.CbcAdmitted m s.len.toNat →
    let x := s.memRead s.src.toNat s.len.toNat
    let r := cbcDec (s.keyBytes ks) s.ivrBytes x
    let trim := if 0 < s.len.toNat then (16 - s.lmod.toNat) % 16 else 0
    ∃ u, exec (.cbcDecLegacy ks m) s = .next (State.completed u false) ∧ r.1.length = s.len.toNat ∧
      CbcLeaves s u m r.1 r.2 x (s.len.toNat - trim) s.lmod

/-- Round trips: what an encryption command wrote, decrypted by the command of the same padding from the same starting
IVR, with the LMOD it left, at any allowed destination, gives back the input and its length (R270). -/
def Obligations.CbcRoundTrips : Prop :=
  ∀ (s : State) (ks : KeySlot) (m : Bool) (i : Instr) (lengthTaken : Bool) (out : Nat),
    i = .cbcEnc ks m ∨ i = .cbcEncPkcs7 ks m ∨ i = .cbcEncLegacy ks m →
    s.buf.wf = true → cbcShape s.len.toNat i = some (m, lengthTaken, out) → lengthTaken = true →
    s.CbcAdmitted m out →
    ∃ t, exec i s = .next t ∧ t.errcode = .ok ∧ t.outlen.toNat = out ∧
      ∀ (d : Word) (m2 : Bool) (j : Instr),
        (i = .cbcEnc ks m ∧ j = .cbcDec ks m2) ∨ (i = .cbcEncPkcs7 ks m ∧ j = .cbcDecPkcs7 ks m2) ∨
          (i = .cbcEncLegacy ks m ∧ j = .cbcDecLegacy ks m2) →
        let back : State := { t with ivr := s.ivr, src := s.dst, dst := d, len := t.outlen }
        back.CbcAdmitted m2 out →
        ∃ u, exec j back = .next u ∧ u.errcode = .ok ∧ u.outlen = s.len ∧
          u.memRead d.toNat s.len.toNat = s.memRead s.src.toNat s.len.toNat

/-- Chunking invariance on encryption: CBC_ENC over the first n bytes, n a multiple of 16, and any encryption command over the
rest leave what that command leaves over the whole: BUF, IVR, context, LMOD, flags (R271). The operand registers,
which the host sets, and OUTLEN, which counts one command's bytes, are set equal. -/
def Obligations.EncryptionChunks : Prop :=
  ∀ (s : State) (ks : KeySlot) (m : Bool) (n : Word) (i : Instr) (lengthTaken : Bool) (out : Nat),
    i = .cbcEnc ks m ∨ i = .cbcEncPkcs7 ks m ∨ i = .cbcEncLegacy ks m →
    s.buf.wf = true → n.toNat % 16 = 0 → n.toNat ≤ s.len.toNat →
    cbcShape s.len.toNat i = some (m, lengthTaken, out) → lengthTaken = true → s.CbcAdmitted m out →
    ∃ t a b, exec i s = .next t ∧ exec (.cbcEnc ks m) { s with len := n } = .next a ∧
      exec i { a with src := s.src + n, dst := s.dst + n, len := s.len - n } = .next b ∧
      { b with src := s.src, dst := s.dst, len := s.len, outlen := t.outlen } = t

/-- Chunking invariance on decryption, the last chunk of a PKCS#7 stream not empty (R271). -/
def Obligations.DecryptionChunks : Prop :=
  ∀ (s : State) (ks : KeySlot) (m : Bool) (n : Word) (i : Instr),
    i = .cbcDec ks m ∨ (i = .cbcDecPkcs7 ks m ∧ n.toNat < s.len.toNat) ∨ i = .cbcDecLegacy ks m →
    s.buf.wf = true → n.toNat % 16 = 0 → n.toNat ≤ s.len.toNat → s.len.toNat % 16 = 0 →
    s.CbcAdmitted m s.len.toNat →
    ∃ t a b, exec i s = .next t ∧ exec (.cbcDec ks m) { s with len := n } = .next a ∧
      exec i { a with src := s.src + n, dst := s.dst + n, len := s.len - n } = .next b ∧
      { b with src := s.src, dst := s.dst, len := s.len, outlen := t.outlen } = t

/-! ### Context commands (45_context_commands.md) -/

/-- The init commands start a context, whatever the old one was, and change nothing else: MAC_INIT_KS and HASH_INIT
always, MAC_INIT_BUF with a valid range (R281, R284, R286, R288). -/
def Obligations.InitCompletes : Prop :=
  ∀ (s : State) (ks : KeySlot) (h : HashAlg),
    exec (.macInitKs ks h) s =
      .next (State.completed { s with context := .active .hmac h (s.keyBytes ks) [] } false) ∧
    exec (.hashInit h) s = .next (State.completed { s with context := .active .hash h [] [] } false) ∧
    (s.src.toNat + s.len.toNat ≤ s.bufBytes → exec (.macInitBuf h) s =
      .next (State.completed
        { s with context := .active .hmac h (s.memRead s.src.toNat s.len.toNat) [] } false))

/-- CTX_UPDATE appends the input to the message of an Active context with room for it (R290). -/
def Obligations.CtxUpdateCompletes : Prop :=
  ∀ (s : State) (kind : ContextKind) (h : HashAlg) (key msg : Bytes), s.context = .active kind h key msg →
    msg.length + s.len.toNat ≤ 2 ^ 60 → s.src.toNat + s.len.toNat ≤ s.bufBytes →
    exec .ctxUpdate s =
      .next (State.completed
        { s with context := .active kind h key (msg ++ s.memRead s.src.toNat s.len.toNat) } false)

/-- CTX_FINAL puts the digest of an Active context into RESULT, zero-filled to 64 bytes, its length into OUTLEN, and
ends the context (R280, R293). -/
def Obligations.CtxFinalCompletes : Prop :=
  ∀ (s : State) (kind : ContextKind) (h : HashAlg) (key msg : Bytes), s.context = .active kind h key msg →
    let d := match kind with
      | .hmac => hmac h key msg
      | .hash => hashBytes h msg
    ∃ u, exec .ctxFinal s = .next (State.completed u false) ∧
      u = { s with result := u.result, outlen := u.outlen, context := .inactive } ∧
      d.length = hashOutBytes h ∧ u.resultBytes = d ++ zeros (64 - hashOutBytes h) ∧
      u.outlen.toNat = hashOutBytes h

/-- CTX_VERIFY against the digest completes with OK and AUTH_OK, and ends the context; LEN is not read (R296). -/
def Obligations.CtxVerifyCompletes : Prop :=
  ∀ (s : State) (kind : ContextKind) (h : HashAlg) (key msg : Bytes) (n : Word),
    s.context = .active kind h key msg →
    s.src.toNat + hashOutBytes h ≤ s.bufBytes →
    s.memRead s.src.toNat (hashOutBytes h) = contextDigest kind h key msg →
    exec .ctxVerify { s with len := n } =
      .next (State.completed { s with len := n, context := .inactive } true)

/-- AUTH: a stored tag that differs from the digest in any bit makes CTX_VERIFY complete with AUTH, and the one effect that
remains is the end of the context; the host maps AUTH to AuthenticationFailed (R298, R299). -/
def Obligations.CtxVerifyDetectsTampering : Prop :=
  ∀ (s : State) (kind : ContextKind) (h : HashAlg) (key msg : Bytes) (i bit : Nat),
    s.context = .active kind h key msg → s.src.toNat + hashOutBytes h ≤ s.bufBytes → i < hashOutBytes h →
    (s.buf.read (s.src.toNat + i)).getLsbD bit ≠ ((contextDigest kind h key msg).getD i 0#8).getLsbD bit →
    exec .ctxVerify s = .next (State.failed { s with context := .inactive } .auth) ∧
    errorKindOf (State.failed { s with context := .inactive } .auth).errcodeWord = .authenticationFailed

/-- The checks of the context commands, in their order (R286, R290, R293, R296). -/
def Obligations.ContextErrors : Prop :=
  ∀ (s : State) (h : HashAlg),
    (s.bufBytes < s.src.toNat + s.len.toNat → exec (.macInitBuf h) s = .next (s.failed .range)) ∧
    (s.context = .inactive →
      exec .ctxUpdate s = .next (s.failed .ctxState) ∧ exec .ctxFinal s = .next (s.failed .ctxState) ∧
      exec .ctxVerify s = .next (s.failed .ctxState)) ∧
    (s.context ≠ .inactive → 2 ^ 60 < s.context.msgLength + s.len.toNat →
      exec .ctxUpdate s = .next (s.failed .length)) ∧
    (s.context ≠ .inactive → s.context.msgLength + s.len.toNat ≤ 2 ^ 60 →
      s.bufBytes < s.src.toNat + s.len.toNat → exec .ctxUpdate s = .next (s.failed .range)) ∧
    (∀ kind g key msg, s.context = .active kind g key msg → s.bufBytes < s.src.toNat + hashOutBytes g →
      exec .ctxVerify s = .next (s.failed .range))

/-- Update splitting is invisible: updates over any cut of a range of BUF leave the context one update over the whole
leaves (R291). -/
def Obligations.UpdateSplitting : Prop :=
  ∀ (ns : List Nat) (s : State), s.context ≠ .inactive → s.len.toNat = ns.sum →
    s.src.toNat + ns.sum ≤ s.bufBytes → s.context.msgLength + ns.sum ≤ 2 ^ 60 →
    ∃ t u, exec .ctxUpdate s = .next t ∧ updatePieces ns s = .next u ∧ u.context = t.context

/-! ### Algorithms (41_aes_core.md, 42_hash_cores.md) -/

/-- AES_Dec and AES_Enc undo each other, so AES_Enc is a permutation of the blocks, for every key (R153). -/
def Obligations.AesInverse : Prop :=
  ∀ k : Bytes,
    (∀ b : Bytes, b.length = 16 →
      (aesEnc k b).length = 16 ∧ (aesDec k b).length = 16 ∧
      aesDec k (aesEnc k b) = b ∧ aesEnc k (aesDec k b) = b) ∧
    (∀ b c : Bytes, b.length = 16 → c.length = 16 → aesEnc k b = aesEnc k c → b = c) ∧
    (∀ c : Bytes, c.length = 16 → ∃ b : Bytes, b.length = 16 ∧ aesEnc k b = c)

/-- CBC chaining is invariant under splitting at block boundaries, in both directions (R157). -/
def Obligations.CbcSplit : Prop :=
  ∀ k iv p q : Bytes, p.length % 16 = 0 → q.length % 16 = 0 →
    cbcEnc k iv (p ++ q) =
      ((cbcEnc k iv p).1 ++ (cbcEnc k (cbcEnc k iv p).2 q).1, (cbcEnc k (cbcEnc k iv p).2 q).2) ∧
    cbcDec k iv (p ++ q) =
      ((cbcDec k iv p).1 ++ (cbcDec k (cbcDec k iv p).2 q).1, (cbcDec k (cbcDec k iv p).2 q).2)

/-- CBC_Dec inverts CBC_Enc and ends with the same chaining value (R158). -/
def Obligations.CbcDecInvertsCbcEnc : Prop :=
  ∀ k iv p : Bytes, iv.length = 16 → p.length % 16 = 0 →
    cbcDec k iv (cbcEnc k iv p).1 = (p, (cbcEnc k iv p).2)

/-- SHA-256 padding: the message, 0x80, the least number of zeros that makes whole blocks, and the big-endian bit
length (R172). -/
def Obligations.Sha256Padding : Prop :=
  ∀ m : Bytes, m.length < 2 ^ 61 →
    ∃ z : Nat, shaPad 64 8 m = m ++ [0x80#8] ++ zeros z ++ beBytes 8 (8 * m.length) ∧
      (shaPad 64 8 m).length % 64 = 0 ∧ (∀ y < z, (m.length + 1 + y + 8) % 64 ≠ 0) ∧
      beNat (beBytes 8 (8 * m.length)) = 8 * m.length

/-! ### The invariant -/

/-- Every step keeps the invariant of the engine, from every state that has it. Its clause on the delay is about the
model's own field (log entry 3). -/
def Obligations.StepKeepsInvariant : Prop :=
  ∀ s t : State, EngineInv s → step s = .next t → EngineInv t

/-- The state right after reset has the invariant. Its clause on the delay rests on the reset value 0 of the model's own
field (log entry 3). -/
def Obligations.ResetHasInvariant : Prop := EngineInv State.reset

end Slice0
end

