-- ==== Sys2Proof/Laws/Bytes.lean ====
section
/-! SUPPORT. The laws of byte strings: lengths, and the correspondence of word registers and byte strings (R72). -/

namespace Sys2Proof.Machine

@[simp] theorem zeros_length (n : Nat) : (zeros n).length = n := by simp [zeros]

@[simp] theorem byteRep_length (v n : Nat) : (byteRep v n).length = n := by simp [byteRep]

@[simp] theorem xorBytes_length (s t : Bytes) : (xorBytes s t).length = min s.length t.length := by
  simp [xorBytes]

@[simp] theorem wordBytes_length (w : Word) : (wordBytes w).length = 4 := rfl

@[simp] theorem beBytes_length (n x : Nat) : (beBytes n x).length = n := by
  induction n generalizing x with
  | zero => rfl
  | succ n ih => simp [beBytes, ih]

/-- `xor` with the same byte string twice is the identity on strings no longer than it. -/
theorem xorBytes_cancel {s t : Bytes} (h : s.length ≤ t.length) : xorBytes (xorBytes s t) t = s := by
  induction s generalizing t with
  | nil => simp [xorBytes]
  | cons a s ih =>
    cases t with
    | nil => simp at h
    | cons b t =>
      have := ih (t := t) (by simpa using h)
      simp only [xorBytes, List.zipWith_cons_cons, List.cons.injEq] at this ⊢
      exact ⟨by rw [BitVec.xor_assoc, BitVec.xor_self, BitVec.xor_zero], this⟩

/-- A word is the little-endian number of its bytes. -/
@[simp] theorem leWord_wordBytes (w : Word) :
    leWord (w.extractLsb' 0 8) (w.extractLsb' 8 8) (w.extractLsb' 16 8) (w.extractLsb' 24 8) = w := by
  apply BitVec.eq_of_getLsbD_eq
  intro i hi
  simp only [leWord, BitVec.getLsbD_append, BitVec.getLsbD_extractLsb']
  by_cases h1 : i < 8
  · simp [h1]
  · by_cases h2 : i - 8 < 8
    · simp [h1, h2]; congr 1; omega
    · by_cases h3 : i - 8 - 8 < 8
      · simp [h1, h2, h3]; congr 1; omega
      · simp [h1, h2, h3, show i - 8 - 8 - 8 < 8 by omega]; congr 1; omega

/-- The bytes of a little-endian number are those it was made of. -/
@[simp] theorem wordBytes_leWord (b0 b1 b2 b3 : Byte) : wordBytes (leWord b0 b1 b2 b3) = [b0, b1, b2, b3] := by
  simp only [wordBytes, leWord, List.cons.injEq, and_true]
  refine ⟨?_, ?_, ?_, ?_⟩ <;>
  · apply BitVec.eq_of_getLsbD_eq
    intro i hi
    simp only [BitVec.getLsbD_extractLsb', BitVec.getLsbD_append]
    simp [hi, show ¬ 8 + i < 8 by omega, show ¬ 16 + i < 8 by omega, show ¬ 24 + i < 8 by omega,
      show ¬ 16 + i - 8 < 8 by omega, show ¬ 24 + i - 8 < 8 by omega, show ¬ 24 + i - 8 - 8 < 8 by omega,
      show 16 + i - 8 - 8 = i by omega, show 24 + i - 8 - 8 - 8 = i by omega]

@[simp] theorem leWordOf_wordBytes_append (w : Word) (s : Bytes) : leWordOf (wordBytes w ++ s) = w :=
  leWord_wordBytes w

@[simp] theorem leWordOf_wordBytes (w : Word) : leWordOf (wordBytes w) = w := leWord_wordBytes w

/-- The first 4 bytes of a byte string are the bytes of its first word. -/
theorem wordBytes_leWordOf {s : Bytes} (h : 4 ≤ s.length) : wordBytes (leWordOf s) = s.take 4 := by
  match s, h with
  | a :: b :: c :: d :: s, _ => simp [leWordOf]

@[simp] theorem bytesOfWords_length {n : Nat} (ws : Vector Word n) : (bytesOfWords ws).length = 4 * n := by
  have : ∀ l : List Word, (l.flatMap wordBytes).length = 4 * l.length := by
    intro l
    induction l with
    | nil => rfl
    | cons a l ih => simp [ih]; omega
  simp [bytesOfWords, this]

theorem flatMap_wordBytes_drop (l : List Word) (j : Nat) :
    (l.flatMap wordBytes).drop (4 * j) = (l.drop j).flatMap wordBytes := by
  induction j generalizing l with
  | zero => rfl
  | succ j ih =>
    cases l with
    | nil => simp
    | cons a l =>
      rw [show 4 * (j + 1) = 4 + 4 * j by omega, ← List.drop_drop]
      rw [List.flatMap_cons, List.drop_left' (wordBytes_length a), ih l]
      rfl

/-- Word registers hold what was put into them, read back as bytes and stored again. -/
@[simp] theorem wordsOfBytes_bytesOfWords {n : Nat} (ws : Vector Word n) :
    wordsOfBytes n (bytesOfWords ws) = ws := by
  apply Vector.ext
  intro i hi
  simp only [wordsOfBytes, Vector.getElem_ofFn, bytesOfWords, flatMap_wordBytes_drop]
  rw [List.drop_eq_getElem_cons (by simpa using hi), List.flatMap_cons, leWordOf_wordBytes_append]
  simp

theorem flatMap_words_eq (n : Nat) (s : Bytes) (h : s.length = 4 * n) :
    (List.ofFn fun j : Fin n => leWordOf (s.drop (4 * j.val))).flatMap wordBytes = s := by
  induction n generalizing s with
  | zero => simpa using (List.length_eq_zero_iff.1 h).symm
  | succ n ih =>
    rw [List.ofFn_succ, List.flatMap_cons]
    have h' := ih (s.drop 4) (by simp; omega)
    have : (fun j : Fin n => leWordOf (s.drop (4 * (Fin.succ j).val))) =
        fun j : Fin n => leWordOf ((s.drop 4).drop (4 * j.val)) := by
      funext j
      rw [List.drop_drop]
      congr 2
      simp; omega
    rw [this, h']
    simp only [Fin.val_zero, Nat.mul_zero, List.drop_zero]
    rw [wordBytes_leWordOf (by omega), List.take_append_drop]

/-- A byte string of the register's length, stored into words, reads back as itself (R72). -/
theorem bytesOfWords_wordsOfBytes (n : Nat) (s : Bytes) (h : s.length = 4 * n) :
    bytesOfWords (wordsOfBytes n s) = s := by
  have : (wordsOfBytes n s).toList = List.ofFn fun j : Fin n => leWordOf (s.drop (4 * j.val)) := by
    apply List.ext_getElem <;> simp [wordsOfBytes]
  rw [bytesOfWords, this, flatMap_words_eq n s h]

/-! ### Blocks -/

@[simp] theorem blocks_length (n k : Nat) (s : Bytes) : (blocks n k s).length = k := by
  induction k generalizing s with
  | zero => rfl
  | succ k ih => simp [blocks, ih]

theorem blocks_append (n j k : Nat) (s t : Bytes) (h : s.length = n * j) :
    blocks n (j + k) (s ++ t) = blocks n j s ++ blocks n k t := by
  induction j generalizing s with
  | zero =>
    have : s = [] := List.length_eq_zero_iff.1 (by simpa using h)
    subst this; simp [blocks]
  | succ j ih =>
    have hn : n ≤ s.length := by rw [h, Nat.mul_succ]; omega
    rw [show j + 1 + k = (j + k) + 1 by omega]
    simp only [blocks, List.cons_append]
    rw [List.take_append_of_le_length hn, List.drop_append_of_le_length hn,
      ih (s.drop n) (by rw [List.length_drop, h, Nat.mul_succ]; omega)]

/-- Every block has its full size when the string is long enough. -/
theorem blocks_full {n k : Nat} {s : Bytes} (h : n * k ≤ s.length) : ∀ b ∈ blocks n k s, b.length = n := by
  induction k generalizing s with
  | zero => simp [blocks]
  | succ k ih =>
    rw [Nat.mul_succ] at h
    intro b hb
    rcases List.mem_cons.1 hb with rfl | hb
    · simp; omega
    · exact ih (s := s.drop n) (by simp; omega) b hb

/-- The blocks of a string of whole blocks are the string. -/
theorem blocks_flatten {n k : Nat} {s : Bytes} (h : s.length = n * k) : (blocks n k s).flatten = s := by
  induction k generalizing s with
  | zero => simpa [blocks] using (List.length_eq_zero_iff.1 (by simpa using h)).symm
  | succ k ih =>
    rw [Nat.mul_succ] at h
    simp only [blocks, List.flatten_cons]
    rw [ih (s := s.drop n) (by simp; omega), List.take_append_drop]

/-- A big-endian encoding with room for the number gives it back (R90). -/
theorem beNat_beBytes (n x : Nat) (h : x < 256 ^ n) : beNat (beBytes n x) = x := by
  induction n generalizing x with
  | zero => simp at h; subst h; rfl
  | succ n ih =>
    have e : beNat (beBytes n (x / 256)) = x / 256 :=
      ih _ (by rw [Nat.div_lt_iff_lt_mul (by decide)]; rw [pow_succ] at h; exact h)
    unfold beNat at *
    simp only [beBytes, List.foldl_append, e, List.foldl_cons, List.foldl_nil]
    simp; omega

/-- Word j of a register bank holds bytes 4j to 4j+3 of its byte string (R72). -/
theorem slice_bytesOfWords {n : Nat} (ws : Vector Word n) (j : Fin n) :
    slice (4 * j.val) 4 (bytesOfWords ws) = wordBytes ws[j] := by
  have hj : j.val < ws.toList.length := by simp
  rw [slice, bytesOfWords, flatMap_wordBytes_drop, List.drop_eq_getElem_cons hj, List.flatMap_cons,
    List.take_left' (wordBytes_length _)]
  simp

end Sys2Proof.Machine
end

