-- ==== Sys2Proof/Laws/Crypto.lean ====
section
/-! SUPPORT. The laws of the cryptographic functions: output lengths of the digests, of HMAC, of the key
derivations and of CBC, and that every round function of AES is undone by its inverse. -/

namespace Sys2Proof.Machine

/-! ### Digests -/

@[simp] theorem HashValue.toBytes_length {w : Nat} (n : Nat) (H : HashValue w) :
    (H.toBytes n).length = 8 * n := by
  simp [HashValue.toBytes]; omega

@[simp] theorem sha256_length (m : Bytes) : (sha256 m).length = 32 := by simp [sha256, shaDigest]

@[simp] theorem sha512_length (m : Bytes) : (sha512 m).length = 64 := by simp [sha512, shaDigest]

@[simp] theorem hashBytes_length (h : HashAlg) (m : Bytes) : (hashBytes h m).length = hashOutBytes h := by
  cases h <;> simp [hashBytes, hashOutBytes]

@[simp] theorem hmac_length (h : HashAlg) (k m : Bytes) : (hmac h k m).length = hashOutBytes h := by
  simp [hmac]

@[simp] theorem contextDigest_length (kind : ContextKind) (h : HashAlg) (k m : Bytes) :
    (contextDigest kind h k m).length = hashOutBytes h := by
  cases kind <;> simp [contextDigest]

theorem hashOutBytes_le (h : HashAlg) : hashOutBytes h ≤ 64 := by cases h <;> decide

/-! ### Key derivation -/

theorem pbkdf2Iterate_length (p : Bytes) (n : Nat) (u t : Bytes) (ht : t.length = 64) :
    (pbkdf2Iterate p n u t).length = 64 := by
  induction n generalizing u t with
  | zero => exact ht
  | succ n ih => exact ih _ _ (by simp [ht, hashOutBytes])

@[simp] theorem pbkdf2Sha512_length (p s : Bytes) (c : Nat) : (pbkdf2Sha512 p s c).length = 32 := by
  simp [pbkdf2Sha512, pbkdf2Iterate_length, hashOutBytes]

theorem stretchRounds_length (p : Bytes) (n : Nat) (acc : Bytes) (h : acc.length = 32) :
    (stretchRounds p n acc).length = 32 := by
  induction n generalizing acc with
  | zero => exact h
  | succ n ih => exact ih _ (sha256_length _)

/-- The stretch of a 16-byte salt is a key (R193). -/
theorem legacyStretch_length (p s : Bytes) (h : s.length = 16) : (legacyStretch p s).length = 32 :=
  stretchRounds_length _ _ _ (by simp [h])

/-! ### The round functions of AES and their inverses -/

theorem invSbox_sbox (a : Byte) : invSbox (sbox a) = a := by revert a; decide +kernel

theorem sbox_invSbox (a : Byte) : sbox (invSbox a) = a := by revert a; decide +kernel

@[simp] theorem invSubBytes_subBytes (s : AesState) : invSubBytes (subBytes s) = s := by
  simp [invSubBytes, subBytes, AesState.mapColumns, Quad.map, invSbox_sbox]

@[simp] theorem subBytes_invSubBytes (s : AesState) : subBytes (invSubBytes s) = s := by
  simp [invSubBytes, subBytes, AesState.mapColumns, Quad.map, sbox_invSbox]

@[simp] theorem invShiftRows_shiftRows (s : AesState) : invShiftRows (shiftRows s) = s := rfl

@[simp] theorem shiftRows_invShiftRows (s : AesState) : shiftRows (invShiftRows s) = s := rfl

/-- AddRoundKey with one key twice is the identity. -/
@[simp] theorem addRoundKey_addRoundKey (k : RoundKey) (s : AesState) : addRoundKey k (addRoundKey k s) = s := by
  simp [addRoundKey, Quad.xor]

/-- Exclusive or with one byte twice is the identity. -/
theorem xor_cancel_left (a b : Byte) : a ^^^ (a ^^^ b) = b := by
  rw [← BitVec.xor_assoc, BitVec.xor_self, BitVec.zero_xor]

theorem xor_left_comm (a b c : Byte) : a ^^^ (b ^^^ c) = b ^^^ (a ^^^ c) := by
  rw [← BitVec.xor_assoc, BitVec.xor_comm a b, BitVec.xor_assoc]

theorem xtime_xor (a b : Byte) : xtime (a ^^^ b) = xtime a ^^^ xtime b := by
  simp only [xtime, BitVec.shiftLeft_xor_distrib, BitVec.getLsbD_xor]
  cases a.getLsbD 7 <;> cases b.getLsbD 7 <;>
    simp [BitVec.xor_assoc, BitVec.xor_comm, xor_left_comm]

theorem gfMulBits_xor (k : Byte) (n : Nat) (p q : Byte) (i : Nat) :
    gfMulBits k n (p ^^^ q) i = gfMulBits k n p i ^^^ gfMulBits k n q i := by
  induction n generalizing p q i with
  | zero => simp [gfMulBits]
  | succ n ih =>
    simp only [gfMulBits, xtime_xor, ih]
    cases k.getLsbD i <;> simp [BitVec.xor_assoc, xor_left_comm]

/-- The product of GF(2^8) distributes over exclusive or (R142). -/
theorem gfMul_xor (a b k : Byte) : gfMul (a ^^^ b) k = gfMul a k ^^^ gfMul b k := gfMulBits_xor ..

theorem circulant_xor (k0 k1 k2 k3 : Byte) (p q : Quad) :
    circulant k0 k1 k2 k3 (p.xor q) = (circulant k0 k1 k2 k3 p).xor (circulant k0 k1 k2 k3 q) := by
  simp only [circulant, Quad.xor, gfMul_xor, Quad.mk.injEq]
  refine ⟨?_, ?_, ?_, ?_⟩ <;> simp [BitVec.xor_assoc, BitVec.xor_comm, xor_left_comm]

/-- A column is the exclusive or of its bytes in place. -/
theorem Quad.xor_bytes (q : Quad) :
    q = ((Quad.mk q.b0 0#8 0#8 0#8).xor ⟨0#8, q.b1, 0#8, 0#8⟩).xor
      ((Quad.mk 0#8 0#8 q.b2 0#8).xor ⟨0#8, 0#8, 0#8, q.b3⟩) := by
  simp [Quad.xor]

/-- An additive function on columns that keeps every byte in every place is the identity. -/
theorem additive_eq_id {f : Quad → Quad} (hf : ∀ p q, f (p.xor q) = (f p).xor (f q))
    (h : ∀ a : Byte, f ⟨a, 0#8, 0#8, 0#8⟩ = ⟨a, 0#8, 0#8, 0#8⟩ ∧ f ⟨0#8, a, 0#8, 0#8⟩ = ⟨0#8, a, 0#8, 0#8⟩ ∧
      f ⟨0#8, 0#8, a, 0#8⟩ = ⟨0#8, 0#8, a, 0#8⟩ ∧ f ⟨0#8, 0#8, 0#8, a⟩ = ⟨0#8, 0#8, 0#8, a⟩) (q : Quad) : f q = q := by
  rw [q.xor_bytes, hf, hf, hf, (h q.b0).1, (h q.b1).2.1, (h q.b2).2.2.1, (h q.b3).2.2.2]

/-- A product with a constant of the two matrices, as the exclusive or of R142. -/
theorem gfMul_constants (a : Byte) :
    gfMul a 0x01#8 = a ∧ gfMul a 0x02#8 = xtime a ∧ gfMul a 0x03#8 = a ^^^ xtime a ∧
    gfMul a 0x09#8 = a ^^^ xtime (xtime (xtime a)) ∧
    gfMul a 0x0B#8 = a ^^^ (xtime a ^^^ xtime (xtime (xtime a))) ∧
    gfMul a 0x0D#8 = a ^^^ (xtime (xtime a) ^^^ xtime (xtime (xtime a))) ∧
    gfMul a 0x0E#8 = xtime a ^^^ (xtime (xtime a) ^^^ xtime (xtime (xtime a))) := by
  simp [gfMul, gfMulBits]

theorem xtime_zero : xtime 0#8 = 0#8 := rfl

/-- Both products of the two matrices keep a byte in its place. -/
theorem circulant_byte (a : Byte) :
    let mix := circulant 0x02#8 0x03#8 0x01#8 0x01#8
    let inv := circulant 0x0E#8 0x0B#8 0x0D#8 0x09#8
    ((inv (mix ⟨a, 0#8, 0#8, 0#8⟩) = ⟨a, 0#8, 0#8, 0#8⟩ ∧ inv (mix ⟨0#8, a, 0#8, 0#8⟩) = ⟨0#8, a, 0#8, 0#8⟩ ∧
      inv (mix ⟨0#8, 0#8, a, 0#8⟩) = ⟨0#8, 0#8, a, 0#8⟩ ∧ inv (mix ⟨0#8, 0#8, 0#8, a⟩) = ⟨0#8, 0#8, 0#8, a⟩)) ∧
    ((mix (inv ⟨a, 0#8, 0#8, 0#8⟩) = ⟨a, 0#8, 0#8, 0#8⟩ ∧ mix (inv ⟨0#8, a, 0#8, 0#8⟩) = ⟨0#8, a, 0#8, 0#8⟩ ∧
      mix (inv ⟨0#8, 0#8, a, 0#8⟩) = ⟨0#8, 0#8, a, 0#8⟩ ∧ mix (inv ⟨0#8, 0#8, 0#8, a⟩) = ⟨0#8, 0#8, 0#8, a⟩)) := by
  have k := gfMul_constants
  simp only [circulant, fun a => (k a).1, fun a => (k a).2.1, fun a => (k a).2.2.1, fun a => (k a).2.2.2.1,
    fun a => (k a).2.2.2.2.1, fun a => (k a).2.2.2.2.2.1, fun a => (k a).2.2.2.2.2.2, xtime_xor, xtime_zero,
    Quad.mk.injEq, BitVec.xor_zero, BitVec.zero_xor]
  generalize xtime (xtime (xtime (xtime a))) = a4
  generalize xtime (xtime (xtime a)) = a3
  generalize xtime (xtime a) = a2
  generalize xtime a = a1
  refine ⟨⟨⟨?_, ?_, ?_, ?_⟩, ⟨?_, ?_, ?_, ?_⟩, ⟨?_, ?_, ?_, ?_⟩, ⟨?_, ?_, ?_, ?_⟩⟩,
    ⟨⟨?_, ?_, ?_, ?_⟩, ⟨?_, ?_, ?_, ?_⟩, ⟨?_, ?_, ?_, ?_⟩, ⟨?_, ?_, ?_, ?_⟩⟩⟩ <;>
  · ext i hi
    simp only [BitVec.getElem_xor, BitVec.getElem_zero]
    generalize a[i] = x0
    generalize a1[i] = x1
    generalize a2[i] = x2
    generalize a3[i] = x3
    generalize a4[i] = x4
    revert x0 x1 x2 x3 x4
    decide

/-- The matrix of InvMixColumns times that of MixColumns is the identity (R146). -/
theorem circulant_inv_mix (q : Quad) :
    circulant 0x0E#8 0x0B#8 0x0D#8 0x09#8 (circulant 0x02#8 0x03#8 0x01#8 0x01#8 q) = q :=
  additive_eq_id (f := fun q => circulant 0x0E#8 0x0B#8 0x0D#8 0x09#8 (circulant 0x02#8 0x03#8 0x01#8 0x01#8 q))
    (fun p q => by simp only [circulant_xor]) (fun a => (circulant_byte a).1) q

/-- The matrix of MixColumns times that of InvMixColumns is the identity (R146). -/
theorem circulant_mix_inv (q : Quad) :
    circulant 0x02#8 0x03#8 0x01#8 0x01#8 (circulant 0x0E#8 0x0B#8 0x0D#8 0x09#8 q) = q :=
  additive_eq_id (f := fun q => circulant 0x02#8 0x03#8 0x01#8 0x01#8 (circulant 0x0E#8 0x0B#8 0x0D#8 0x09#8 q))
    (fun p q => by simp only [circulant_xor]) (fun a => (circulant_byte a).2) q

@[simp] theorem invMixColumns_mixColumns (s : AesState) : invMixColumns (mixColumns s) = s := by
  simp [invMixColumns, mixColumns, AesState.mapColumns, circulant_inv_mix]

@[simp] theorem mixColumns_invMixColumns (s : AesState) : mixColumns (invMixColumns s) = s := by
  simp [invMixColumns, mixColumns, AesState.mapColumns, circulant_mix_inv]

/-! ### Blocks -/

@[simp] theorem AesState.store_length (s : AesState) : s.store.length = 16 := rfl

@[simp] theorem AesState.load_store (s : AesState) : AesState.load s.store = s := rfl

/-- A block of 16 bytes is the bytes of its state (R141). -/
theorem AesState.store_load (b : Bytes) (h : b.length = 16) : (AesState.load b).store = b := by
  match b, h with
  | [_, _, _, _, _, _, _, _, _, _, _, _, _, _, _, _], _ => rfl

@[simp] theorem aesEnc_length (k b : Bytes) : (aesEnc k b).length = 16 := rfl

@[simp] theorem aesDec_length (k b : Bytes) : (aesDec k b).length = 16 := rfl

/-! ### CBC -/

theorem cbcEncBlocks_length (k iv : Bytes) (ps : List Bytes) :
    (cbcEncBlocks k iv ps).1.length = 16 * ps.length := by
  induction ps generalizing iv with
  | nil => rfl
  | cons p ps ih => simp [cbcEncBlocks, ih]; omega

theorem cbcEncBlocks_iv_length (k iv : Bytes) (ps : List Bytes) (h : iv.length = 16) :
    (cbcEncBlocks k iv ps).2.length = 16 := by
  induction ps generalizing iv with
  | nil => exact h
  | cons p ps ih => exact ih _ (aesEnc_length ..)

theorem cbcDecBlocks_length (k iv : Bytes) (cs : List Bytes) (h : iv.length = 16)
    (hc : ∀ c ∈ cs, c.length = 16) : (cbcDecBlocks k iv cs).1.length = 16 * cs.length := by
  induction cs generalizing iv with
  | nil => rfl
  | cons c cs ih =>
    simp [cbcDecBlocks, h, ih c (hc c (by simp)) (fun d hd => hc d (by simp [hd]))]; omega

theorem cbcDecBlocks_iv_length (k iv : Bytes) (cs : List Bytes) (h : iv.length = 16)
    (hc : ∀ c ∈ cs, c.length = 16) : (cbcDecBlocks k iv cs).2.length = 16 := by
  induction cs generalizing iv with
  | nil => exact h
  | cons c cs ih => exact ih c (hc c (by simp)) (fun d hd => hc d (by simp [hd]))

/-- The ciphertext is as long as the whole blocks of the input (R155). -/
theorem cbcEnc_length (k iv p : Bytes) (h : p.length % 16 = 0) : (cbcEnc k iv p).1.length = p.length := by
  simp [cbcEnc, cbcEncBlocks_length]; omega

theorem cbcEnc_iv_length (k iv p : Bytes) (h : iv.length = 16) : (cbcEnc k iv p).2.length = 16 :=
  cbcEncBlocks_iv_length _ _ _ h

/-- The blocks of an input have 16 bytes each. -/
theorem blocks16_full (c : Bytes) : ∀ b ∈ blocks 16 (c.length / 16) c, b.length = 16 :=
  blocks_full (by omega)

/-- The plaintext is as long as the whole blocks of the input (R156). -/
theorem cbcDec_length (k iv c : Bytes) (hi : iv.length = 16) (h : c.length % 16 = 0) :
    (cbcDec k iv c).1.length = c.length := by
  simp [cbcDec, cbcDecBlocks_length _ _ _ hi (blocks16_full c)]; omega

theorem cbcDec_iv_length (k iv c : Bytes) (h : iv.length = 16) : (cbcDec k iv c).2.length = 16 :=
  cbcDecBlocks_iv_length _ _ _ h (blocks16_full c)

@[simp] theorem State.ivrBytes_length (s : State) : s.ivrBytes.length = 16 := by
  simp [State.ivrBytes]

@[simp] theorem State.keyBytes_length (s : State) (ks : KeySlot) : (s.keyBytes ks).length = 32 := by
  simp [State.keyBytes]

/-! ### Rounds and chains undone -/

/-- A decryption round undoes an encryption round, one substitution and row shift apart (R150, R152). -/
theorem decRound_encRound (s : AesState) (k : RoundKey) :
    decRound (shiftRows (subBytes (encRound s k))) k = shiftRows (subBytes s) := by
  simp [decRound, encRound]

/-- An encryption round undoes a decryption round (R150, R152). -/
theorem encRound_decRound (s : AesState) (k : RoundKey) :
    encRound (invSubBytes (invShiftRows (decRound s k))) k = invSubBytes (invShiftRows s) := by
  simp [decRound, encRound]

/-- The key order of the inverse cipher is the reverse of the cipher's (R150, R152). -/
theorem roundKeys_reverse (w : List Quad) :
    (List.range 13).map (fun r => roundKey w (13 - r)) =
      ((List.range 13).map (fun r => roundKey w (r + 1))).reverse := by
  rw [← List.map_reverse]; rfl

theorem cbcEncBlocks_append (k iv : Bytes) (ps qs : List Bytes) :
    cbcEncBlocks k iv (ps ++ qs) =
      ((cbcEncBlocks k iv ps).1 ++ (cbcEncBlocks k (cbcEncBlocks k iv ps).2 qs).1,
        (cbcEncBlocks k (cbcEncBlocks k iv ps).2 qs).2) := by
  induction ps generalizing iv with
  | nil => simp [cbcEncBlocks]
  | cons p ps ih => simp [cbcEncBlocks, ih]

theorem cbcDecBlocks_append (k iv : Bytes) (ps qs : List Bytes) :
    cbcDecBlocks k iv (ps ++ qs) =
      ((cbcDecBlocks k iv ps).1 ++ (cbcDecBlocks k (cbcDecBlocks k iv ps).2 qs).1,
        (cbcDecBlocks k (cbcDecBlocks k iv ps).2 qs).2) := by
  induction ps generalizing iv with
  | nil => simp [cbcDecBlocks]
  | cons p ps ih => simp [cbcDecBlocks, ih]

end Sys2Proof.Machine
end

