-- ==== Sys2Proof/Laws/Memory.lean ====
section
/-! SUPPORT. The laws of BUF: a read after a write, other offsets unchanged, and every memory operation keeps the
canonical form and its bound. -/

namespace Sys2Proof.Machine

/-! ### Reads after writes -/

@[simp] theorem Memory.read_nil (a : Nat) : Memory.read [] a = Memory.unlisted := rfl

theorem Memory.read_cell (b : Nat) (x : Byte) (rest : Memory) (a : Nat) :
    Memory.read ((b, x) :: rest) a = if b = a then x else Memory.read rest a := rfl

/-- An offset that no cell lists reads as unlisted. -/
theorem Memory.read_of_not_listed {m : Memory} {a : Nat} (h : ∀ c ∈ m, c.1 ≠ a) :
    m.read a = Memory.unlisted := by
  induction m with
  | nil => rfl
  | cons c m ih =>
    obtain ⟨b, x⟩ := c
    rw [Memory.read_cell, if_neg (h (b, x) (by simp))]
    exact ih fun d hd => h d (by simp [hd])

theorem Memory.read_cons (a : Nat) (v : Byte) (rest : Memory) (h : ∀ c ∈ rest, c.1 ≠ a) (i : Nat) :
    (Memory.cons a v rest).read i = if a = i then v else rest.read i := by
  unfold Memory.cons
  split
  · next hv =>
    split
    · next hi => rw [← hi, Memory.read_of_not_listed h, hv]
    · rfl
  · rfl

/-- The strictly rising part of the canonical form. -/
abbrev Memory.rising (m : Memory) : Prop := m.Pairwise (fun c d => c.1 < d.1)

theorem Memory.wf_iff (m : Memory) :
    m.wf = true ↔ m.rising ∧ ∀ c ∈ m, c.2 ≠ Memory.unlisted := by
  simp [Memory.wf, Memory.rising]

/-- The one law of a byte write (R72): the written offset reads the byte, every other offset reads as before. -/
theorem Memory.read_write {m : Memory} (hm : m.rising) (a : Nat) (v : Byte) (i : Nat) :
    (m.write a v).read i = if a = i then v else m.read i := by
  induction m with
  | nil => exact Memory.read_cons a v [] (by simp) i
  | cons c m ih =>
    obtain ⟨b, x⟩ := c
    obtain ⟨hb, hm⟩ := List.pairwise_cons.1 hm
    unfold Memory.write
    split
    · next h =>
      refine Memory.read_cons a v _ ?_ i
      rintro ⟨d, y⟩ hd
      rcases List.mem_cons.1 hd with h' | h'
      · cases h'; omega
      · have := hb _ h'; simp only at this ⊢; omega
    · split
      · next h =>
        subst h
        rw [Memory.read_cons a v m (fun d hd => by have := hb d hd; simp only at this; omega),
          Memory.read_cell]
        split <;> rfl
      · next h1 h2 =>
        rw [Memory.read_cell, ih hm, Memory.read_cell]
        by_cases h3 : b = i
        · rw [if_pos h3, if_neg (by omega), if_pos h3]
        · rw [if_neg h3, if_neg h3]

/-! ### The canonical form is kept -/

theorem Memory.mem_cons {a : Nat} {v : Byte} {rest : Memory} {c : Host.Cell}
    (h : c ∈ Memory.cons a v rest) : (c = (a, v) ∧ v ≠ Memory.unlisted) ∨ c ∈ rest := by
  unfold Memory.cons at h
  split at h
  · exact .inr h
  · next hv =>
    rcases List.mem_cons.1 h with h | h
    · exact .inl ⟨h, hv⟩
    · exact .inr h

/-- A cell after a write is the written one, listed only if it must be, or was there before. -/
theorem Memory.mem_write {m : Memory} {a : Nat} {v : Byte} {c : Host.Cell} (h : c ∈ m.write a v) :
    (c = (a, v) ∧ v ≠ Memory.unlisted) ∨ c ∈ m := by
  induction m with
  | nil => exact (Memory.mem_cons h).imp_right (by simp)
  | cons d m ih =>
    obtain ⟨b, x⟩ := d
    unfold Memory.write at h
    split at h
    · exact Memory.mem_cons h
    · split at h
      · exact (Memory.mem_cons h).imp_right (List.mem_cons_of_mem _)
      · rcases List.mem_cons.1 h with h | h
        · exact .inr (h ▸ List.mem_cons_self)
        · exact (ih h).imp_right (List.mem_cons_of_mem _)

theorem Memory.rising_cons {a : Nat} {v : Byte} {rest : Memory} (hr : rest.rising)
    (h : ∀ c ∈ rest, a < c.1) : (Memory.cons a v rest).rising := by
  unfold Memory.cons
  split
  · exact hr
  · exact List.pairwise_cons.2 ⟨h, hr⟩

theorem Memory.rising_write {m : Memory} (hm : m.rising) (a : Nat) (v : Byte) : (m.write a v).rising := by
  induction m with
  | nil => exact Memory.rising_cons (by simp [Memory.rising]) (by simp)
  | cons c m ih =>
    obtain ⟨b, x⟩ := c
    obtain ⟨hb, hm'⟩ := List.pairwise_cons.1 hm
    unfold Memory.write
    split
    · next h =>
      refine Memory.rising_cons hm ?_
      intro c hc
      rcases List.mem_cons.1 hc with h' | h'
      · subst h'; exact h
      · have := hb _ h'; simp only at this ⊢; omega
    · split
      · next h => exact Memory.rising_cons hm' fun c hc => h ▸ hb c hc
      · next h1 h2 =>
        refine List.pairwise_cons.2 ⟨fun c hc => ?_, ih hm'⟩
        rcases Memory.mem_write hc with ⟨h, -⟩ | h
        · subst h; simp only; omega
        · exact hb c h

/-- A byte write keeps the canonical form. -/
theorem Memory.wf_write {m : Memory} (hm : m.wf = true) (a : Nat) (v : Byte) : (m.write a v).wf = true := by
  rw [Memory.wf_iff] at hm ⊢
  refine ⟨Memory.rising_write hm.1 a v, fun c hc => ?_⟩
  rcases Memory.mem_write hc with ⟨rfl, h⟩ | h
  · exact h
  · exact hm.2 c h

/-- A byte write inside the bound keeps the bound. -/
theorem Memory.below_write {m : Memory} {n a : Nat} (hm : m.below n = true) (ha : a < n) (v : Byte) :
    (m.write a v).below n = true := by
  simp only [Memory.below, List.all_eq_true, decide_eq_true_eq] at hm ⊢
  intro c hc
  rcases Memory.mem_write hc with ⟨rfl, -⟩ | h
  · exact ha
  · exact hm c h

/-! ### Byte strings -/

theorem Memory.rising_writeBytes {m : Memory} (hm : m.rising) (a : Nat) (bs : Bytes) :
    (m.writeBytes a bs).rising := by
  induction bs generalizing m a with
  | nil => exact hm
  | cons v vs ih => exact ih (Memory.rising_write hm a v) (a + 1)

/-- Storing a byte string keeps the canonical form. -/
theorem Memory.wf_writeBytes {m : Memory} (hm : m.wf = true) (a : Nat) (bs : Bytes) :
    (m.writeBytes a bs).wf = true := by
  induction bs generalizing m a with
  | nil => exact hm
  | cons v vs ih => exact ih (Memory.wf_write hm a v) (a + 1)

/-- Storing a byte string inside the bound keeps the bound. -/
theorem Memory.below_writeBytes {m : Memory} {n a : Nat} {bs : Bytes} (hm : m.below n = true)
    (ha : a + bs.length ≤ n) : (m.writeBytes a bs).below n = true := by
  induction bs generalizing m a with
  | nil => exact hm
  | cons v vs ih =>
    simp only [List.length_cons] at ha
    exact ih (Memory.below_write hm (by omega) v) (by omega)

/-- The one law of storing a byte string (R12, R91): its bytes stand at its offsets, every other offset reads as
before. -/
theorem Memory.read_writeBytes {m : Memory} (hm : m.rising) (a : Nat) (bs : Bytes) (i : Nat) :
    (m.writeBytes a bs).read i =
      if a ≤ i ∧ i < a + bs.length then bs.getD (i - a) 0#8 else m.read i := by
  induction bs generalizing m a with
  | nil => rw [if_neg (by simp)]; rfl
  | cons v vs ih =>
    simp only [Memory.writeBytes, ih (Memory.rising_write hm a v), Memory.read_write hm,
      List.length_cons]
    by_cases h1 : a = i
    · subst h1; simp
    · by_cases h2 : a + 1 ≤ i ∧ i < a + 1 + vs.length
      · obtain ⟨k, hk⟩ : ∃ k, i - a = k + 1 := ⟨i - a - 1, by omega⟩
        rw [if_pos h2, if_pos (by omega), hk, List.getD_cons_succ]
        congr 1
        omega
      · rw [if_neg h2, if_neg h1, if_neg (by omega)]

/-! ### MemRead -/

@[simp] theorem State.memRead_length (s : State) (o n : Nat) : (s.memRead o n).length = n := by
  simp [State.memRead]

/-- Byte i of `MemRead(o, n)` (R91). -/
theorem State.memRead_getD (s : State) (o n i : Nat) (h : i < n) :
    (s.memRead o n).getD i 0#8 = s.buf.read (o + i) := by
  simp [State.memRead, h]

/-- `MemRead` splits at any index. -/
theorem State.memRead_add (s : State) (o n k : Nat) :
    s.memRead o (n + k) = s.memRead o n ++ s.memRead (o + n) k := by
  simp [State.memRead, List.range_add, Nat.add_assoc]

@[simp] theorem State.input_length (s : State) : s.input.length = s.lenN := State.memRead_length ..

/-- Storing two byte strings one after the other stores their concatenation. -/
theorem Memory.writeBytes_append (m : Memory) (a : Nat) (xs ys : Bytes) :
    m.writeBytes a (xs ++ ys) = (m.writeBytes a xs).writeBytes (a + xs.length) ys := by
  induction xs generalizing m a with
  | nil => rfl
  | cons x xs ih =>
    simp only [List.cons_append, Memory.writeBytes, ih, List.length_cons]
    rw [show a + 1 + xs.length = a + (xs.length + 1) by omega]

/-- A read clear of the stored bytes reads what it did before. -/
theorem Memory.read_writeBytes_clear {m : Memory} (hm : m.rising) (a : Nat) (bs : Bytes) (i : Nat)
    (h : i < a ∨ a + bs.length ≤ i) : (m.writeBytes a bs).read i = m.read i := by
  rw [Memory.read_writeBytes hm, if_neg (by omega)]

end Sys2Proof.Machine
end

