-- ==== Sys2Proof/Laws/State.lean ====
section
/-! SUPPORT. One lemma per field of the state per update, each true by rfl, so that no later proof unfolds a record
update. -/

namespace Sys2Proof.Machine

/-- `complete()` is the completion with code OK (R12). -/
@[simp] theorem State.completeOk_eq (s : State) : s.completeOk = s.finish false .ok := rfl

/-- `raise Error(c)` is the completion with code c (R360). -/
@[simp] theorem State.raiseError_eq (s : State) (c : Code) : s.raiseError c = s.finish false c := rfl

/-! ### finish -/

@[simp] theorem State.finish_irqEn (s : State) (v : Bool) (c : Code) : (s.finish v c).irqEn = s.irqEn := rfl
@[simp] theorem State.finish_done (s : State) (v : Bool) (c : Code) : (s.finish v c).done = true := rfl
@[simp] theorem State.finish_err (s : State) (v : Bool) (c : Code) : (s.finish v c).err = (c != .ok) := rfl
@[simp] theorem State.finish_authOk (s : State) (v : Bool) (c : Code) :
    (s.finish v c).authOk = (v && c == .ok) := rfl
@[simp] theorem State.finish_ovf (s : State) (v : Bool) (c : Code) : (s.finish v c).ovf = s.ovf := rfl
@[simp] theorem State.finish_errcode (s : State) (v : Bool) (c : Code) : (s.finish v c).errcode = c := rfl
@[simp] theorem State.finish_cmdr (s : State) (v : Bool) (c : Code) : (s.finish v c).cmdr = s.cmdr := rfl
@[simp] theorem State.finish_src (s : State) (v : Bool) (c : Code) : (s.finish v c).src = s.src := rfl
@[simp] theorem State.finish_dst (s : State) (v : Bool) (c : Code) : (s.finish v c).dst = s.dst := rfl
@[simp] theorem State.finish_len (s : State) (v : Bool) (c : Code) : (s.finish v c).len = s.len := rfl
@[simp] theorem State.finish_iter (s : State) (v : Bool) (c : Code) : (s.finish v c).iter = s.iter := rfl
@[simp] theorem State.finish_lmod (s : State) (v : Bool) (c : Code) : (s.finish v c).lmod = s.lmod := rfl
@[simp] theorem State.finish_outlen (s : State) (v : Bool) (c : Code) :
    (s.finish v c).outlen = s.outlen := rfl
@[simp] theorem State.finish_ivr (s : State) (v : Bool) (c : Code) : (s.finish v c).ivr = s.ivr := rfl
@[simp] theorem State.finish_keys (s : State) (v : Bool) (c : Code) : (s.finish v c).keys = s.keys := rfl
@[simp] theorem State.finish_result (s : State) (v : Bool) (c : Code) :
    (s.finish v c).result = s.result := rfl
@[simp] theorem State.finish_buf (s : State) (v : Bool) (c : Code) : (s.finish v c).buf = s.buf := rfl
@[simp] theorem State.finish_context (s : State) (v : Bool) (c : Code) :
    (s.finish v c).context = s.context := rfl
@[simp] theorem State.finish_phase (s : State) (v : Bool) (c : Code) : (s.finish v c).phase = .idle := rfl
@[simp] theorem State.finish_bufSize (s : State) (v : Bool) (c : Code) :
    (s.finish v c).bufSize = s.bufSize := rfl
@[simp] theorem State.finish_issues (s : State) (v : Bool) (c : Code) :
    (s.finish v c).issues = s.issues := rfl
@[simp] theorem State.finish_delay (s : State) (v : Bool) (c : Code) : (s.finish v c).delay = s.delay := rfl
@[simp] theorem State.finish_host (s : State) (v : Bool) (c : Code) : (s.finish v c).host = s.host := rfl

/-! ### issue -/

@[simp] theorem State.issue_irqEn (s : State) (v : Word) : (s.issue v).irqEn = s.irqEn := rfl
@[simp] theorem State.issue_done (s : State) (v : Word) : (s.issue v).done = false := rfl
@[simp] theorem State.issue_err (s : State) (v : Word) : (s.issue v).err = false := rfl
@[simp] theorem State.issue_authOk (s : State) (v : Word) : (s.issue v).authOk = false := rfl
@[simp] theorem State.issue_ovf (s : State) (v : Word) : (s.issue v).ovf = s.ovf := rfl
@[simp] theorem State.issue_errcode (s : State) (v : Word) : (s.issue v).errcode = .ok := rfl
@[simp] theorem State.issue_cmdr (s : State) (v : Word) : (s.issue v).cmdr = v := rfl
@[simp] theorem State.issue_src (s : State) (v : Word) : (s.issue v).src = s.src := rfl
@[simp] theorem State.issue_dst (s : State) (v : Word) : (s.issue v).dst = s.dst := rfl
@[simp] theorem State.issue_len (s : State) (v : Word) : (s.issue v).len = s.len := rfl
@[simp] theorem State.issue_iter (s : State) (v : Word) : (s.issue v).iter = s.iter := rfl
@[simp] theorem State.issue_lmod (s : State) (v : Word) : (s.issue v).lmod = s.lmod := rfl
@[simp] theorem State.issue_outlen (s : State) (v : Word) : (s.issue v).outlen = s.outlen := rfl
@[simp] theorem State.issue_ivr (s : State) (v : Word) : (s.issue v).ivr = s.ivr := rfl
@[simp] theorem State.issue_keys (s : State) (v : Word) : (s.issue v).keys = s.keys := rfl
@[simp] theorem State.issue_result (s : State) (v : Word) : (s.issue v).result = s.result := rfl
@[simp] theorem State.issue_buf (s : State) (v : Word) : (s.issue v).buf = s.buf := rfl
@[simp] theorem State.issue_context (s : State) (v : Word) : (s.issue v).context = s.context := rfl
@[simp] theorem State.issue_phase (s : State) (v : Word) : (s.issue v).phase = .busy := rfl
@[simp] theorem State.issue_bufSize (s : State) (v : Word) : (s.issue v).bufSize = s.bufSize := rfl
@[simp] theorem State.issue_issues (s : State) (v : Word) : (s.issue v).issues = s.issues + 1 := rfl
@[simp] theorem State.issue_delay (s : State) (v : Word) : (s.issue v).delay = Config.latency s.issues := rfl
@[simp] theorem State.issue_host (s : State) (v : Word) : (s.issue v).host = s.host := rfl

/-! ### clearStatus -/

@[simp] theorem State.clearStatus_irqEn (s : State) (v : Word) : (s.clearStatus v).irqEn = s.irqEn := rfl
@[simp] theorem State.clearStatus_done (s : State) (v : Word) :
    (s.clearStatus v).done = (s.done && !v.getLsbD 1) := rfl
@[simp] theorem State.clearStatus_err (s : State) (v : Word) :
    (s.clearStatus v).err = (s.err && !v.getLsbD 2) := rfl
@[simp] theorem State.clearStatus_authOk (s : State) (v : Word) : (s.clearStatus v).authOk = s.authOk := rfl
@[simp] theorem State.clearStatus_ovf (s : State) (v : Word) :
    (s.clearStatus v).ovf = (s.ovf && !v.getLsbD 7) := rfl
@[simp] theorem State.clearStatus_errcode (s : State) (v : Word) :
    (s.clearStatus v).errcode = s.errcode := rfl
@[simp] theorem State.clearStatus_cmdr (s : State) (v : Word) : (s.clearStatus v).cmdr = s.cmdr := rfl
@[simp] theorem State.clearStatus_src (s : State) (v : Word) : (s.clearStatus v).src = s.src := rfl
@[simp] theorem State.clearStatus_dst (s : State) (v : Word) : (s.clearStatus v).dst = s.dst := rfl
@[simp] theorem State.clearStatus_len (s : State) (v : Word) : (s.clearStatus v).len = s.len := rfl
@[simp] theorem State.clearStatus_iter (s : State) (v : Word) : (s.clearStatus v).iter = s.iter := rfl
@[simp] theorem State.clearStatus_lmod (s : State) (v : Word) : (s.clearStatus v).lmod = s.lmod := rfl
@[simp] theorem State.clearStatus_outlen (s : State) (v : Word) : (s.clearStatus v).outlen = s.outlen := rfl
@[simp] theorem State.clearStatus_ivr (s : State) (v : Word) : (s.clearStatus v).ivr = s.ivr := rfl
@[simp] theorem State.clearStatus_keys (s : State) (v : Word) : (s.clearStatus v).keys = s.keys := rfl
@[simp] theorem State.clearStatus_result (s : State) (v : Word) : (s.clearStatus v).result = s.result := rfl
@[simp] theorem State.clearStatus_buf (s : State) (v : Word) : (s.clearStatus v).buf = s.buf := rfl
@[simp] theorem State.clearStatus_context (s : State) (v : Word) :
    (s.clearStatus v).context = s.context := rfl
@[simp] theorem State.clearStatus_phase (s : State) (v : Word) : (s.clearStatus v).phase = s.phase := rfl
@[simp] theorem State.clearStatus_bufSize (s : State) (v : Word) :
    (s.clearStatus v).bufSize = s.bufSize := rfl
@[simp] theorem State.clearStatus_issues (s : State) (v : Word) : (s.clearStatus v).issues = s.issues := rfl
@[simp] theorem State.clearStatus_delay (s : State) (v : Word) : (s.clearStatus v).delay = s.delay := rfl
@[simp] theorem State.clearStatus_host (s : State) (v : Word) : (s.clearStatus v).host = s.host := rfl

/-! ### memWrite -/

@[simp] theorem State.memWrite_irqEn (s : State) (o : Nat) (v : Bytes) :
    (s.memWrite o v).irqEn = s.irqEn := rfl
@[simp] theorem State.memWrite_done (s : State) (o : Nat) (v : Bytes) : (s.memWrite o v).done = s.done := rfl
@[simp] theorem State.memWrite_err (s : State) (o : Nat) (v : Bytes) : (s.memWrite o v).err = s.err := rfl
@[simp] theorem State.memWrite_authOk (s : State) (o : Nat) (v : Bytes) :
    (s.memWrite o v).authOk = s.authOk := rfl
@[simp] theorem State.memWrite_ovf (s : State) (o : Nat) (v : Bytes) : (s.memWrite o v).ovf = s.ovf := rfl
@[simp] theorem State.memWrite_errcode (s : State) (o : Nat) (v : Bytes) :
    (s.memWrite o v).errcode = s.errcode := rfl
@[simp] theorem State.memWrite_cmdr (s : State) (o : Nat) (v : Bytes) : (s.memWrite o v).cmdr = s.cmdr := rfl
@[simp] theorem State.memWrite_src (s : State) (o : Nat) (v : Bytes) : (s.memWrite o v).src = s.src := rfl
@[simp] theorem State.memWrite_dst (s : State) (o : Nat) (v : Bytes) : (s.memWrite o v).dst = s.dst := rfl
@[simp] theorem State.memWrite_len (s : State) (o : Nat) (v : Bytes) : (s.memWrite o v).len = s.len := rfl
@[simp] theorem State.memWrite_iter (s : State) (o : Nat) (v : Bytes) : (s.memWrite o v).iter = s.iter := rfl
@[simp] theorem State.memWrite_lmod (s : State) (o : Nat) (v : Bytes) : (s.memWrite o v).lmod = s.lmod := rfl
@[simp] theorem State.memWrite_outlen (s : State) (o : Nat) (v : Bytes) :
    (s.memWrite o v).outlen = s.outlen := rfl
@[simp] theorem State.memWrite_ivr (s : State) (o : Nat) (v : Bytes) : (s.memWrite o v).ivr = s.ivr := rfl
@[simp] theorem State.memWrite_keys (s : State) (o : Nat) (v : Bytes) : (s.memWrite o v).keys = s.keys := rfl
@[simp] theorem State.memWrite_result (s : State) (o : Nat) (v : Bytes) :
    (s.memWrite o v).result = s.result := rfl
@[simp] theorem State.memWrite_buf (s : State) (o : Nat) (v : Bytes) :
    (s.memWrite o v).buf = s.buf.writeBytes o v := rfl
@[simp] theorem State.memWrite_context (s : State) (o : Nat) (v : Bytes) :
    (s.memWrite o v).context = s.context := rfl
@[simp] theorem State.memWrite_phase (s : State) (o : Nat) (v : Bytes) :
    (s.memWrite o v).phase = s.phase := rfl
@[simp] theorem State.memWrite_bufSize (s : State) (o : Nat) (v : Bytes) :
    (s.memWrite o v).bufSize = s.bufSize := rfl
@[simp] theorem State.memWrite_issues (s : State) (o : Nat) (v : Bytes) :
    (s.memWrite o v).issues = s.issues := rfl
@[simp] theorem State.memWrite_delay (s : State) (o : Nat) (v : Bytes) :
    (s.memWrite o v).delay = s.delay := rfl
@[simp] theorem State.memWrite_host (s : State) (o : Nat) (v : Bytes) : (s.memWrite o v).host = s.host := rfl

/-! ### setKeyBytes -/

@[simp] theorem State.setKeyBytes_irqEn (s : State) (ks : KeySlot) (k : Bytes) :
    (s.setKeyBytes ks k).irqEn = s.irqEn := rfl
@[simp] theorem State.setKeyBytes_done (s : State) (ks : KeySlot) (k : Bytes) :
    (s.setKeyBytes ks k).done = s.done := rfl
@[simp] theorem State.setKeyBytes_err (s : State) (ks : KeySlot) (k : Bytes) :
    (s.setKeyBytes ks k).err = s.err := rfl
@[simp] theorem State.setKeyBytes_authOk (s : State) (ks : KeySlot) (k : Bytes) :
    (s.setKeyBytes ks k).authOk = s.authOk := rfl
@[simp] theorem State.setKeyBytes_ovf (s : State) (ks : KeySlot) (k : Bytes) :
    (s.setKeyBytes ks k).ovf = s.ovf := rfl
@[simp] theorem State.setKeyBytes_errcode (s : State) (ks : KeySlot) (k : Bytes) :
    (s.setKeyBytes ks k).errcode = s.errcode := rfl
@[simp] theorem State.setKeyBytes_cmdr (s : State) (ks : KeySlot) (k : Bytes) :
    (s.setKeyBytes ks k).cmdr = s.cmdr := rfl
@[simp] theorem State.setKeyBytes_src (s : State) (ks : KeySlot) (k : Bytes) :
    (s.setKeyBytes ks k).src = s.src := rfl
@[simp] theorem State.setKeyBytes_dst (s : State) (ks : KeySlot) (k : Bytes) :
    (s.setKeyBytes ks k).dst = s.dst := rfl
@[simp] theorem State.setKeyBytes_len (s : State) (ks : KeySlot) (k : Bytes) :
    (s.setKeyBytes ks k).len = s.len := rfl
@[simp] theorem State.setKeyBytes_iter (s : State) (ks : KeySlot) (k : Bytes) :
    (s.setKeyBytes ks k).iter = s.iter := rfl
@[simp] theorem State.setKeyBytes_lmod (s : State) (ks : KeySlot) (k : Bytes) :
    (s.setKeyBytes ks k).lmod = s.lmod := rfl
@[simp] theorem State.setKeyBytes_outlen (s : State) (ks : KeySlot) (k : Bytes) :
    (s.setKeyBytes ks k).outlen = s.outlen := rfl
@[simp] theorem State.setKeyBytes_ivr (s : State) (ks : KeySlot) (k : Bytes) :
    (s.setKeyBytes ks k).ivr = s.ivr := rfl
@[simp] theorem State.setKeyBytes_keys (s : State) (ks : KeySlot) (k : Bytes) :
    (s.setKeyBytes ks k).keys = s.keys.set ks (wordsOfBytes 8 k) := rfl
@[simp] theorem State.setKeyBytes_result (s : State) (ks : KeySlot) (k : Bytes) :
    (s.setKeyBytes ks k).result = s.result := rfl
@[simp] theorem State.setKeyBytes_buf (s : State) (ks : KeySlot) (k : Bytes) :
    (s.setKeyBytes ks k).buf = s.buf := rfl
@[simp] theorem State.setKeyBytes_context (s : State) (ks : KeySlot) (k : Bytes) :
    (s.setKeyBytes ks k).context = s.context := rfl
@[simp] theorem State.setKeyBytes_phase (s : State) (ks : KeySlot) (k : Bytes) :
    (s.setKeyBytes ks k).phase = s.phase := rfl
@[simp] theorem State.setKeyBytes_bufSize (s : State) (ks : KeySlot) (k : Bytes) :
    (s.setKeyBytes ks k).bufSize = s.bufSize := rfl
@[simp] theorem State.setKeyBytes_issues (s : State) (ks : KeySlot) (k : Bytes) :
    (s.setKeyBytes ks k).issues = s.issues := rfl
@[simp] theorem State.setKeyBytes_delay (s : State) (ks : KeySlot) (k : Bytes) :
    (s.setKeyBytes ks k).delay = s.delay := rfl
@[simp] theorem State.setKeyBytes_host (s : State) (ks : KeySlot) (k : Bytes) :
    (s.setKeyBytes ks k).host = s.host := rfl

/-! ### setIvrBytes -/

@[simp] theorem State.setIvrBytes_irqEn (s : State) (v : Bytes) : (s.setIvrBytes v).irqEn = s.irqEn := rfl
@[simp] theorem State.setIvrBytes_done (s : State) (v : Bytes) : (s.setIvrBytes v).done = s.done := rfl
@[simp] theorem State.setIvrBytes_err (s : State) (v : Bytes) : (s.setIvrBytes v).err = s.err := rfl
@[simp] theorem State.setIvrBytes_authOk (s : State) (v : Bytes) : (s.setIvrBytes v).authOk = s.authOk := rfl
@[simp] theorem State.setIvrBytes_ovf (s : State) (v : Bytes) : (s.setIvrBytes v).ovf = s.ovf := rfl
@[simp] theorem State.setIvrBytes_errcode (s : State) (v : Bytes) :
    (s.setIvrBytes v).errcode = s.errcode := rfl
@[simp] theorem State.setIvrBytes_cmdr (s : State) (v : Bytes) : (s.setIvrBytes v).cmdr = s.cmdr := rfl
@[simp] theorem State.setIvrBytes_src (s : State) (v : Bytes) : (s.setIvrBytes v).src = s.src := rfl
@[simp] theorem State.setIvrBytes_dst (s : State) (v : Bytes) : (s.setIvrBytes v).dst = s.dst := rfl
@[simp] theorem State.setIvrBytes_len (s : State) (v : Bytes) : (s.setIvrBytes v).len = s.len := rfl
@[simp] theorem State.setIvrBytes_iter (s : State) (v : Bytes) : (s.setIvrBytes v).iter = s.iter := rfl
@[simp] theorem State.setIvrBytes_lmod (s : State) (v : Bytes) : (s.setIvrBytes v).lmod = s.lmod := rfl
@[simp] theorem State.setIvrBytes_outlen (s : State) (v : Bytes) : (s.setIvrBytes v).outlen = s.outlen := rfl
@[simp] theorem State.setIvrBytes_ivr (s : State) (v : Bytes) :
    (s.setIvrBytes v).ivr = wordsOfBytes 4 v := rfl
@[simp] theorem State.setIvrBytes_keys (s : State) (v : Bytes) : (s.setIvrBytes v).keys = s.keys := rfl
@[simp] theorem State.setIvrBytes_result (s : State) (v : Bytes) : (s.setIvrBytes v).result = s.result := rfl
@[simp] theorem State.setIvrBytes_buf (s : State) (v : Bytes) : (s.setIvrBytes v).buf = s.buf := rfl
@[simp] theorem State.setIvrBytes_context (s : State) (v : Bytes) :
    (s.setIvrBytes v).context = s.context := rfl
@[simp] theorem State.setIvrBytes_phase (s : State) (v : Bytes) : (s.setIvrBytes v).phase = s.phase := rfl
@[simp] theorem State.setIvrBytes_bufSize (s : State) (v : Bytes) :
    (s.setIvrBytes v).bufSize = s.bufSize := rfl
@[simp] theorem State.setIvrBytes_issues (s : State) (v : Bytes) : (s.setIvrBytes v).issues = s.issues := rfl
@[simp] theorem State.setIvrBytes_delay (s : State) (v : Bytes) : (s.setIvrBytes v).delay = s.delay := rfl
@[simp] theorem State.setIvrBytes_host (s : State) (v : Bytes) : (s.setIvrBytes v).host = s.host := rfl

/-! ### setResultBytes -/

@[simp] theorem State.setResultBytes_irqEn (s : State) (d : Bytes) :
    (s.setResultBytes d).irqEn = s.irqEn := rfl
@[simp] theorem State.setResultBytes_done (s : State) (d : Bytes) : (s.setResultBytes d).done = s.done := rfl
@[simp] theorem State.setResultBytes_err (s : State) (d : Bytes) : (s.setResultBytes d).err = s.err := rfl
@[simp] theorem State.setResultBytes_authOk (s : State) (d : Bytes) :
    (s.setResultBytes d).authOk = s.authOk := rfl
@[simp] theorem State.setResultBytes_ovf (s : State) (d : Bytes) : (s.setResultBytes d).ovf = s.ovf := rfl
@[simp] theorem State.setResultBytes_errcode (s : State) (d : Bytes) :
    (s.setResultBytes d).errcode = s.errcode := rfl
@[simp] theorem State.setResultBytes_cmdr (s : State) (d : Bytes) : (s.setResultBytes d).cmdr = s.cmdr := rfl
@[simp] theorem State.setResultBytes_src (s : State) (d : Bytes) : (s.setResultBytes d).src = s.src := rfl
@[simp] theorem State.setResultBytes_dst (s : State) (d : Bytes) : (s.setResultBytes d).dst = s.dst := rfl
@[simp] theorem State.setResultBytes_len (s : State) (d : Bytes) : (s.setResultBytes d).len = s.len := rfl
@[simp] theorem State.setResultBytes_iter (s : State) (d : Bytes) : (s.setResultBytes d).iter = s.iter := rfl
@[simp] theorem State.setResultBytes_lmod (s : State) (d : Bytes) : (s.setResultBytes d).lmod = s.lmod := rfl
@[simp] theorem State.setResultBytes_outlen (s : State) (d : Bytes) :
    (s.setResultBytes d).outlen = s.outlen := rfl
@[simp] theorem State.setResultBytes_ivr (s : State) (d : Bytes) : (s.setResultBytes d).ivr = s.ivr := rfl
@[simp] theorem State.setResultBytes_keys (s : State) (d : Bytes) : (s.setResultBytes d).keys = s.keys := rfl
@[simp] theorem State.setResultBytes_result (s : State) (d : Bytes) :
    (s.setResultBytes d).result = wordsOfBytes 16 (d ++ zeros (64 - d.length)) := rfl
@[simp] theorem State.setResultBytes_buf (s : State) (d : Bytes) : (s.setResultBytes d).buf = s.buf := rfl
@[simp] theorem State.setResultBytes_context (s : State) (d : Bytes) :
    (s.setResultBytes d).context = s.context := rfl
@[simp] theorem State.setResultBytes_phase (s : State) (d : Bytes) :
    (s.setResultBytes d).phase = s.phase := rfl
@[simp] theorem State.setResultBytes_bufSize (s : State) (d : Bytes) :
    (s.setResultBytes d).bufSize = s.bufSize := rfl
@[simp] theorem State.setResultBytes_issues (s : State) (d : Bytes) :
    (s.setResultBytes d).issues = s.issues := rfl
@[simp] theorem State.setResultBytes_delay (s : State) (d : Bytes) :
    (s.setResultBytes d).delay = s.delay := rfl
@[simp] theorem State.setResultBytes_host (s : State) (d : Bytes) : (s.setResultBytes d).host = s.host := rfl

/-! ### setOutlen -/

@[simp] theorem State.setOutlen_irqEn (s : State) (n : Nat) : (s.setOutlen n).irqEn = s.irqEn := rfl
@[simp] theorem State.setOutlen_done (s : State) (n : Nat) : (s.setOutlen n).done = s.done := rfl
@[simp] theorem State.setOutlen_err (s : State) (n : Nat) : (s.setOutlen n).err = s.err := rfl
@[simp] theorem State.setOutlen_authOk (s : State) (n : Nat) : (s.setOutlen n).authOk = s.authOk := rfl
@[simp] theorem State.setOutlen_ovf (s : State) (n : Nat) : (s.setOutlen n).ovf = s.ovf := rfl
@[simp] theorem State.setOutlen_errcode (s : State) (n : Nat) : (s.setOutlen n).errcode = s.errcode := rfl
@[simp] theorem State.setOutlen_cmdr (s : State) (n : Nat) : (s.setOutlen n).cmdr = s.cmdr := rfl
@[simp] theorem State.setOutlen_src (s : State) (n : Nat) : (s.setOutlen n).src = s.src := rfl
@[simp] theorem State.setOutlen_dst (s : State) (n : Nat) : (s.setOutlen n).dst = s.dst := rfl
@[simp] theorem State.setOutlen_len (s : State) (n : Nat) : (s.setOutlen n).len = s.len := rfl
@[simp] theorem State.setOutlen_iter (s : State) (n : Nat) : (s.setOutlen n).iter = s.iter := rfl
@[simp] theorem State.setOutlen_lmod (s : State) (n : Nat) : (s.setOutlen n).lmod = s.lmod := rfl
@[simp] theorem State.setOutlen_outlen (s : State) (n : Nat) :
    (s.setOutlen n).outlen = BitVec.ofNat 32 n := rfl
@[simp] theorem State.setOutlen_ivr (s : State) (n : Nat) : (s.setOutlen n).ivr = s.ivr := rfl
@[simp] theorem State.setOutlen_keys (s : State) (n : Nat) : (s.setOutlen n).keys = s.keys := rfl
@[simp] theorem State.setOutlen_result (s : State) (n : Nat) : (s.setOutlen n).result = s.result := rfl
@[simp] theorem State.setOutlen_buf (s : State) (n : Nat) : (s.setOutlen n).buf = s.buf := rfl
@[simp] theorem State.setOutlen_context (s : State) (n : Nat) : (s.setOutlen n).context = s.context := rfl
@[simp] theorem State.setOutlen_phase (s : State) (n : Nat) : (s.setOutlen n).phase = s.phase := rfl
@[simp] theorem State.setOutlen_bufSize (s : State) (n : Nat) : (s.setOutlen n).bufSize = s.bufSize := rfl
@[simp] theorem State.setOutlen_issues (s : State) (n : Nat) : (s.setOutlen n).issues = s.issues := rfl
@[simp] theorem State.setOutlen_delay (s : State) (n : Nat) : (s.setOutlen n).delay = s.delay := rfl
@[simp] theorem State.setOutlen_host (s : State) (n : Nat) : (s.setOutlen n).host = s.host := rfl

/-! ### feed -/

@[simp] theorem State.feed_irqEn (s : State) (m : Bool) (bs : Bytes) :
    (s.feed m bs).irqEn = s.irqEn := by cases m <;> rfl
@[simp] theorem State.feed_done (s : State) (m : Bool) (bs : Bytes) :
    (s.feed m bs).done = s.done := by cases m <;> rfl
@[simp] theorem State.feed_err (s : State) (m : Bool) (bs : Bytes) :
    (s.feed m bs).err = s.err := by cases m <;> rfl
@[simp] theorem State.feed_authOk (s : State) (m : Bool) (bs : Bytes) :
    (s.feed m bs).authOk = s.authOk := by cases m <;> rfl
@[simp] theorem State.feed_ovf (s : State) (m : Bool) (bs : Bytes) :
    (s.feed m bs).ovf = s.ovf := by cases m <;> rfl
@[simp] theorem State.feed_errcode (s : State) (m : Bool) (bs : Bytes) :
    (s.feed m bs).errcode = s.errcode := by cases m <;> rfl
@[simp] theorem State.feed_cmdr (s : State) (m : Bool) (bs : Bytes) :
    (s.feed m bs).cmdr = s.cmdr := by cases m <;> rfl
@[simp] theorem State.feed_src (s : State) (m : Bool) (bs : Bytes) :
    (s.feed m bs).src = s.src := by cases m <;> rfl
@[simp] theorem State.feed_dst (s : State) (m : Bool) (bs : Bytes) :
    (s.feed m bs).dst = s.dst := by cases m <;> rfl
@[simp] theorem State.feed_len (s : State) (m : Bool) (bs : Bytes) :
    (s.feed m bs).len = s.len := by cases m <;> rfl
@[simp] theorem State.feed_iter (s : State) (m : Bool) (bs : Bytes) :
    (s.feed m bs).iter = s.iter := by cases m <;> rfl
@[simp] theorem State.feed_lmod (s : State) (m : Bool) (bs : Bytes) :
    (s.feed m bs).lmod = s.lmod := by cases m <;> rfl
@[simp] theorem State.feed_outlen (s : State) (m : Bool) (bs : Bytes) :
    (s.feed m bs).outlen = s.outlen := by cases m <;> rfl
@[simp] theorem State.feed_ivr (s : State) (m : Bool) (bs : Bytes) :
    (s.feed m bs).ivr = s.ivr := by cases m <;> rfl
@[simp] theorem State.feed_keys (s : State) (m : Bool) (bs : Bytes) :
    (s.feed m bs).keys = s.keys := by cases m <;> rfl
@[simp] theorem State.feed_result (s : State) (m : Bool) (bs : Bytes) :
    (s.feed m bs).result = s.result := by cases m <;> rfl
@[simp] theorem State.feed_buf (s : State) (m : Bool) (bs : Bytes) :
    (s.feed m bs).buf = s.buf := by cases m <;> rfl
@[simp] theorem State.feed_context (s : State) (m : Bool) (bs : Bytes) :
    (s.feed m bs).context = if m then s.context.absorb bs else s.context := by cases m <;> rfl
@[simp] theorem State.feed_phase (s : State) (m : Bool) (bs : Bytes) :
    (s.feed m bs).phase = s.phase := by cases m <;> rfl
@[simp] theorem State.feed_bufSize (s : State) (m : Bool) (bs : Bytes) :
    (s.feed m bs).bufSize = s.bufSize := by cases m <;> rfl
@[simp] theorem State.feed_issues (s : State) (m : Bool) (bs : Bytes) :
    (s.feed m bs).issues = s.issues := by cases m <;> rfl
@[simp] theorem State.feed_delay (s : State) (m : Bool) (bs : Bytes) :
    (s.feed m bs).delay = s.delay := by cases m <;> rfl
@[simp] theorem State.feed_host (s : State) (m : Bool) (bs : Bytes) :
    (s.feed m bs).host = s.host := by cases m <;> rfl

/-! ### zeroized -/

@[simp] theorem State.zeroized_irqEn (s : State) : (s.zeroized).irqEn = s.irqEn := rfl
@[simp] theorem State.zeroized_done (s : State) : (s.zeroized).done = s.done := rfl
@[simp] theorem State.zeroized_err (s : State) : (s.zeroized).err = s.err := rfl
@[simp] theorem State.zeroized_authOk (s : State) : (s.zeroized).authOk = s.authOk := rfl
@[simp] theorem State.zeroized_ovf (s : State) : (s.zeroized).ovf = s.ovf := rfl
@[simp] theorem State.zeroized_errcode (s : State) : (s.zeroized).errcode = s.errcode := rfl
@[simp] theorem State.zeroized_cmdr (s : State) : (s.zeroized).cmdr = s.cmdr := rfl
@[simp] theorem State.zeroized_src (s : State) : (s.zeroized).src = s.src := rfl
@[simp] theorem State.zeroized_dst (s : State) : (s.zeroized).dst = s.dst := rfl
@[simp] theorem State.zeroized_len (s : State) : (s.zeroized).len = s.len := rfl
@[simp] theorem State.zeroized_iter (s : State) : (s.zeroized).iter = s.iter := rfl
@[simp] theorem State.zeroized_lmod (s : State) : (s.zeroized).lmod = 0#4 := rfl
@[simp] theorem State.zeroized_outlen (s : State) : (s.zeroized).outlen = 0#32 := rfl
@[simp] theorem State.zeroized_ivr (s : State) : (s.zeroized).ivr = Vector.replicate 4 0#32 := rfl
@[simp] theorem State.zeroized_keys (s : State) :
    (s.zeroized).keys = Vector.replicate 4 (Vector.replicate 8 0#32) := rfl
@[simp] theorem State.zeroized_result (s : State) : (s.zeroized).result = Vector.replicate 16 0#32 := rfl
@[simp] theorem State.zeroized_buf (s : State) : (s.zeroized).buf = [] := rfl
@[simp] theorem State.zeroized_context (s : State) : (s.zeroized).context = .inactive := rfl
@[simp] theorem State.zeroized_phase (s : State) : (s.zeroized).phase = s.phase := rfl
@[simp] theorem State.zeroized_bufSize (s : State) : (s.zeroized).bufSize = s.bufSize := rfl
@[simp] theorem State.zeroized_issues (s : State) : (s.zeroized).issues = s.issues := rfl
@[simp] theorem State.zeroized_delay (s : State) : (s.zeroized).delay = s.delay := rfl
@[simp] theorem State.zeroized_host (s : State) : (s.zeroized).host = s.host := rfl

/-! ### dropWrite -/

@[simp] theorem State.dropWrite_irqEn (s : State) : (s.dropWrite).irqEn = s.irqEn := rfl
@[simp] theorem State.dropWrite_done (s : State) : (s.dropWrite).done = s.done := rfl
@[simp] theorem State.dropWrite_err (s : State) : (s.dropWrite).err = s.err := rfl
@[simp] theorem State.dropWrite_authOk (s : State) : (s.dropWrite).authOk = s.authOk := rfl
@[simp] theorem State.dropWrite_ovf (s : State) : (s.dropWrite).ovf = true := rfl
@[simp] theorem State.dropWrite_errcode (s : State) : (s.dropWrite).errcode = s.errcode := rfl
@[simp] theorem State.dropWrite_cmdr (s : State) : (s.dropWrite).cmdr = s.cmdr := rfl
@[simp] theorem State.dropWrite_src (s : State) : (s.dropWrite).src = s.src := rfl
@[simp] theorem State.dropWrite_dst (s : State) : (s.dropWrite).dst = s.dst := rfl
@[simp] theorem State.dropWrite_len (s : State) : (s.dropWrite).len = s.len := rfl
@[simp] theorem State.dropWrite_iter (s : State) : (s.dropWrite).iter = s.iter := rfl
@[simp] theorem State.dropWrite_lmod (s : State) : (s.dropWrite).lmod = s.lmod := rfl
@[simp] theorem State.dropWrite_outlen (s : State) : (s.dropWrite).outlen = s.outlen := rfl
@[simp] theorem State.dropWrite_ivr (s : State) : (s.dropWrite).ivr = s.ivr := rfl
@[simp] theorem State.dropWrite_keys (s : State) : (s.dropWrite).keys = s.keys := rfl
@[simp] theorem State.dropWrite_result (s : State) : (s.dropWrite).result = s.result := rfl
@[simp] theorem State.dropWrite_buf (s : State) : (s.dropWrite).buf = s.buf := rfl
@[simp] theorem State.dropWrite_context (s : State) : (s.dropWrite).context = s.context := rfl
@[simp] theorem State.dropWrite_phase (s : State) : (s.dropWrite).phase = s.phase := rfl
@[simp] theorem State.dropWrite_bufSize (s : State) : (s.dropWrite).bufSize = s.bufSize := rfl
@[simp] theorem State.dropWrite_issues (s : State) : (s.dropWrite).issues = s.issues := rfl
@[simp] theorem State.dropWrite_delay (s : State) : (s.dropWrite).delay = s.delay := rfl
@[simp] theorem State.dropWrite_host (s : State) : (s.dropWrite).host = s.host := rfl

/-! ### hostAfter -/

@[simp] theorem State.hostAfter_irqEn (s : State) (p : List HostStmt) (r : BusResponse) :
    (s.hostAfter p r).irqEn = s.irqEn := rfl
@[simp] theorem State.hostAfter_done (s : State) (p : List HostStmt) (r : BusResponse) :
    (s.hostAfter p r).done = s.done := rfl
@[simp] theorem State.hostAfter_err (s : State) (p : List HostStmt) (r : BusResponse) :
    (s.hostAfter p r).err = s.err := rfl
@[simp] theorem State.hostAfter_authOk (s : State) (p : List HostStmt) (r : BusResponse) :
    (s.hostAfter p r).authOk = s.authOk := rfl
@[simp] theorem State.hostAfter_ovf (s : State) (p : List HostStmt) (r : BusResponse) :
    (s.hostAfter p r).ovf = s.ovf := rfl
@[simp] theorem State.hostAfter_errcode (s : State) (p : List HostStmt) (r : BusResponse) :
    (s.hostAfter p r).errcode = s.errcode := rfl
@[simp] theorem State.hostAfter_cmdr (s : State) (p : List HostStmt) (r : BusResponse) :
    (s.hostAfter p r).cmdr = s.cmdr := rfl
@[simp] theorem State.hostAfter_src (s : State) (p : List HostStmt) (r : BusResponse) :
    (s.hostAfter p r).src = s.src := rfl
@[simp] theorem State.hostAfter_dst (s : State) (p : List HostStmt) (r : BusResponse) :
    (s.hostAfter p r).dst = s.dst := rfl
@[simp] theorem State.hostAfter_len (s : State) (p : List HostStmt) (r : BusResponse) :
    (s.hostAfter p r).len = s.len := rfl
@[simp] theorem State.hostAfter_iter (s : State) (p : List HostStmt) (r : BusResponse) :
    (s.hostAfter p r).iter = s.iter := rfl
@[simp] theorem State.hostAfter_lmod (s : State) (p : List HostStmt) (r : BusResponse) :
    (s.hostAfter p r).lmod = s.lmod := rfl
@[simp] theorem State.hostAfter_outlen (s : State) (p : List HostStmt) (r : BusResponse) :
    (s.hostAfter p r).outlen = s.outlen := rfl
@[simp] theorem State.hostAfter_ivr (s : State) (p : List HostStmt) (r : BusResponse) :
    (s.hostAfter p r).ivr = s.ivr := rfl
@[simp] theorem State.hostAfter_keys (s : State) (p : List HostStmt) (r : BusResponse) :
    (s.hostAfter p r).keys = s.keys := rfl
@[simp] theorem State.hostAfter_result (s : State) (p : List HostStmt) (r : BusResponse) :
    (s.hostAfter p r).result = s.result := rfl
@[simp] theorem State.hostAfter_buf (s : State) (p : List HostStmt) (r : BusResponse) :
    (s.hostAfter p r).buf = s.buf := rfl
@[simp] theorem State.hostAfter_context (s : State) (p : List HostStmt) (r : BusResponse) :
    (s.hostAfter p r).context = s.context := rfl
@[simp] theorem State.hostAfter_phase (s : State) (p : List HostStmt) (r : BusResponse) :
    (s.hostAfter p r).phase = s.phase := rfl
@[simp] theorem State.hostAfter_bufSize (s : State) (p : List HostStmt) (r : BusResponse) :
    (s.hostAfter p r).bufSize = s.bufSize := rfl
@[simp] theorem State.hostAfter_issues (s : State) (p : List HostStmt) (r : BusResponse) :
    (s.hostAfter p r).issues = s.issues := rfl
@[simp] theorem State.hostAfter_delay (s : State) (p : List HostStmt) (r : BusResponse) :
    (s.hostAfter p r).delay = s.delay := rfl
@[simp] theorem State.hostAfter_host (s : State) (p : List HostStmt) (r : BusResponse) :
    (s.hostAfter p r).host = { s.host with program := p, last := r } := rfl

/-! ### hostKeep -/

@[simp] theorem State.hostKeep_irqEn (s : State) (p : List HostStmt) (r : BusResponse) (b : Bytes) :
    (s.hostKeep p r b).irqEn = s.irqEn := rfl
@[simp] theorem State.hostKeep_done (s : State) (p : List HostStmt) (r : BusResponse) (b : Bytes) :
    (s.hostKeep p r b).done = s.done := rfl
@[simp] theorem State.hostKeep_err (s : State) (p : List HostStmt) (r : BusResponse) (b : Bytes) :
    (s.hostKeep p r b).err = s.err := rfl
@[simp] theorem State.hostKeep_authOk (s : State) (p : List HostStmt) (r : BusResponse) (b : Bytes) :
    (s.hostKeep p r b).authOk = s.authOk := rfl
@[simp] theorem State.hostKeep_ovf (s : State) (p : List HostStmt) (r : BusResponse) (b : Bytes) :
    (s.hostKeep p r b).ovf = s.ovf := rfl
@[simp] theorem State.hostKeep_errcode (s : State) (p : List HostStmt) (r : BusResponse) (b : Bytes) :
    (s.hostKeep p r b).errcode = s.errcode := rfl
@[simp] theorem State.hostKeep_cmdr (s : State) (p : List HostStmt) (r : BusResponse) (b : Bytes) :
    (s.hostKeep p r b).cmdr = s.cmdr := rfl
@[simp] theorem State.hostKeep_src (s : State) (p : List HostStmt) (r : BusResponse) (b : Bytes) :
    (s.hostKeep p r b).src = s.src := rfl
@[simp] theorem State.hostKeep_dst (s : State) (p : List HostStmt) (r : BusResponse) (b : Bytes) :
    (s.hostKeep p r b).dst = s.dst := rfl
@[simp] theorem State.hostKeep_len (s : State) (p : List HostStmt) (r : BusResponse) (b : Bytes) :
    (s.hostKeep p r b).len = s.len := rfl
@[simp] theorem State.hostKeep_iter (s : State) (p : List HostStmt) (r : BusResponse) (b : Bytes) :
    (s.hostKeep p r b).iter = s.iter := rfl
@[simp] theorem State.hostKeep_lmod (s : State) (p : List HostStmt) (r : BusResponse) (b : Bytes) :
    (s.hostKeep p r b).lmod = s.lmod := rfl
@[simp] theorem State.hostKeep_outlen (s : State) (p : List HostStmt) (r : BusResponse) (b : Bytes) :
    (s.hostKeep p r b).outlen = s.outlen := rfl
@[simp] theorem State.hostKeep_ivr (s : State) (p : List HostStmt) (r : BusResponse) (b : Bytes) :
    (s.hostKeep p r b).ivr = s.ivr := rfl
@[simp] theorem State.hostKeep_keys (s : State) (p : List HostStmt) (r : BusResponse) (b : Bytes) :
    (s.hostKeep p r b).keys = s.keys := rfl
@[simp] theorem State.hostKeep_result (s : State) (p : List HostStmt) (r : BusResponse) (b : Bytes) :
    (s.hostKeep p r b).result = s.result := rfl
@[simp] theorem State.hostKeep_buf (s : State) (p : List HostStmt) (r : BusResponse) (b : Bytes) :
    (s.hostKeep p r b).buf = s.buf := rfl
@[simp] theorem State.hostKeep_context (s : State) (p : List HostStmt) (r : BusResponse) (b : Bytes) :
    (s.hostKeep p r b).context = s.context := rfl
@[simp] theorem State.hostKeep_phase (s : State) (p : List HostStmt) (r : BusResponse) (b : Bytes) :
    (s.hostKeep p r b).phase = s.phase := rfl
@[simp] theorem State.hostKeep_bufSize (s : State) (p : List HostStmt) (r : BusResponse) (b : Bytes) :
    (s.hostKeep p r b).bufSize = s.bufSize := rfl
@[simp] theorem State.hostKeep_issues (s : State) (p : List HostStmt) (r : BusResponse) (b : Bytes) :
    (s.hostKeep p r b).issues = s.issues := rfl
@[simp] theorem State.hostKeep_delay (s : State) (p : List HostStmt) (r : BusResponse) (b : Bytes) :
    (s.hostKeep p r b).delay = s.delay := rfl
@[simp] theorem State.hostKeep_host (s : State) (p : List HostStmt) (r : BusResponse) (b : Bytes) :
    (s.hostKeep p r b).host = { s.host with program := p, last := r, got := s.host.got ++ b } := rfl

/-! ### hostContinue -/

@[simp] theorem State.hostContinue_irqEn (s : State) (p : List HostStmt) :
    (s.hostContinue p).irqEn = s.irqEn := rfl
@[simp] theorem State.hostContinue_done (s : State) (p : List HostStmt) :
    (s.hostContinue p).done = s.done := rfl
@[simp] theorem State.hostContinue_err (s : State) (p : List HostStmt) : (s.hostContinue p).err = s.err := rfl
@[simp] theorem State.hostContinue_authOk (s : State) (p : List HostStmt) :
    (s.hostContinue p).authOk = s.authOk := rfl
@[simp] theorem State.hostContinue_ovf (s : State) (p : List HostStmt) : (s.hostContinue p).ovf = s.ovf := rfl
@[simp] theorem State.hostContinue_errcode (s : State) (p : List HostStmt) :
    (s.hostContinue p).errcode = s.errcode := rfl
@[simp] theorem State.hostContinue_cmdr (s : State) (p : List HostStmt) :
    (s.hostContinue p).cmdr = s.cmdr := rfl
@[simp] theorem State.hostContinue_src (s : State) (p : List HostStmt) : (s.hostContinue p).src = s.src := rfl
@[simp] theorem State.hostContinue_dst (s : State) (p : List HostStmt) : (s.hostContinue p).dst = s.dst := rfl
@[simp] theorem State.hostContinue_len (s : State) (p : List HostStmt) : (s.hostContinue p).len = s.len := rfl
@[simp] theorem State.hostContinue_iter (s : State) (p : List HostStmt) :
    (s.hostContinue p).iter = s.iter := rfl
@[simp] theorem State.hostContinue_lmod (s : State) (p : List HostStmt) :
    (s.hostContinue p).lmod = s.lmod := rfl
@[simp] theorem State.hostContinue_outlen (s : State) (p : List HostStmt) :
    (s.hostContinue p).outlen = s.outlen := rfl
@[simp] theorem State.hostContinue_ivr (s : State) (p : List HostStmt) : (s.hostContinue p).ivr = s.ivr := rfl
@[simp] theorem State.hostContinue_keys (s : State) (p : List HostStmt) :
    (s.hostContinue p).keys = s.keys := rfl
@[simp] theorem State.hostContinue_result (s : State) (p : List HostStmt) :
    (s.hostContinue p).result = s.result := rfl
@[simp] theorem State.hostContinue_buf (s : State) (p : List HostStmt) : (s.hostContinue p).buf = s.buf := rfl
@[simp] theorem State.hostContinue_context (s : State) (p : List HostStmt) :
    (s.hostContinue p).context = s.context := rfl
@[simp] theorem State.hostContinue_phase (s : State) (p : List HostStmt) :
    (s.hostContinue p).phase = s.phase := rfl
@[simp] theorem State.hostContinue_bufSize (s : State) (p : List HostStmt) :
    (s.hostContinue p).bufSize = s.bufSize := rfl
@[simp] theorem State.hostContinue_issues (s : State) (p : List HostStmt) :
    (s.hostContinue p).issues = s.issues := rfl
@[simp] theorem State.hostContinue_delay (s : State) (p : List HostStmt) :
    (s.hostContinue p).delay = s.delay := rfl
@[simp] theorem State.hostContinue_host (s : State) (p : List HostStmt) :
    (s.hostContinue p).host = { s.host with program := p } := rfl

/-! ### hostRaise -/

@[simp] theorem State.hostRaise_irqEn (s : State) (k : ErrorKind) : (s.hostRaise k).irqEn = s.irqEn := rfl
@[simp] theorem State.hostRaise_done (s : State) (k : ErrorKind) : (s.hostRaise k).done = s.done := rfl
@[simp] theorem State.hostRaise_err (s : State) (k : ErrorKind) : (s.hostRaise k).err = s.err := rfl
@[simp] theorem State.hostRaise_authOk (s : State) (k : ErrorKind) : (s.hostRaise k).authOk = s.authOk := rfl
@[simp] theorem State.hostRaise_ovf (s : State) (k : ErrorKind) : (s.hostRaise k).ovf = s.ovf := rfl
@[simp] theorem State.hostRaise_errcode (s : State) (k : ErrorKind) :
    (s.hostRaise k).errcode = s.errcode := rfl
@[simp] theorem State.hostRaise_cmdr (s : State) (k : ErrorKind) : (s.hostRaise k).cmdr = s.cmdr := rfl
@[simp] theorem State.hostRaise_src (s : State) (k : ErrorKind) : (s.hostRaise k).src = s.src := rfl
@[simp] theorem State.hostRaise_dst (s : State) (k : ErrorKind) : (s.hostRaise k).dst = s.dst := rfl
@[simp] theorem State.hostRaise_len (s : State) (k : ErrorKind) : (s.hostRaise k).len = s.len := rfl
@[simp] theorem State.hostRaise_iter (s : State) (k : ErrorKind) : (s.hostRaise k).iter = s.iter := rfl
@[simp] theorem State.hostRaise_lmod (s : State) (k : ErrorKind) : (s.hostRaise k).lmod = s.lmod := rfl
@[simp] theorem State.hostRaise_outlen (s : State) (k : ErrorKind) : (s.hostRaise k).outlen = s.outlen := rfl
@[simp] theorem State.hostRaise_ivr (s : State) (k : ErrorKind) : (s.hostRaise k).ivr = s.ivr := rfl
@[simp] theorem State.hostRaise_keys (s : State) (k : ErrorKind) : (s.hostRaise k).keys = s.keys := rfl
@[simp] theorem State.hostRaise_result (s : State) (k : ErrorKind) : (s.hostRaise k).result = s.result := rfl
@[simp] theorem State.hostRaise_buf (s : State) (k : ErrorKind) : (s.hostRaise k).buf = s.buf := rfl
@[simp] theorem State.hostRaise_context (s : State) (k : ErrorKind) :
    (s.hostRaise k).context = s.context := rfl
@[simp] theorem State.hostRaise_phase (s : State) (k : ErrorKind) : (s.hostRaise k).phase = s.phase := rfl
@[simp] theorem State.hostRaise_bufSize (s : State) (k : ErrorKind) :
    (s.hostRaise k).bufSize = s.bufSize := rfl
@[simp] theorem State.hostRaise_issues (s : State) (k : ErrorKind) : (s.hostRaise k).issues = s.issues := rfl
@[simp] theorem State.hostRaise_delay (s : State) (k : ErrorKind) : (s.hostRaise k).delay = s.delay := rfl
@[simp] theorem State.hostRaise_host (s : State) (k : ErrorKind) :
    (s.hostRaise k).host = { s.host with program := [], raised := some k } := rfl

/-! ### resetEngine -/

@[simp] theorem State.resetEngine_irqEn (s : State) : (s.resetEngine).irqEn = false := rfl
@[simp] theorem State.resetEngine_done (s : State) : (s.resetEngine).done = false := rfl
@[simp] theorem State.resetEngine_err (s : State) : (s.resetEngine).err = false := rfl
@[simp] theorem State.resetEngine_authOk (s : State) : (s.resetEngine).authOk = false := rfl
@[simp] theorem State.resetEngine_ovf (s : State) : (s.resetEngine).ovf = false := rfl
@[simp] theorem State.resetEngine_errcode (s : State) : (s.resetEngine).errcode = .ok := rfl
@[simp] theorem State.resetEngine_cmdr (s : State) : (s.resetEngine).cmdr = 0#32 := rfl
@[simp] theorem State.resetEngine_src (s : State) : (s.resetEngine).src = 0#32 := rfl
@[simp] theorem State.resetEngine_dst (s : State) : (s.resetEngine).dst = 0#32 := rfl
@[simp] theorem State.resetEngine_len (s : State) : (s.resetEngine).len = 0#32 := rfl
@[simp] theorem State.resetEngine_iter (s : State) : (s.resetEngine).iter = Config.iterReset := rfl
@[simp] theorem State.resetEngine_lmod (s : State) : (s.resetEngine).lmod = 0#4 := rfl
@[simp] theorem State.resetEngine_outlen (s : State) : (s.resetEngine).outlen = 0#32 := rfl
@[simp] theorem State.resetEngine_ivr (s : State) : (s.resetEngine).ivr = Vector.replicate 4 0#32 := rfl
@[simp] theorem State.resetEngine_keys (s : State) :
    (s.resetEngine).keys = Vector.replicate 4 (Vector.replicate 8 0#32) := rfl
@[simp] theorem State.resetEngine_result (s : State) :
    (s.resetEngine).result = Vector.replicate 16 0#32 := rfl
@[simp] theorem State.resetEngine_buf (s : State) : (s.resetEngine).buf = [] := rfl
@[simp] theorem State.resetEngine_context (s : State) : (s.resetEngine).context = .inactive := rfl
@[simp] theorem State.resetEngine_phase (s : State) : (s.resetEngine).phase = .idle := rfl
@[simp] theorem State.resetEngine_bufSize (s : State) : (s.resetEngine).bufSize = s.bufSize := rfl
@[simp] theorem State.resetEngine_issues (s : State) : (s.resetEngine).issues = s.issues := rfl
@[simp] theorem State.resetEngine_delay (s : State) : (s.resetEngine).delay = 0 := rfl
@[simp] theorem State.resetEngine_host (s : State) : (s.resetEngine).host = s.host := rfl

end Sys2Proof.Machine
end

