-- ==== Sys2Proof/Laws/Ops.lean ====
section
/-! SUPPORT. Once for each shared operation, everything it can do: the checks, the MAC feed, the CBC passes, a host
write, a host statement, the completion and the step. -/

namespace Sys2Proof.Machine

/-! ### Checks -/

/-- No check fails iff every condition is false. -/
theorem firstFailure_eq_none_iff (checks : List (Bool × Code)) :
    firstFailure checks = none ↔ ∀ x ∈ checks, x.1 = false := by
  induction checks with
  | nil => simp [firstFailure]
  | cons x rest ih =>
    obtain ⟨b, c⟩ := x
    cases b <;> simp [firstFailure, ih]

/-- The code a validation raises belongs to a check that fails. -/
theorem firstFailure_mem {checks : List (Bool × Code)} {c : Code} (h : firstFailure checks = some c) :
    (true, c) ∈ checks := by
  induction checks with
  | nil => simp [firstFailure] at h
  | cons x rest ih =>
    obtain ⟨b, d⟩ := x
    cases b
    · exact List.mem_cons_of_mem _ (ih h)
    · simp only [firstFailure, if_true, Option.some.injEq] at h
      simp [h]

/-- A command with checks raises the first that fails and does nothing else, or runs (R132, R364). -/
theorem State.validated_cases (s : State) (checks : List (Bool × Code)) (run : State → State) :
    (∃ c, firstFailure checks = some c ∧ s.validated checks run = s.finish false c) ∨
    (firstFailure checks = none ∧ s.validated checks run = run s) := by
  unfold State.validated
  cases h : firstFailure checks with
  | none => exact .inr ⟨rfl, rfl⟩
  | some c => exact .inl ⟨c, rfl, rfl⟩

theorem State.validated_of_none {s : State} {checks : List (Bool × Code)} (run : State → State)
    (h : firstFailure checks = none) : s.validated checks run = run s := by simp [State.validated, h]

theorem State.validated_of_some {s : State} {checks : List (Bool × Code)} (run : State → State) {c : Code}
    (h : firstFailure checks = some c) : s.validated checks run = s.finish false c := by
  simp [State.validated, h]

/-! ### The context -/

theorem Context.absorb_nil (c : Context) : c.absorb [] = c := by cases c <;> simp [Context.absorb]

/-- Absorbing twice is absorbing the concatenation (R291). -/
theorem Context.absorb_absorb (c : Context) (x y : Bytes) : (c.absorb x).absorb y = c.absorb (x ++ y) := by
  cases c <;> simp [Context.absorb]

@[simp] theorem Context.absorb_isInactive (c : Context) (x : Bytes) : (c.absorb x).isInactive = c.isInactive := by
  cases c <;> rfl

theorem Context.absorb_msgLength (c : Context) (x : Bytes) (h : c.isInactive = false) :
    (c.absorb x).msgLength = c.msgLength + x.length := by
  cases c with
  | inactive => cases h
  | active kind hash key msg => simp [Context.absorb, Context.msgLength]

/-- The MAC feed as one record update (R243). -/
theorem State.feed_eq (s : State) (m : Bool) (bs : Bytes) :
    s.feed m bs = { s with context := if m then s.context.absorb bs else s.context } := by
  cases m <;> rfl

/-! ### The CBC passes -/

/-- What an encryption writes, as one record update (R242, R243, R246). -/
theorem State.cbcEncrypt_eq (s : State) (ks : KeySlot) (m : Bool) (padded : Bytes) :
    s.cbcEncrypt ks m padded =
      { s with
        buf := s.buf.writeBytes s.dstN (Sys2Proof.Machine.cbcEnc (s.keyBytes ks) s.ivrBytes padded).1
        ivr := wordsOfBytes 4 (Sys2Proof.Machine.cbcEnc (s.keyBytes ks) s.ivrBytes padded).2
        context :=
          if m then s.context.absorb (Sys2Proof.Machine.cbcEnc (s.keyBytes ks) s.ivrBytes padded).1
          else s.context
        outlen := BitVec.ofNat 32 (Sys2Proof.Machine.cbcEnc (s.keyBytes ks) s.ivrBytes padded).1.length } := by
  cases m <;> rfl

/-- What a decryption writes, as one record update (R242, R243, R251). -/
theorem State.cbcDecrypt_eq (s : State) (ks : KeySlot) (m : Bool) :
    s.cbcDecrypt ks m =
      { s with
        buf := s.buf.writeBytes s.dstN (Sys2Proof.Machine.cbcDec (s.keyBytes ks) s.ivrBytes s.input).1
        ivr := wordsOfBytes 4 (Sys2Proof.Machine.cbcDec (s.keyBytes ks) s.ivrBytes s.input).2
        context := if m then s.context.absorb s.input else s.context } := by
  cases m <;> rfl

@[simp] theorem pkcs7Pad_length (p : Bytes) : (pkcs7Pad p).length = p.length + pkcs7Count p.length := by
  simp [pkcs7Pad]

@[simp] theorem legacyPad_length (p : Bytes) : (legacyPad p).length = p.length + legacyCount p.length := by
  simp [legacyPad]

/-- A PKCS#7 padded string has whole blocks (R241). -/
theorem pkcs7Pad_blocks (p : Bytes) : (pkcs7Pad p).length % 16 = 0 := by
  simp only [pkcs7Pad_length, pkcs7Count]; omega

/-- A Legacy padded string has whole blocks (R241). -/
theorem legacyPad_blocks (p : Bytes) : (legacyPad p).length % 16 = 0 := by
  simp only [legacyPad_length, legacyCount]; omega

/-! ### Host writes -/

/-- A host write changes nothing and errs, or is dropped while Busy, or reaches a register, or reaches BUF
(R71, R73, R78). -/
theorem State.busWrite_cases (s : State) (t : BusAddr) (w : Width) (v : Word) :
    s.busWrite t w v = (s, true) ∨
    (s.busy = true ∧ s.busWrite t w v = (s.dropWrite, false)) ∨
    (∃ r, (s.busy = true → r.writableWhileBusy = true) ∧ s.busWrite t w v = (s.regWrite r v, false)) ∨
    (s.busy = false ∧ ∃ i, i % w.bytes = 0 ∧ s.busWrite t w v = (s.bufStore i w v, false)) := by
  cases t with
  | outside => exact .inl rfl
  | window a =>
    simp only [State.busWrite]
    split
    · exact .inl rfl
    · next hl =>
      split
      · split
        · next h =>
          simp only [Bool.and_eq_true] at h
          exact .inr (.inl ⟨h.1, rfl⟩)
        · next h =>
          refine .inr (.inr (.inl ⟨regAt (a.toNat / 4), fun hb => ?_, rfl⟩))
          simpa [hb] using h
      · next hr =>
        split
        · next hb => exact .inr (.inl ⟨hb, rfl⟩)
        · next hb =>
          refine .inr (.inr (.inr ⟨by simpa using hb, a.toNat - bufBase, ?_, rfl⟩))
          simp only [legalAccess, if_neg hr, Bool.not_eq_true', beq_iff_eq, Bool.not_eq_false] at hl
          have h8 : bufBase % w.bytes = 0 := by cases w <;> rfl
          rw [Nat.sub_mod_eq_zero_of_mod_eq (by omega)]

/-- While Busy only CTRL and STATUS take a write (R78). -/
theorem Reg.writableWhileBusy_iff (r : Reg) : r.writableWhileBusy = true ↔ r = .ctrl ∨ r = .status := by
  cases r <;> simp [Reg.writableWhileBusy]

theorem Width.bytes_le (w : Width) : w.bytes ≤ 4 := by cases w <;> decide

theorem BufSize.bytes_mod (b : BufSize) (w : Width) : b.bytes % w.bytes = 0 := by cases b <;> cases w <;> rfl

/-- An aligned write that starts inside BUF ends inside it (R7, R71). -/
theorem State.store_inside (s : State) {i : Nat} {w : Width} (hi : i % w.bytes = 0) (h : i < s.bufBytes) :
    i + w.bytes ≤ s.bufBytes := by
  have hb := BufSize.bytes_mod s.bufSize w
  unfold State.bufBytes at *
  cases w <;> simp only [Width.bytes] at * <;> omega

@[simp] theorem wordBytes_take_length (v : Word) (w : Width) : ((wordBytes v).take w.bytes).length = w.bytes := by
  have := Width.bytes_le w
  simp; omega

/-- A write to the buffer region as one record update: it changes BUF alone. -/
theorem State.bufStore_eq (s : State) (i : Nat) (w : Width) (v : Word) :
    s.bufStore i w v =
      { s with
        buf := if i < s.bufBytes then s.buf.writeBytes i ((wordBytes v).take w.bytes) else s.buf } := by
  unfold State.bufStore
  split <;> rfl

/-! ### Host statements -/

/-- What a host statement does to the engine: a bus write for `wr`, a reset for the power-on event, nothing for
every other; the rest of its effect is on the host agent. -/
theorem runStmt_engine (st : HostStmt) (rest : List HostStmt) (s : State) :
    (∃ h, runStmt st rest s = { s with host := h }) ∨
    (∃ a w v h, st = .wr a w v ∧ runStmt st rest s = { (s.busWrite a w v).1 with host := h }) ∨
    (∃ h, st = .powerOnReset ∧ runStmt st rest s = { s.resetEngine with host := h }) := by
  cases st with
  | wr a w v => exact .inr (.inl ⟨a, w, v, _, rfl, rfl⟩)
  | powerOnReset => exact .inr (.inr ⟨_, rfl, rfl⟩)
  | chk =>
    refine .inl ?_
    simp only [runStmt]
    split <;> exact ⟨_, rfl⟩
  | rd a w => exact .inl ⟨_, rfl⟩
  | get a w k => exact .inl ⟨_, rfl⟩
  | getOutput o => exact .inl ⟨_, rfl⟩
  | wait => exact .inl ⟨_, rfl⟩
  | emit bs => exact .inl ⟨_, rfl⟩
  | emitGot i n => exact .inl ⟨_, rfl⟩
  | clearGot => exact .inl ⟨_, rfl⟩
  | raise k => exact .inl ⟨_, rfl⟩
  | openContent args => exact .inl ⟨_, rfl⟩

/-- What a host step does to the engine, the delay counted down first. -/
theorem hostStep_engine (s : State) :
    (∃ h, hostStep s = { s with delay := s.delay - 1, host := h }) ∨
    (∃ a w v h rest, s.host.program = .wr a w v :: rest ∧
      hostStep s = { (State.busWrite { s with delay := s.delay - 1 } a w v).1 with host := h }) ∨
    (∃ h rest, s.host.program = .powerOnReset :: rest ∧
      hostStep s = { State.resetEngine { s with delay := s.delay - 1 } with host := h }) := by
  unfold hostStep
  split
  · exact .inl ⟨s.host, rfl⟩
  · next st rest hp =>
    rcases runStmt_engine st rest { s with delay := s.delay - 1 } with ⟨h, e⟩ | ⟨a, w, v, h, rfl, e⟩ | ⟨h, rfl, e⟩
    · exact .inl ⟨h, e⟩
    · exact .inr (.inl ⟨a, w, v, h, rest, hp, e⟩)
    · exact .inr (.inr ⟨h, rest, hp, e⟩)

/-! ### Completion and step -/

/-- Every command has a next state in every state (R378). -/
theorem exec_next (i : Instr) (s : State) : ∃ t, exec i s = .next t := by cases i <;> exact ⟨_, rfl⟩

theorem completion_cases {s t : State} (h : completion s = .next t) :
    (∃ i, decode s.cmdr = some i ∧ exec i s = .next t) ∨ (decode s.cmdr = none ∧ t = s.finish false .illegal) := by
  unfold completion at h
  split at h
  · next i hi => exact .inl ⟨i, hi, h⟩
  · next hi => exact .inr ⟨hi, by simpa [execIllegal] using h.symm⟩

/-- Everything a step can do: complete a command, complete an illegal word, or move the host (R9, R108, R131). -/
theorem step_cases {s t : State} (h : step s = .next t) :
    (s.engineTurn = true ∧ ∃ i, decode s.cmdr = some i ∧ exec i s = .next t) ∨
    (s.engineTurn = true ∧ decode s.cmdr = none ∧ t = s.finish false .illegal) ∨
    (s.engineTurn = false ∧ t = hostStep s) := by
  unfold step at h
  split at h
  · next he =>
    rcases completion_cases h with h | h
    · exact .inl ⟨he, h⟩
    · exact .inr (.inl ⟨he, h⟩)
  · next he => exact .inr (.inr ⟨by simpa using he, by simpa using h.symm⟩)

/-- The engine moves iff a command is outstanding with no delay left. -/
theorem State.engineTurn_iff (s : State) : s.engineTurn = true ↔ s.phase = .busy ∧ s.delay = 0 := by
  simp [State.engineTurn, State.busy]

end Sys2Proof.Machine
end

