-- ==== Sys2Proof/Laws/Bus.lean ====
section
/-! SUPPORT. The laws of the host's bus: what an offset of the register map names, and one equation each for a read and
a write of the register region and of the buffer region. -/

namespace Sys2Proof.Machine

/-! ### The register map (R23) -/

/-- From the IVR words on, the register map is a matter of ranges. -/
theorem regAt_of_ge (n : Nat) (h : 12 ≤ n) :
    regAt n =
      if 0x40 / 4 ≤ n ∧ n < 0x50 / 4 then .ivr (Fin.ofNat 4 (n - 0x40 / 4))
      else if 0x80 / 4 ≤ n ∧ n < 0x100 / 4 then
        .key (Fin.ofNat 4 ((n - 0x80 / 4) / 8)) (Fin.ofNat 8 ((n - 0x80 / 4) % 8))
      else if 0x100 / 4 ≤ n ∧ n < 0x140 / 4 then .res (Fin.ofNat 16 (n - 0x100 / 4))
      else .reserved := by
  obtain ⟨k, rfl⟩ : ∃ k, n = k + 12 := ⟨n - 12, by omega⟩
  rfl

/-- The registers past the first 12 are locked while Busy (R78). -/
theorem regAt_locked (n : Nat) (h : 12 ≤ n) :
    (regAt n).readableWhileBusy = false ∧ (regAt n).writableWhileBusy = false := by
  rw [regAt_of_ge n h]
  split
  · exact ⟨rfl, rfl⟩
  · split
    · exact ⟨rfl, rfl⟩
    · split <;> exact ⟨rfl, rfl⟩

/-- The registers the lockout lets the host read (R78 (a)). -/
theorem regAt_readableWhileBusy (n : Nat) : (regAt n).readableWhileBusy = true ↔ n < 6 := by
  by_cases h : 12 ≤ n
  · simp [(regAt_locked n h).1]; omega
  · have h' : n < 12 := by omega
    clear h; revert n; decide

/-- The registers the lockout lets the host write (R78 (b)). -/
theorem regAt_writableWhileBusy (n : Nat) : (regAt n).writableWhileBusy = true ↔ n = 2 ∨ n = 3 := by
  by_cases h : 12 ≤ n
  · simp [(regAt_locked n h).2]; omega
  · have h' : n < 12 := by omega
    clear h; revert n; decide

/-- The reserved offsets of the register region (R23, R25). -/
theorem regAt_reserved (n : Nat) (h : (12 ≤ n ∧ n < 16) ∨ (20 ≤ n ∧ n < 32) ∨ 80 ≤ n) : regAt n = .reserved := by
  rw [regAt_of_ge n (by omega), if_neg (by omega), if_neg (by omega), if_neg (by omega)]

/-- The offsets of RESULT (R48). -/
theorem regAt_res (n : Nat) (h : 64 ≤ n ∧ n < 80) : ∃ j, regAt n = .res j := by
  rw [regAt_of_ge n (by omega), if_neg (by omega), if_neg (by omega), if_pos (by omega)]
  exact ⟨_, rfl⟩

/-- Only its own offset names CTRL. -/
theorem regAt_eq_ctrl (n : Nat) : regAt n = .ctrl ↔ n = 2 := by
  by_cases h : 12 ≤ n
  · refine ⟨fun e => ?_, fun e => by omega⟩
    have := (regAt_locked n h).2
    rw [e] at this; cases this
  · have h' : n < 12 := by omega
    clear h; revert n; decide

/-- Only its own offset names STATUS. -/
theorem regAt_eq_status (n : Nat) : regAt n = .status ↔ n = 3 := by
  by_cases h : 12 ≤ n
  · refine ⟨fun e => ?_, fun e => by omega⟩
    have := (regAt_locked n h).2
    rw [e] at this; cases this
  · have h' : n < 12 := by omega
    clear h; revert n; decide

/-! ### Legal accesses (R71) -/

/-- In the register region only aligned 32-bit accesses are legal. -/
theorem legalAccess_register {a : BitVec 16} (ha : a.toNat < 0x8000) (w : Width) :
    legalAccess a w = true ↔ w = .w4 ∧ a.toNat % 4 = 0 := by
  have hb : a.toNat < bufBase := ha
  rw [legalAccess, if_pos hb, Bool.and_eq_true, beq_iff_eq, beq_iff_eq]

/-- In the buffer region any aligned access is legal. -/
theorem legalAccess_buffer {a : BitVec 16} (ha : 0x8000 ≤ a.toNat) (w : Width) :
    legalAccess a w = true ↔ a.toNat % w.bytes = 0 := by
  have hb : ¬ a.toNat < bufBase := Nat.not_lt.2 ha
  rw [legalAccess, if_neg hb, beq_iff_eq]

/-! ### One equation for each kind of access -/

/-- A legal read of the register region. -/
theorem State.busRead_register (s : State) {a : BitVec 16} (ha : a.toNat < 0x8000) (h4 : a.toNat % 4 = 0) :
    s.busRead (.window a) .w4 =
      if s.busy && !(regAt (a.toNat / 4)).readableWhileBusy then ⟨false, 0#32⟩
      else ⟨false, s.regRead (regAt (a.toNat / 4))⟩ := by
  have hl := (legalAccess_register ha .w4).2 ⟨rfl, h4⟩
  have hb : a.toNat < bufBase := ha
  simp only [State.busRead, hl, hb, Bool.not_true, Bool.false_eq_true, if_false, if_true]

/-- A legal write of the register region. -/
theorem State.busWrite_register (s : State) {a : BitVec 16} (ha : a.toNat < 0x8000) (h4 : a.toNat % 4 = 0)
    (v : Word) :
    s.busWrite (.window a) .w4 v =
      if s.busy && !(regAt (a.toNat / 4)).writableWhileBusy then (s.dropWrite, false)
      else (s.regWrite (regAt (a.toNat / 4)) v, false) := by
  have hl := (legalAccess_register ha .w4).2 ⟨rfl, h4⟩
  have hb : a.toNat < bufBase := ha
  simp only [State.busWrite, hl, hb, Bool.not_true, Bool.false_eq_true, if_false, if_true]

/-- A legal read of the buffer region. -/
theorem State.busRead_buffer (s : State) {a : BitVec 16} {w : Width} (ha : 0x8000 ≤ a.toNat)
    (hl : legalAccess a w = true) :
    s.busRead (.window a) w = if s.busy then ⟨false, 0#32⟩ else ⟨false, s.bufLoad (a.toNat - bufBase) w⟩ := by
  have hb : ¬ a.toNat < bufBase := Nat.not_lt.2 ha
  simp only [State.busRead, hl, hb, Bool.not_true, Bool.false_eq_true, if_false]

/-- A legal write of the buffer region. -/
theorem State.busWrite_buffer (s : State) {a : BitVec 16} {w : Width} (ha : 0x8000 ≤ a.toNat)
    (hl : legalAccess a w = true) (v : Word) :
    s.busWrite (.window a) w v =
      if s.busy then (s.dropWrite, false) else (s.bufStore (a.toNat - bufBase) w v, false) := by
  have hb : ¬ a.toNat < bufBase := Nat.not_lt.2 ha
  simp only [State.busWrite, hl, hb, Bool.not_true, Bool.false_eq_true, if_false]

/-- A write that is not legal errs and changes nothing (R73). -/
theorem State.busWrite_illegal (s : State) {a : BitVec 16} {w : Width} (hl : legalAccess a w = false) (v : Word) :
    s.busWrite (.window a) w v = (s, true) := by
  simp only [State.busWrite, hl, Bool.not_false, if_true]

/-- A read that is not legal errs and gives 0 (R73). -/
theorem State.busRead_illegal (s : State) {a : BitVec 16} {w : Width} (hl : legalAccess a w = false) :
    s.busRead (.window a) w = ⟨true, 0#32⟩ := by
  simp only [State.busRead, hl, Bool.not_false, if_true]

/-- The phase as the Boolean BUSY. -/
theorem State.busy_iff (s : State) : s.busy = true ↔ s.phase = .busy := by simp [State.busy]

theorem State.busy_of_idle {s : State} (h : s.phase = .idle) : s.busy = false := by simp [State.busy, h]

/-- Everything a write into the window can do: a bus error, a write the lockout drops, a write to a register, or a store
into the buffer region (R71, R73, R78). -/
theorem State.busWrite_window_cases (s : State) (a : BitVec 16) (w : Width) (v : Word) :
    s.busWrite (.window a) w v = (s, true) ∨
    (s.busy = true ∧ legalAccess a w = true ∧ a.toNat ∉ [0x0008, 0x000C] ∧
      s.busWrite (.window a) w v = (s.dropWrite, false)) ∨
    (w = .w4 ∧ legalAccess a w = true ∧ (s.busy = true → a = 0x0008#16 ∨ a = 0x000C#16) ∧ a.toNat < 0x8000 ∧
      a.toNat % 4 = 0 ∧ s.busWrite (.window a) w v = (s.regWrite (regAt (a.toNat / 4)) v, false)) ∨
    (s.busy = false ∧ ∃ i, i % w.bytes = 0 ∧ s.busWrite (.window a) w v = (s.bufStore i w v, false)) := by
  cases hl : legalAccess a w with
  | false => exact .inl (State.busWrite_illegal s hl v)
  | true =>
    by_cases ha : a.toNat < 0x8000
    · obtain ⟨rfl, h4⟩ := (legalAccess_register ha w).1 hl
      rw [State.busWrite_register s ha h4]
      have hw := regAt_writableWhileBusy (a.toNat / 4)
      split
      · next h =>
        simp only [Bool.and_eq_true, Bool.not_eq_true'] at h
        refine .inr (.inl ⟨h.1, rfl, ?_, rfl⟩)
        rw [← Bool.not_eq_true, hw] at h
        simp; omega
      · next h =>
        refine .inr (.inr (.inl ⟨rfl, rfl, fun hb => ?_, ha, h4, rfl⟩))
        simp [hb] at h
        rcases hw.1 h with h | h
        · left; apply BitVec.eq_of_toNat_eq; simp; omega
        · right; apply BitVec.eq_of_toNat_eq; simp; omega
    · rw [State.busWrite_buffer s (by omega) hl]
      cases hb : s.busy with
      | true => exact .inr (.inl ⟨rfl, rfl, by simp; omega, rfl⟩)
      | false =>
        refine .inr (.inr (.inr ⟨rfl, a.toNat - bufBase, ?_, rfl⟩))
        have := (legalAccess_buffer (by omega) w).1 hl
        have h8 : bufBase % w.bytes = 0 := by cases w <;> rfl
        rw [Nat.sub_mod_eq_zero_of_mod_eq (by omega)]

end Sys2Proof.Machine
end

