-- ==== Sys2Proof/Laws/Operands.lean ====
section
/-! SUPPORT. The laws of the operand checks: each Boolean check as the condition the spec gives it, and the PKCS#7 strip
as the shape of the plaintext it accepts. -/

namespace Sys2Proof.Machine

/-- R81. -/
theorem State.rangeValid_iff (s : State) (o n : Nat) : s.rangeValid o n = true ↔ o + n ≤ s.bufBytes := by
  simp only [State.rangeValid, decide_eq_true_eq]

theorem State.inputBad_iff (s : State) : s.inputBad = true ↔ s.bufBytes < s.src.toNat + s.len.toNat := by
  unfold State.inputBad
  rw [Bool.not_eq_true', ← Bool.not_eq_true, State.rangeValid_iff, Nat.not_le]
  exact Iff.rfl

theorem State.inputBad_eq_false_iff (s : State) :
    s.inputBad = false ↔ s.src.toNat + s.len.toNat ≤ s.bufBytes := by
  rw [← Bool.not_eq_true, State.inputBad_iff, Nat.not_lt]

/-- Check 4 of R244. -/
theorem State.rangesBad_iff (s : State) (out : Nat) :
    (s.inputBad || !s.rangeValid s.dstN out) = true ↔
      s.bufBytes < s.src.toNat + s.len.toNat ∨ s.bufBytes < s.dst.toNat + out := by
  rw [Bool.or_eq_true, State.inputBad_iff, Bool.not_eq_true', ← Bool.not_eq_true, State.rangeValid_iff, Nat.not_le]
  exact Iff.rfl

/-- R82. -/
theorem rangesConflict_iff (a n d m : Nat) :
    rangesConflict a n d m = true ↔ 0 < n ∧ 0 < m ∧ a ≠ d ∧ a < d + m ∧ d < a + n := by
  simp only [rangesConflict, Bool.and_eq_true, decide_eq_true_eq, bne_iff_ne, and_assoc]

/-- R282. -/
theorem State.contextFull_iff (s : State) (n : Nat) :
    s.contextFull n = true ↔ 2 ^ 60 < s.context.msgLength + n := by
  rw [State.contextFull, decide_eq_true_eq]
  exact Iff.rfl

theorem Context.isInactive_iff (c : Context) : c.isInactive = true ↔ c = .inactive := by
  cases c <;> simp [Context.isInactive]

theorem State.lenNotBlocks_iff (s : State) : s.lenNotBlocks = true ↔ s.len.toNat % 16 ≠ 0 := by
  simp only [State.lenNotBlocks, bne_iff_ne]
  exact Iff.rfl

/-- The first check of both KDF commands, `LEN > PW_MAX_BYTES` (R223). -/
theorem State.passwordTooLong_iff (s : State) :
    decide (Config.pwMaxBytes < s.lenN) = true ↔ 2048 < s.len.toNat := by
  rw [decide_eq_true_eq]
  exact Iff.rfl

/-! ### PKCS#7 (R241, R257) -/

/-- A plaintext that ends in q bytes of value q is stripped of them. -/
theorem pkcs7Strip_append (p : Bytes) {q : Nat} (h1 : 1 ≤ q) (h2 : q ≤ 16) :
    pkcs7Strip (p ++ byteRep q q) = some q := by
  have hl : (p ++ byteRep q q).length = p.length + q := by simp
  have hg : (p ++ byteRep q q).getD ((p ++ byteRep q q).length - 1) 0x00#8 = BitVec.ofNat 8 q := by
    rw [hl, List.getD_eq_getElem?_getD, List.getElem?_append_right (by omega), byteRep,
      List.getElem?_replicate, if_pos (by omega)]
    rfl
  have hq : (BitVec.ofNat 8 q).toNat = q := by rw [BitVec.toNat_ofNat]; omega
  simp only [pkcs7Strip, hg, hq]
  rw [hl, if_pos ⟨h1, h2, by simp⟩]

/-- A plaintext that is stripped of q bytes ends in q bytes of value q. -/
theorem pkcs7Strip_some {r : Bytes} {q : Nat} (h : pkcs7Strip r = some q) :
    1 ≤ q ∧ q ≤ 16 ∧ r = r.take (r.length - q) ++ byteRep q q := by
  simp only [pkcs7Strip] at h
  split at h
  · next hh =>
    simp only [Option.some.injEq] at h
    subst h
    refine ⟨hh.1, hh.2.1, ?_⟩
    rw [← hh.2.2, List.take_append_drop]
  · cases h

/-- A padded plaintext is stripped of its padding (R241). -/
theorem pkcs7Strip_pkcs7Pad (p : Bytes) : pkcs7Strip (pkcs7Pad p) = some (pkcs7Count p.length) :=
  pkcs7Strip_append p (by unfold pkcs7Count; omega) (by unfold pkcs7Count; omega)

end Sys2Proof.Machine
end

