-- ==== Sys2Proof/Laws/PerInstr.lean ====
section
/-! SUPPORT. What holds of every command as syntax, one lemma a command: the word the encoder writes has 0 in every bit
its row does not admit (30_encoding.md R104, R106). -/

namespace Sys2Proof.Laws

/-- The encoder's word is well-formed: a defined opcode, reserved bits 0, 0 in every field the row does not admit. -/
def EncodedWordWellFormed.Statement (i : Instr) : Prop := (RawCommand.ofWord (encode i)).wellFormed = true

theorem EncodedWordWellFormed.nop :
    EncodedWordWellFormed.Statement .nop := by
  unfold EncodedWordWellFormed.Statement; decide

theorem EncodedWordWellFormed.zeroize :
    EncodedWordWellFormed.Statement .zeroize := by
  unfold EncodedWordWellFormed.Statement; decide

theorem EncodedWordWellFormed.kdfLegacy (ks : KeySlot) :
    EncodedWordWellFormed.Statement (.kdfLegacy ks) := by
  unfold EncodedWordWellFormed.Statement; revert ks; decide

theorem EncodedWordWellFormed.kdfPbkdf2 (ks : KeySlot) :
    EncodedWordWellFormed.Statement (.kdfPbkdf2 ks) := by
  unfold EncodedWordWellFormed.Statement; revert ks; decide

theorem EncodedWordWellFormed.cbcEnc (ks : KeySlot) (m : Bool) :
    EncodedWordWellFormed.Statement (.cbcEnc ks m) := by
  unfold EncodedWordWellFormed.Statement; revert ks m; decide

theorem EncodedWordWellFormed.cbcDec (ks : KeySlot) (m : Bool) :
    EncodedWordWellFormed.Statement (.cbcDec ks m) := by
  unfold EncodedWordWellFormed.Statement; revert ks m; decide

theorem EncodedWordWellFormed.cbcEncPkcs7 (ks : KeySlot) (m : Bool) :
    EncodedWordWellFormed.Statement (.cbcEncPkcs7 ks m) := by
  unfold EncodedWordWellFormed.Statement; revert ks m; decide

theorem EncodedWordWellFormed.cbcDecPkcs7 (ks : KeySlot) (m : Bool) :
    EncodedWordWellFormed.Statement (.cbcDecPkcs7 ks m) := by
  unfold EncodedWordWellFormed.Statement; revert ks m; decide

theorem EncodedWordWellFormed.cbcEncLegacy (ks : KeySlot) (m : Bool) :
    EncodedWordWellFormed.Statement (.cbcEncLegacy ks m) := by
  unfold EncodedWordWellFormed.Statement; revert ks m; decide

theorem EncodedWordWellFormed.cbcDecLegacy (ks : KeySlot) (m : Bool) :
    EncodedWordWellFormed.Statement (.cbcDecLegacy ks m) := by
  unfold EncodedWordWellFormed.Statement; revert ks m; decide

theorem EncodedWordWellFormed.macInitKs (ks : KeySlot) (h : HashAlg) :
    EncodedWordWellFormed.Statement (.macInitKs ks h) := by
  unfold EncodedWordWellFormed.Statement; cases h <;> revert ks <;> decide

theorem EncodedWordWellFormed.macInitBuf (h : HashAlg) :
    EncodedWordWellFormed.Statement (.macInitBuf h) := by
  unfold EncodedWordWellFormed.Statement; cases h <;> decide

theorem EncodedWordWellFormed.hashInit (h : HashAlg) :
    EncodedWordWellFormed.Statement (.hashInit h) := by
  unfold EncodedWordWellFormed.Statement; cases h <;> decide

theorem EncodedWordWellFormed.ctxUpdate :
    EncodedWordWellFormed.Statement .ctxUpdate := by
  unfold EncodedWordWellFormed.Statement; decide

theorem EncodedWordWellFormed.ctxFinal :
    EncodedWordWellFormed.Statement .ctxFinal := by
  unfold EncodedWordWellFormed.Statement; decide

theorem EncodedWordWellFormed.ctxVerify :
    EncodedWordWellFormed.Statement .ctxVerify := by
  unfold EncodedWordWellFormed.Statement; decide

end Sys2Proof.Laws
end

