-- ==== Sys2Proof/Laws/Safety.lean ====
section
/-! SUPPORT. The completion of a command in the terms of Safety.lean, the checks of a CBC command as one decision, and
what the operations of a CBC command leave. -/

namespace Sys2Proof.Machine

/-- A completion with OK (R131). -/
theorem State.finish_ok (s : State) (verify : Bool) : s.finish verify .ok = s.completed verify := by
  simp [State.finish, State.completed]

/-- A completion with an error code (R360). -/
theorem State.finish_error (s : State) {c : Code} (h : c ≠ .ok) : s.finish false c = s.failed c := by
  simp [State.finish, State.failed, h]

/-- The checks of a CBC command in their order (R244). -/
theorem State.firstFailure_cbcChecks (s : State) (m lenBad : Bool) (out : Nat) :
    firstFailure (s.cbcChecks m lenBad out) =
      if m = true ∧ s.context = .inactive then some .ctxState
      else if lenBad = true then some .length
      else if m = true ∧ 2 ^ 60 < s.context.msgLength + out then some .length
      else if s.rangesInvalid out then some .range
      else if s.rangesOverlap out then some .range
      else none := by
  have hc : rangesConflict s.srcN s.lenN s.dstN out = true ↔ s.rangesOverlap out := by
    rw [rangesConflict_iff]
    simp only [State.rangesOverlap, State.srcN, State.dstN, State.lenN, ne_eq, BitVec.toNat_inj]
  simp only [State.cbcChecks, firstFailure, Bool.and_eq_true, Context.isInactive_iff, State.contextFull_iff,
    s.rangesBad_iff out, hc]

/-- Admitted operands pass every check but the length rule. -/
theorem State.CbcAdmitted.firstFailure_eq_none {s : State} {m : Bool} {out : Nat} (h : s.CbcAdmitted m out) :
    firstFailure (s.cbcChecks m false out) = none := by
  rw [State.firstFailure_cbcChecks]
  rw [if_neg (fun e => (h.contextReady e.1).1 e.2), if_neg (by decide),
    if_neg (fun e => by have := (h.contextReady e.1).2; omega), if_neg h.inRange, if_neg h.noOverlap]

/-- A store into a canonical BUF (R91). -/
theorem storedAt_writeBytes {s t : State} (hw : s.buf.wf = true) {o : Nat} {bs : Bytes}
    (ht : t.buf = s.buf.writeBytes o bs) : StoredAt s t o bs := by
  intro i; rw [ht, Memory.read_writeBytes ((Memory.wf_iff _).1 hw).1]

/-- RESULT after a digest is put there (R293). -/
theorem State.resultBytes_setResultBytes (s : State) {d : Bytes} (h : d.length ≤ 64) :
    (s.setResultBytes d).resultBytes = d ++ zeros (64 - d.length) := by
  show bytesOfWords (wordsOfBytes 16 (d ++ zeros (64 - d.length))) = _
  rw [bytesOfWords_wordsOfBytes _ _ (by simp; omega)]

/-- RESULT and OUTLEN written, as one update (R293). -/
theorem State.setOutlen_setResultBytes (s : State) (d : Bytes) (n : Nat) :
    (s.setResultBytes d).setOutlen n =
      { s with result := wordsOfBytes 16 (d ++ zeros (64 - d.length)), outlen := BitVec.ofNat 32 n } := by
  rw [State.setOutlen, State.setResultBytes]

/-- A slot written holds the key; the other slots are as before (R47). -/
theorem State.keyBytes_setKeyBytes (s : State) (ks : KeySlot) {k : Bytes} (h : k.length = 32) :
    (s.setKeyBytes ks k).keyBytes ks = k ∧
      ∀ q : KeySlot, q ≠ ks → (s.setKeyBytes ks k).keyBytes q = s.keyBytes q := by
  constructor
  · simp [State.setKeyBytes, State.keyBytes, bytesOfWords_wordsOfBytes 8 k h]
  · intro q hq
    have hne : ks.val ≠ q.val := fun e => hq (Fin.ext e.symm)
    simp [State.setKeyBytes, State.keyBytes, hne]

end Sys2Proof.Machine
end

