-- ==== Sys2Proof/Machine/Container.lean ====
section
/-! DEFINITION. The container protocol around the engine, 46_host_sequences.md: header, parameter validation,
ENCRYPT and DECRYPT as host programs. The streams are byte strings (00_scope.md R6; log entry 15). -/

namespace Sys2Proof.Machine

/-- `be16(x)` (R312). -/
def be16 (x : Nat) : Bytes := beBytes 2 x

/-- An extension record: the be16 length of the payload, then the payload (R312). -/
def record (payload : Bytes) : Bytes := be16 payload.length ++ payload

/-- The header the writer emits for an iteration count (R312, R314, decision D49). -/
def headerBytes (c : Word) : Bytes :=
  Config.magic ++ [0x03#8, 0x00#8] ++
  record (Config.createdBy ++ [0x00#8] ++ Config.appString) ++
  record (zeros 128) ++ be16 0 ++ beBytes 4 c.toNat

/-- Password bytes: UTF-16 code units, little-endian, no mark and no terminator (R316). -/
def passwordBytes (units : List (BitVec 16)) : Bytes :=
  units.flatMap (fun u => [u.extractLsb' 0 8, u.extractLsb' 8 8])

/-- bufferSize is a positive multiple of 16 and the password has at most 1024 code units (R317). -/
def paramsValid (bufferSize : Nat) (units : List (BitVec 16)) : Bool :=
  0 < bufferSize && bufferSize % 16 == 0 && units.length ≤ 1024

/-- The bytes of a piece: the host's buffer size, at most CHMAX (R321, log entry 13). -/
def pieceBytesOf (size : BufSize) (bufferSize : Nat) : Nat := min bufferSize (chMax size)

/-- The random values of one ENCRYPT call, drawn outside the engine (R319). -/
structure Randoms where
  mainIV : Vector Byte 16
  contentIV : Vector Byte 16
  contentKey : Vector Byte 32
  deriving DecidableEq, Repr

/-- ENCRYPT (R328): the host program, or `InvalidParameter` before any I/O. The last four arguments are the rule's
signature; a call that gives no count, R346's `ENCRYPT(P, W, B)`, takes the default 300000. -/
def encryptProgram (size : BufSize) (rnd : Randoms) (zeroizeAfter : Bool) (input : Bytes)
    (units : List (BitVec 16)) (bufferSize : Nat) (c : Nat := Config.defaultCount) :
    Except ErrorKind (List HostStmt) :=
  if paramsValid bufferSize units && 1 ≤ c && c < 2 ^ 32 then
    let count := BitVec.ofNat 32 c
    let cut := cutPieces (pieceBytesOf size bufferSize) input
    .ok (.emit (headerBytes count) ::
      wrapSeq .current (passwordBytes units) rnd.mainIV.toList rnd.contentIV.toList rnd.contentKey.toList count ++
      sealSeq rnd.contentIV.toList rnd.contentKey.toList cut.1 cut.2 ++
      (if zeroizeAfter then runChk .zeroize else []))
  else .error .invalidParameter

/-- What follows the extension records: skip records until one of length 0 (R312, R315). The first argument
bounds their number. -/
def skipRecords : Nat → Bytes → Except ErrorKind Bytes
  | fuel + 1, n1 :: n0 :: rest =>
    let n := beNat [n1, n0]
    if n = 0 then .ok rest
    else if rest.length < n then .error .corruptContainer
    else skipRecords fuel (rest.drop n)
  | _, _ => .error .corruptContainer

/-- The header reader (R315): the version, the iteration count (0 for Legacy) and the rest of the stream. -/
def readHeader (stream : Bytes) : Except ErrorKind (Version × Word × Bytes) :=
  if stream.length < 3 then .error .corruptContainer
  else if stream.take 3 ≠ Config.magic then .error .notAContainer
  else
    match stream.drop 3 with
    | [] => .error .corruptContainer
    | v :: rest =>
      if v ≠ 0x02#8 ∧ v ≠ 0x03#8 then .error .unsupportedVersion
      else
        match rest with
        | [] => .error .corruptContainer
        | _ :: rest =>
          match skipRecords rest.length rest with
          | .error k => .error k
          | .ok rest =>
            if v = 0x02#8 then .ok (.legacy, 0#32, rest)
            else if rest.length < 4 then .error .corruptContainer
            else .ok (.current, BitVec.ofNat 32 (beNat (rest.take 4)), rest.drop 4)

/-- The content part of DECRYPT after UNWRAP: locate the tail (R332), check a Legacy region's length (R333), and
open the region with the sequence of the version. `buffered` chooses the verify-first Legacy variant (R338). -/
def contentSeq (v : Version) (rest : Bytes) (pieceBytes : Nat) (buffered : Bool) : List HostStmt :=
  let n := rest.length
  match v with
  | .legacy =>
    if n < 33 then [.raise .corruptContainer]
    else if (n - 33) % 16 ≠ 0 then [.raise .corruptContainer]
    else [.openContent
      { mode := if buffered then .legacyBuffered else .legacy
        modulo := rest.getD (n - 33) 0x00#8
        tag := rest.drop (n - 32)
        region := rest.take (n - 33)
        pieceBytes := pieceBytes }]
  | .current =>
    if n < 32 then [.raise .corruptContainer]
    else [.openContent
      { mode := .current
        modulo := 0x00#8
        tag := rest.drop (n - 32)
        region := rest.take (n - 32)
        pieceBytes := pieceBytes }]

/-- DECRYPT (R344): the host program, or an error kind raised before any engine command. -/
def decryptProgram (size : BufSize) (stream : Bytes) (units : List (BitVec 16)) (bufferSize : Nat)
    (buffered zeroizeAfter : Bool) : Except ErrorKind (List HostStmt) :=
  if !paramsValid bufferSize units then .error .invalidParameter
  else
    match readHeader stream with
    | .error k => .error k
    | .ok (v, count, rest) =>
      if rest.length < 96 then .error .corruptContainer
      else
        .ok (unwrapSeq v (passwordBytes units) (rest.take 16) (slice 16 48 rest) (slice 64 32 rest) count ++
          contentSeq v (rest.drop 96) (pieceBytesOf size bufferSize) buffered ++
          (if zeroizeAfter then runChk .zeroize else []))

end Sys2Proof.Machine
end

