-- ==== Sys2Proof/Tests/Slice0.lean ====
section
/-! SUPPORT. The model's own tests: the checks of well-formedness, a word of every command written out from the encoding, the
spec's test vectors (95_test_vectors.md) one step each, and for every obligation with hypotheses a witness that meets
them. Expected values come from the spec's tables, never from the model. -/

namespace Sys2Proof.Tests

set_option Elab.async false

open Sys2Proof Sys2Proof.Machine

/-! ### Helpers -/

/-- The state after a command; `s` where there is no next state. -/
def after (i : Instr) (s : State) : State :=
  match exec i s with
  | .next t => t
  | .fault _ => s
  | .refused _ => s

/-- The state after a step; `s` where there is no next state. -/
def stepped (s : State) : State :=
  match step s with
  | .next t => t
  | .fault _ => s
  | .refused _ => s

theorem exec_after (i : Instr) (s : State) : exec i s = .next (after i s) := by
  obtain ⟨t, ht⟩ := exec_next i s
  simp [after, ht]

theorem step_stepped (s : State) : step s = .next (stepped s) := by
  have h : ∃ t, step s = .next t := by
    unfold step completion
    split
    · split
      · exact exec_next _ s
      · exact ⟨_, rfl⟩
    · exact ⟨_, rfl⟩
  obtain ⟨t, ht⟩ := h
  simp [stepped, ht]

/-- The state with a word outstanding and no latency left. -/
def outstanding (w : Word) (s : State) : State := { s with cmdr := w, phase := .busy }

/-- The reset state with a host program. -/
def hosted (p : List HostStmt) : State := { State.reset with host := { HostAgent.initial with program := p } }

/-- A register write statement at a window offset. -/
def wrAt (offset : BitVec 16) (v : Word) : HostStmt := .wr (.window offset) .w4 v

/-- The key of vector A-4. -/
def keyA4 : Bytes := beBytes 32 0x603deb1015ca71be2b73aef0857d77811f352c073b6108d72d9810a30914dff4

/-- 00 01 02 .. of `n` bytes. -/
def counting (n : Nat) : Bytes := (List.range n).map (BitVec.ofNat 8)

/-- The setup of 95_test_vectors.md section 4.3: KEY[0], IVR, input bytes at BUF[0], SRC = 0, DST, LEN. -/
def cbcSetup (input : Bytes) (dst len : Word) : State :=
  { ((State.reset.setKeyBytes 0 keyA4).setIvrBytes (counting 16)).memWrite 0 input with dst := dst, len := len }

/-- The setup of section 4.4: an active context, bytes at BUF[SRC], LEN. -/
def ctxSetup (c : Context) (src : Nat) (bs : Bytes) (len : Word) : State :=
  { State.reset.memWrite src bs with context := c, src := BitVec.ofNat 32 src, len := len }

/-! ### Well-formedness (R106, R70): one ill-formed term for each check -/

theorem test_wf_accepts : (RawCommand.mk 0x20#8 3#2 true false false 0#19).wellFormed = true ∧
    (RawCommand.mk 0x30#8 3#2 false false true 0#19).wellFormed = true := by decide

theorem test_wf_reserved_opcode : (RawCommand.mk 0x02#8 0#2 false false false 0#19).wellFormed = false := by decide

theorem test_wf_bit11 : (RawCommand.mk 0x00#8 0#2 false true false 0#19).wellFormed = false := by decide

theorem test_wf_high_bits : (RawCommand.mk 0x00#8 0#2 false false false 1#19).wellFormed = false := by decide

theorem test_wf_ks_not_admitted : (RawCommand.mk 0x31#8 1#2 false false false 0#19).wellFormed = false := by decide

theorem test_wf_m_not_admitted : (RawCommand.mk 0x11#8 0#2 true false false 0#19).wellFormed = false := by decide

theorem test_wf_h_not_admitted : (RawCommand.mk 0x20#8 0#2 false false true 0#19).wellFormed = false := by decide

theorem test_wf_written_value_too_wide :
    programWellFormed [.wr (.window 0x8000#16) .w1 0x100#32] = false ∧
    programWellFormed [.wr (.window 0x8000#16) .w1 0xFF#32] = true := by decide

theorem test_wf_keeps_too_many : programWellFormed [.get (.window 0x8000#16) .w1 2] = false := by decide

theorem test_wf_open_pieces :
    programWellFormed [.openContent ⟨.current, 0#8, zeros 32, [], 15⟩] = false ∧
    programWellFormed [.openContent ⟨.current, 0#8, zeros 31, [], 16⟩] = false ∧
    programWellFormed [.openContent ⟨.current, 0#8, zeros 32, [], 0⟩] = false := by decide

/-! ### Decoding (R101, R103, R111): words written out as rsv(19) H rsv M KS(2) OPC(8) -/

theorem test_decode_control :
    decode (0#19 ++ 0#1 ++ 0#1 ++ 0#1 ++ 0b00#2 ++ 0b00000000#8) = some .nop ∧
    decode (0#19 ++ 0#1 ++ 0#1 ++ 0#1 ++ 0b00#2 ++ 0b00000001#8) = some .zeroize := by decide

theorem test_decode_kdf :
    decode (0#19 ++ 0#1 ++ 0#1 ++ 0#1 ++ 0b10#2 ++ 0b00010000#8) = some (.kdfLegacy 2) ∧
    decode (0#19 ++ 0#1 ++ 0#1 ++ 0#1 ++ 0b01#2 ++ 0b00010001#8) = some (.kdfPbkdf2 1) := by decide

theorem test_decode_cbc :
    decode (0#19 ++ 0#1 ++ 0#1 ++ 1#1 ++ 0b01#2 ++ 0b00100000#8) = some (.cbcEnc 1 true) ∧
    decode (0#19 ++ 0#1 ++ 0#1 ++ 0#1 ++ 0b10#2 ++ 0b00100001#8) = some (.cbcDec 2 false) ∧
    decode (0#19 ++ 0#1 ++ 0#1 ++ 1#1 ++ 0b00#2 ++ 0b00100010#8) = some (.cbcEncPkcs7 0 true) ∧
    decode (0#19 ++ 0#1 ++ 0#1 ++ 0#1 ++ 0b01#2 ++ 0b00100011#8) = some (.cbcDecPkcs7 1 false) ∧
    decode (0#19 ++ 0#1 ++ 0#1 ++ 1#1 ++ 0b10#2 ++ 0b00100100#8) = some (.cbcEncLegacy 2 true) ∧
    decode (0#19 ++ 0#1 ++ 0#1 ++ 1#1 ++ 0b11#2 ++ 0b00100101#8) = some (.cbcDecLegacy 3 true) := by decide

theorem test_decode_context :
    decode (0#19 ++ 1#1 ++ 0#1 ++ 0#1 ++ 0b10#2 ++ 0b00110000#8) = some (.macInitKs 2 .sha512) ∧
    decode (0#19 ++ 1#1 ++ 0#1 ++ 0#1 ++ 0b00#2 ++ 0b00110001#8) = some (.macInitBuf .sha512) ∧
    decode (0#19 ++ 0#1 ++ 0#1 ++ 0#1 ++ 0b00#2 ++ 0b00110010#8) = some (.hashInit .sha256) ∧
    decode (0#19 ++ 0#1 ++ 0#1 ++ 0#1 ++ 0b00#2 ++ 0b00110011#8) = some .ctxUpdate ∧
    decode (0#19 ++ 0#1 ++ 0#1 ++ 0#1 ++ 0b00#2 ++ 0b00110100#8) = some .ctxFinal ∧
    decode (0#19 ++ 0#1 ++ 0#1 ++ 0#1 ++ 0b00#2 ++ 0b00110101#8) = some .ctxVerify := by decide

/-- V-CTL-2, with the reason each word is rejected for. -/
theorem test_decode_rejects :
    (match decodeWord 0x00000002#32 with | .error .reservedOpcode => true | _ => false) = true ∧
    (match decodeWord 0x00000800#32 with | .error .reservedBits => true | _ => false) = true ∧
    decode 0x00000411#32 = none ∧ decode 0x00001020#32 = none ∧ decode 0x00000131#32 = none ∧
    decode 0x00000100#32 = none := by decide

theorem test_decodeTableWord : decodeTableWord 32 0x00000520 = some (.cbcEnc 1 true) ∧
    decodeTableWord 32 0x00000800 = none := by decide

theorem test_decodeBytes : decodeBytes [0x20#8, 0x05#8, 0#8, 0#8, 0xAA#8] = some (.cbcEnc 1 true, [0xAA#8]) ∧
    decodeBytes [0x20#8, 0x05#8, 0#8] = none := by decide

/-! ### SHA-512 (section 3); the other algorithms are tested through the commands -/

/-- H-5. -/
theorem test_sha512 : sha512 [0x61#8, 0x62#8, 0x63#8] =
    beBytes 64 0xddaf35a193617abacc417349ae20413112e6fa4e89a97ea20a9eeee64b55d39a2192992a274fc1a836ba3c23a3feebbd454d4423643ce80e2a9ac94fa54ca49f := by
  decide +kernel

/-! ### The commands, one step each (section 4) -/

/-- V-CTL-1. -/
theorem test_nop : step (State.reset.withFetchWord 32 0x00000000) =
    .next { State.reset with done := true } := by rfl

/-- V-CTL-2. -/
theorem test_illegal : (stepped (outstanding 0x00000411#32 State.reset)).statusWord = 0x00000006#32 ∧
    (stepped (outstanding 0x00000411#32 State.reset)).errcodeWord = 0x01#32 := by decide

/-- R135: ZEROIZE clears the slot, IVR, BUF and OUTLEN, and keeps SRC. -/
theorem test_zeroize :
    let s := { cbcSetup (byteRep 1 16) 0#32 16#32 with src := 4#32, outlen := 7#32 }
    (after .zeroize s).keyBytes 0 = zeros 32 ∧ (after .zeroize s).buf = [] ∧
    (after .zeroize s).ivrBytes = zeros 16 ∧ (after .zeroize s).outlen = 0#32 ∧ (after .zeroize s).src = 4#32 := by
  decide +kernel

/-- V-KDF-6 and V-KDF-7. -/
theorem test_kdf_legacy_checks :
    (after (.kdfLegacy 0) { State.reset with len := 2049#32 }).errcodeWord = 0x03#32 ∧
    (after (.kdfLegacy 0) { State.reset with src := 4095#32, len := 2#32 }).errcodeWord = 0x04#32 := by decide

/-- V-KDF-3. -/
theorem test_kdf_pbkdf2 :
    (after (.kdfPbkdf2 0) { (State.reset.setIvrBytes (counting 16)).memWrite 0 [0x70#8, 0#8, 0x77#8, 0#8] with
      len := 4#32, iter := 1#32 }).keyBytes 0 =
      beBytes 32 0x511a1591d88db9437c1903468d8c12a6fd3c953c67833fa71a933c0a4980cdfb := by decide +kernel

/-- V-KDF-5 and V-KDF-8. -/
theorem test_kdf_pbkdf2_checks :
    (after (.kdfPbkdf2 0) { State.reset with len := 4#32, iter := 0#32 }).errcodeWord = 0x05#32 ∧
    (after (.kdfPbkdf2 0) { State.reset with len := 4000#32, iter := 0#32 }).errcodeWord = 0x03#32 := by decide +kernel

/-- V-CBC-12b: in place. -/
theorem test_cbc_enc :
    let t := after (.cbcEnc 0 false) (cbcSetup (beBytes 16 0x6bc1bee22e409f96e93d7e117393172a) 0#32 16#32)
    t.memRead 0 16 = beBytes 16 0xf58c4c04d6e5f1ba779eabfb5f7bfbd6 ∧
    t.ivrBytes = beBytes 16 0xf58c4c04d6e5f1ba779eabfb5f7bfbd6 ∧ t.outlen = 16#32 := by decide +kernel

/-- V-CBC-4, V-CBC-12 and V-CBC-13. -/
theorem test_cbc_enc_checks :
    (after (.cbcEnc 0 false) (cbcSetup [] 0x100#32 15#32)).errcodeWord = 0x03#32 ∧
    (after (.cbcEnc 0 false) (cbcSetup [] 8#32 16#32)).errcodeWord = 0x04#32 ∧
    (after (.cbcEnc 0 true) (cbcSetup [] 0x100#32 16#32)).errcodeWord = 0x02#32 := by decide +kernel

/-- V-CBC-2. -/
theorem test_cbc_dec :
    let t := after (.cbcDec 0 false) (cbcSetup (beBytes 16 0xf58c4c04d6e5f1ba779eabfb5f7bfbd6) 0x100#32 16#32)
    t.memRead 0x100 16 = beBytes 16 0x6bc1bee22e409f96e93d7e117393172a ∧
    t.ivrBytes = beBytes 16 0xf58c4c04d6e5f1ba779eabfb5f7bfbd6 := by decide +kernel

/-- V-CBC-5. -/
theorem test_cbc_enc_pkcs7 :
    let t := after (.cbcEncPkcs7 0 false) (cbcSetup [] 0x100#32 0#32)
    t.memRead 0x100 16 = beBytes 16 0x7e9248e5d829ca7593f0c549db2f5b8c ∧ t.outlen = 16#32 := by decide +kernel

/-- V-CBC-6. -/
theorem test_cbc_dec_pkcs7 :
    let t := after (.cbcDecPkcs7 0 false) (cbcSetup (beBytes 16 0x7e9248e5d829ca7593f0c549db2f5b8c) 0x100#32 16#32)
    t.memRead 0x100 16 = byteRep 0x10 16 ∧ t.outlen = 0#32 ∧ t.errcodeWord = 0#32 := by decide +kernel

/-- V-CBC-17. -/
theorem test_cbc_dec_pkcs7_padding :
    let t := after (.cbcDecPkcs7 0 false) (cbcSetup (beBytes 16 0xf481cc722d60d2f06e24f3e7e49e60a3) 0x100#32 16#32)
    t.errcodeWord = 0x07#32 ∧ t.statusWord = 0x00000006#32 ∧ t.outlen = 0#32 := by decide +kernel

/-- V-CBC-8. -/
theorem test_cbc_enc_legacy :
    let t := after (.cbcEncLegacy 0 false) (cbcSetup [0x61#8, 0x62#8, 0x63#8] 0x100#32 3#32)
    t.memRead 0x100 16 = beBytes 16 0x83286afe49594ce405a251bdb203750f ∧ t.lmod = 3#4 ∧ t.outlen = 16#32 := by
  decide +kernel

/-- V-CBC-9. -/
theorem test_cbc_dec_legacy :
    let t := after (.cbcDecLegacy 0 false)
      { cbcSetup (beBytes 16 0x83286afe49594ce405a251bdb203750f) 0x100#32 16#32 with lmod := 3#4 }
    t.memRead 0x100 16 = [0x61#8, 0x62#8, 0x63#8] ++ byteRep 0x0d 13 ∧ t.outlen = 3#32 := by decide +kernel

/-- V-CTX-1, V-CTX-4 and V-CTX-5: STATUS after the init commands. -/
theorem test_init_status :
    (after (.macInitKs 0 .sha256) State.reset).statusWord = 0x00000052#32 ∧
    (after (.macInitKs 0 .sha512) State.reset).statusWord = 0x00000072#32 ∧
    (after (.hashInit .sha256) State.reset).statusWord = 0x00000012#32 := by decide

/-- V-CTX-3: the key is the bytes at (SRC, LEN). -/
theorem test_mac_init_buf :
    (after (.macInitBuf .sha256) (ctxSetup .inactive 0 (byteRep 0x0b 20) 20#32)).context =
      .active .hmac .sha256 (byteRep 0x0b 20) [] := by decide +kernel

/-- V-CTX-2: the second of two updates. -/
theorem test_ctx_update :
    (after .ctxUpdate (ctxSetup (.active .hash .sha256 [] [0x61#8]) 1 [0x62#8, 0x63#8] 2#32)).context =
      .active .hash .sha256 [] [0x61#8, 0x62#8, 0x63#8] := by decide +kernel

/-- V-CTX-5 after its update. -/
theorem test_ctx_final :
    let t := after .ctxFinal (ctxSetup (.active .hash .sha256 [] [0x61#8, 0x62#8, 0x63#8]) 0 [] 0#32)
    t.result[0] = 0xbf1678ba#32 ∧ t.outlen = 32#32 ∧ t.statusWord = 0x00000002#32 := by decide +kernel

/-- V-CTX-6 after its update. -/
theorem test_ctx_verify :
    (after .ctxVerify (ctxSetup (.active .hmac .sha256 (counting 32) [0x61#8, 0x62#8, 0x63#8]) 0x80
      (beBytes 32 0xf0133729c4163dede81e21cd47839256da58171238c8a0d874397c73b14e1e47) 0#32)).statusWord =
      0x0000000a#32 := by decide +kernel

/-- V-CTX-7 after its update. -/
theorem test_ctx_verify_auth :
    (after .ctxVerify (ctxSetup (.active .hmac .sha256 (counting 32) [0x61#8, 0x62#8, 0x63#8]) 0x80
      (beBytes 32 0xf0133729c4163dede81e21cd47839256da58171238c8a0d874397c73b14e1e46) 0#32)).statusWord =
      0x00000006#32 := by decide +kernel

/-! ### The host (R72, R78, R110, R312, R320, R328) -/

/-- V-CTL-4. -/
theorem test_ack : ({ State.reset with done := true, err := true, ovf := true, authOk := true }.busWrite
    (.window 0x000C#16) .w4 0x00000086#32).1.statusWord = 0x00000008#32 := by decide

/-- V-CTL-5: the write is dropped and OVF is set. -/
theorem test_lockout : ((outstanding 0x00000011#32 State.reset).busWrite (.window 0x0018#16) .w4 0x40#32) =
    ({ outstanding 0x00000011#32 State.reset with ovf := true }, false) := by decide

/-- V-CTL-6. -/
theorem test_irq : (after .nop { State.reset with irqEn := true }).irq = true ∧
    ((after .nop { State.reset with irqEn := true }).busWrite (.window 0x000C#16) .w4 2#32).1.irq = false := by decide

/-- R72: a word lies in BUF low byte first. -/
theorem test_little_endian : (State.reset.busWrite (.window 0x8000#16) .w4 0x44332211#32).1.buf =
    [(0, 0x11#8), (1, 0x22#8), (2, 0x33#8), (3, 0x44#8)] := by decide

/-- R110, program P3: 20 bytes at BUF+0x100 are five word writes. -/
theorem test_wrb_words : (wrb 0x100 (zeros 20)).length = 5 ∧
    (wrb 0x101 (zeros 4)).length = 4 := by decide

/-- R109: BUF+n up to the window's end; past it the model's choice (log entry 23). -/
theorem test_bufAddr : bufAddr 0x7FFF = .window 0xFFFF#16 ∧ bufAddr 0x8000 = .outside := by decide

/-- V-CONT-4, the parts MAGIC and the vendor record leave fixed. -/
theorem test_header : be16 128 = [0x00#8, 0x80#8] ∧ beBytes 4 1000 = [0x00#8, 0x00#8, 0x03#8, 0xe8#8] ∧
    beNat [0x00#8, 0x04#8, 0x93#8, 0xE0#8] = 300000 := by decide

/-- S-5: buffer sizes 0, 1, 15, 18 and 1025 code units are refused, 16 and 1024 taken (R317). -/
theorem test_params : paramsValid 0 [] = false ∧ paramsValid 1 [] = false ∧ paramsValid 15 [] = false ∧
    paramsValid 18 [] = false ∧ paramsValid 16 [] = true ∧
    paramsValid 16 (List.replicate 1025 0#16) = false ∧ paramsValid 16 (List.replicate 1024 0#16) = true := by
  decide +kernel

/-- "pw" as password bytes (section 4). -/
theorem test_password : passwordBytes [0x70#16, 0x77#16] = [0x70#8, 0x00#8, 0x77#8, 0x00#8] := by decide

/-- ENCRYPT without a count takes 300000, in the header as 00 04 93 E0 (R328, R346, R318). -/
theorem test_encrypt_default_count :
    encryptProgram .b4096 ⟨default, default, default⟩ false [] [] 16 =
      encryptProgram .b4096 ⟨default, default, default⟩ false [] [] 16 300000 ∧
    beBytes 4 Config.defaultCount = [0x00#8, 0x04#8, 0x93#8, 0xE0#8] := ⟨rfl, by decide⟩

/-! ### Witnesses: concrete states and operands that meet the hypotheses of each obligation, a clause at a time -/

/-- A context with a key and a message. -/
def someContext : Context := .active .hmac .sha256 (counting 32) [0x61#8]

/-- A context that has absorbed `n` bytes. -/
def absorbed (n : Nat) : Context := .active .hash .sha256 [] (List.replicate n 0#8)

theorem absorbed_active (n : Nat) : absorbed n ≠ .inactive := by simp [absorbed]

theorem absorbed_length (n : Nat) : (absorbed n).msgLength = n := by simp [absorbed, Context.msgLength]

theorem absorbed_over (n k : Nat) (h : 0 < k) : n < (absorbed n).msgLength + k := by rw [absorbed_length]; omega

/-- One byte more than `n` are to be absorbed. -/
theorem absorbed_state (n : Nat) :
    let s := { State.reset with context := absorbed n, len := 1#32 }
    s.context ≠ .inactive ∧ n < s.context.msgLength + s.len.toNat :=
  ⟨absorbed_active n, absorbed_over n 1 (by decide)⟩

/-- A state with a nonzero value in what ZEROIZE clears. -/
def dirty : State :=
  { cbcSetup (byteRep 1 16) 0#32 16#32 with
    context := someContext, lmod := 5#4, outlen := 9#32, result := Vector.replicate 16 1#32 }

/-- V-CTX-6: the state before CTX_VERIFY. -/
def verifySetup : State :=
  ctxSetup (.active .hmac .sha256 (counting 32) [0x61#8, 0x62#8, 0x63#8]) 0x80
    (beBytes 32 0xf0133729c4163dede81e21cd47839256da58171238c8a0d874397c73b14e1e47) 0#32

theorem witness_DecodeIffEncode : decode 0x00000725#32 = some (.cbcDecLegacy 3 true) ∧
    0x00000725#32 = encode (.cbcDecLegacy 3 true) := by decide

theorem witness_AtMostOneRowSpells : ∃ r ∈ opcodeRows, 0x00000725#32 &&& r.mask = r.pattern := by decide

theorem witness_IllegalWords :
    (∀ opc ∈ [0x02#8, 0x0F#8, 0x12#8, 0x1F#8, 0x26#8, 0x2F#8, 0x36#8, 0xFF#8], decode (opc.zeroExtend 32) = none) ∧
    decode 0x80000000#32 = none ∧ decode 0x00002000#32 = none ∧ State.reset.phase = .idle ∧
    (outstanding 0x00000800#32 State.reset).cmdr = 0x00000800#32 ∧
    (outstanding 0x00000800#32 State.reset).phase = .busy ∧ (outstanding 0x00000800#32 State.reset).delay = 0 := by
  decide

theorem witness_IllegalCompletion :
    let s := outstanding 0x00000411#32 State.reset
    s.phase = .busy ∧ s.delay = 0 ∧ s.authOk = false ∧ decode s.cmdr = none := by decide

theorem witness_StepRunsDecoded :
    let s := outstanding 0x00000520#32 State.reset
    s.phase = .busy ∧ s.delay = 0 ∧ decode s.cmdr = some (.cbcEnc 1 true) ∧
    decodeTableWord 32 0x520 = some (.cbcEnc 1 true) := by decide

theorem witness_StepRunsHost :
    let a : BusAddr := .window 0x0018#16
    (∀ p ∈ [[], [.rd a .w4], [.wr a .w4 7#32], [.wait], [.chk]],
      ¬ ((hosted p).phase = .busy ∧ (hosted p).delay = 0) ∧ (hosted p).host.program = p) ∧
    ¬ ({ hosted [.wait] with phase := .busy, delay := 1 }.phase = .busy ∧
      { hosted [.wait] with phase := .busy, delay := 1 }.delay = 0) := by decide

theorem witness_NoStuckState : (2#32).getLsbD 1 = true ∧ (0xFFFFFFFF#32).getLsbD 1 = true := by decide

theorem witness_IssueEffects : State.reset.phase = .idle ∧ (outstanding 0#32 State.reset).phase = .busy := by decide

theorem witness_CtrlWrite : (3#32).getLsbD 1 = true ∧ (1#32).getLsbD 1 = false ∧ (0xFFFFFFFD#32).getLsbD 1 = false := by
  decide

theorem witness_BothResetsAgree :
    let p : List HostStmt := [.powerOnReset]
    let q : List HostStmt := [wrAt 0x0008#16 2#32]
    ¬ ((hosted p).phase = .busy ∧ (hosted p).delay = 0) ∧ (2#32).getLsbD 1 = true ∧
    (hosted p).host.program = .powerOnReset :: [] ∧
    ¬ ((hosted q).phase = .busy ∧ (hosted q).delay = 0) ∧
    (hosted q).host.program = .wr (.window 0x0008#16) .w4 2#32 :: [] := by decide

theorem witness_IdAndCaps : State.reset.phase = .idle ∧ (outstanding 0#32 State.reset).phase = .busy ∧
    State.reset.bufSize.bytes = 4096 := by decide

/-- Legal accesses at both ends of both regions. -/
theorem witness_BusErrors_legal :
    ∀ p ∈ [((0x0000#16, Width.w4) : BitVec 16 × Width), (0x7FFC#16, .w4), (0x8000#16, .w1), (0xFFFF#16, .w1),
      (0xFFFE#16, .w2), (0xFFFC#16, .w4)],
      (p.1.toNat ≤ 0x7FFF ∧ p.2 = .w4 ∧ p.1.toNat % 4 = 0) ∨ (0x8000 ≤ p.1.toNat ∧ p.1.toNat % p.2.bytes = 0) := by
  decide

/-- Accesses that are not legal beside them. -/
theorem witness_BusErrors_illegal :
    (∀ p ∈ [((0x0000#16, Width.w1) : BitVec 16 × Width), (0x7FFE#16, .w4), (0x7FFF#16, .w1), (0x8001#16, .w2),
      (0xFFFE#16, .w4)],
      ¬ ((p.1.toNat ≤ 0x7FFF ∧ p.2 = .w4 ∧ p.1.toNat % 4 = 0) ∨
        (0x8000 ≤ p.1.toNat ∧ p.1.toNat % p.2.bytes = 0))) ∧
    ∀ a : BitVec 16, BusAddr.outside ≠ .window a := by
  refine ⟨by decide, ?_⟩
  intro a h; cases h

theorem witness_BusyLockout :
    legalAccess 0x0018#16 .w4 = true ∧ legalAccess 0xFFFF#16 .w1 = true ∧
    (outstanding 0#32 State.reset).phase = .busy ∧ State.reset.phase = .idle ∧
    legalAccess 0x002C#16 .w4 = true ∧ legalAccess 0x0100#16 .w4 = true ∧ legalAccess 0x013C#16 .w4 = true := by decide

theorem witness_ReservedOffsetsAndBits :
    legalAccess 0x0030#16 .w4 = true ∧ legalAccess 0x003C#16 .w4 = true ∧ legalAccess 0x0050#16 .w4 = true ∧
    legalAccess 0x007C#16 .w4 = true ∧ legalAccess 0x0140#16 .w4 = true ∧ legalAccess 0x7FFC#16 .w4 = true ∧
    legalAccess 0x9000#16 .w1 = true ∧ 0x8000 + State.reset.bufBytes ≤ 0x9000 ∧
    legalAccess 0xFFFF#16 .w1 = true ∧ State.reset.phase = .idle ∧ (outstanding 0#32 State.reset).phase = .busy ∧
    (0xFFFFFF01#32).extractLsb' 0 8 = (1#32).extractLsb' 0 8 ∧
    (0xFFFFFF01#32).extractLsb' 0 4 = (1#32).extractLsb' 0 4 ∧
    (0xFFFFFF01#32).extractLsb' 0 2 = (1#32).extractLsb' 0 2 := by decide

theorem witness_ReadsHaveNoSideEffect :
    let s := hosted [.rd (.window 0x000C#16) .w4]
    ¬ (s.phase = .busy ∧ s.delay = 0) ∧ s.host.program = .rd (.window 0x000C#16) .w4 :: [] ∧
    step s = .next (stepped s) := ⟨by decide, rfl, step_stepped _⟩

theorem witness_BufAccess :
    State.reset.phase = .idle ∧ State.reset.buf.wf = true ∧
    ∀ p ∈ [((0, Width.w4) : Nat × Width), (4092, .w4), (4094, .w2), (4095, .w1)],
      p.1 < State.reset.bufBytes ∧ p.1 % p.2.bytes = 0 := by decide

theorem witness_MixedWidths : State.reset.phase = .idle ∧ State.reset.buf.wf = true := by decide

theorem witness_OperandRegisters : State.reset.phase = .idle ∧ State.reset.irqEn = false ∧
    { State.reset with irqEn := true }.irqEn = true := by decide

theorem witness_KeySlotAccess : State.reset.phase = .idle ∧ (3 : KeySlot) ≠ 0 := by decide

theorem witness_HostStepsRevealNoSecret :
    SameButSecrets { hosted [.rd (.window 0x000C#16) .w4] with context := someContext }
      { hosted [.rd (.window 0x000C#16) .w4] with
        context := .active .hmac .sha256 (zeros 32) (zeros 5), keys := Vector.replicate 4 (Vector.replicate 8 7#32) } :=
  ⟨rfl, by decide⟩

theorem witness_OvfSticky_sets :
    let s := { hosted [wrAt 0x0018#16 1#32] with phase := .busy, delay := 1 }
    step s = .next (stepped s) ∧ s.ovf = false ∧ (stepped s).ovf = true := ⟨step_stepped _, by decide, by decide⟩

theorem witness_OvfSticky_clears :
    ∀ p ∈ [[wrAt 0x000C#16 0x80#32], [wrAt 0x0008#16 2#32], [.powerOnReset]],
      let s := { hosted p with ovf := true }
      step s = .next (stepped s) ∧ s.ovf = true ∧ (stepped s).ovf = false := by
  intro p hp
  simp only [List.mem_cons, List.not_mem_nil, or_false] at hp
  rcases hp with rfl | rfl | rfl <;> exact ⟨step_stepped _, by decide, by decide⟩

theorem witness_IrqEdges_rises :
    (let s := { outstanding 0#32 State.reset with irqEn := true }
     step s = .next (stepped s) ∧ s.engineTurn = true ∧ s.irq = false ∧ (stepped s).irq = true) ∧
    (let s := { hosted [wrAt 0x0008#16 1#32] with done := true }
     step s = .next (stepped s) ∧ s.engineTurn = false ∧ s.irq = false ∧ (stepped s).irq = true) :=
  ⟨⟨step_stepped _, by decide, by decide, by decide⟩, ⟨step_stepped _, by decide, by decide, by decide⟩⟩

theorem witness_IrqEdges_falls :
    ∀ p ∈ [[wrAt 0x000C#16 2#32], [wrAt 0x0008#16 0#32], [wrAt 0x0008#16 3#32], [wrAt 0x0014#16 0#32],
      [.powerOnReset]],
      let s := { hosted p with done := true, irqEn := true }
      step s = .next (stepped s) ∧ s.engineTurn = false ∧ s.irq = true ∧ (stepped s).irq = false := by
  intro p hp
  simp only [List.mem_cons, List.not_mem_nil, or_false] at hp
  rcases hp with rfl | rfl | rfl | rfl | rfl <;> exact ⟨step_stepped _, by decide, by decide, by decide⟩

theorem witness_AuthOkOnlyByVerify :
    let s := outstanding 0x00000035#32 verifySetup
    step s = .next (stepped s) ∧ s.authOk = false ∧ (stepped s).authOk = true := ⟨step_stepped _, rfl, by decide +kernel⟩

theorem witness_ContextLifetime :
    (let s := outstanding 0x00000032#32 State.reset
     step s = .next (stepped s) ∧ s.context = .inactive ∧ (stepped s).context ≠ .inactive) ∧
    (let s := outstanding 0x00000001#32 { State.reset with context := someContext }
     step s = .next (stepped s) ∧ s.context ≠ .inactive ∧ (stepped s).context = .inactive) ∧
    (let s := { hosted [wrAt 0x0008#16 2#32] with context := someContext }
     step s = .next (stepped s) ∧ s.engineTurn = false ∧ s.context ≠ .inactive ∧ (stepped s).context = .inactive) :=
  ⟨⟨step_stepped _, by decide, by decide⟩, ⟨step_stepped _, by decide, by decide⟩,
    ⟨step_stepped _, by decide, by decide, by decide⟩⟩

theorem witness_OnlyListedStateWritten :
    exec .zeroize dirty = .next (after .zeroize dirty) ∧ (after .zeroize dirty).lmod ≠ dirty.lmod ∧
    (after .zeroize dirty).ivr ≠ dirty.ivr ∧ (after .zeroize dirty).keys[0] ≠ dirty.keys[0] ∧
    (after .zeroize dirty).context ≠ dirty.context ∧ (after .zeroize dirty).buf ≠ dirty.buf ∧
    (after .zeroize dirty).result ≠ dirty.result ∧ (after .zeroize dirty).outlen ≠ dirty.outlen :=
  ⟨exec_after _ _, by decide +kernel⟩

/-- A command that writes state other than ZEROIZE, for each clause. -/
theorem witness_OnlyListedStateWritten_others :
    (after (.cbcEncLegacy 0 true) { dirty with len := 3#32 }).lmod ≠ dirty.lmod ∧
    (after (.cbcEnc 0 true) dirty).ivr ≠ dirty.ivr ∧ (after (.cbcEnc 0 true) dirty).buf ≠ dirty.buf ∧
    (after (.cbcEnc 0 true) dirty).context ≠ dirty.context ∧
    (after .ctxFinal dirty).result ≠ dirty.result ∧ (after .ctxFinal dirty).outlen ≠ dirty.outlen ∧
    (after (.kdfPbkdf2 3) { dirty with iter := 1#32 }).keys[3] ≠ dirty.keys[3] := by decide +kernel

theorem witness_CompletionFlags :
    let s := outstanding 0x00000002#32 State.reset
    s.phase = .busy ∧ s.delay = 0 ∧ step s = .next (stepped s) := ⟨rfl, rfl, step_stepped _⟩

theorem witness_ValidationErrorsPrecise :
    ∀ p ∈ [((0x00000002#32, 0#32) : Word × Word), (0x00000033#32, 0#32), (0x00000020#32, 15#32),
      (0x00000020#32, 4112#32), (0x00000011#32, 0#32)],
      let s := outstanding p.1 { State.reset with len := p.2, iter := 0#32 }
      s.phase = .busy ∧ s.delay = 0 ∧ step s = .next (stepped s) ∧ (stepped s).errcode.isValidation = true := by
  intro p hp
  simp only [List.mem_cons, List.not_mem_nil, or_false] at hp
  rcases hp with rfl | rfl | rfl | rfl | rfl <;> exact ⟨rfl, rfl, step_stepped _, by decide⟩

theorem witness_CodesPerCommand : exec .nop State.reset = .next (after .nop State.reset) := exec_after _ _

/-- Every code of the second clause is the code after some command, AUTH and PADDING aside, which the tests reach. -/
theorem witness_CodesPerCommand_codes :
    (after .nop State.reset).errcode = .ok ∧ (stepped (outstanding 0x00000002#32 State.reset)).errcode = .illegal ∧
    (after .ctxFinal State.reset).errcode = .ctxState ∧
    (after (.cbcEnc 0 false) { State.reset with len := 15#32 }).errcode = .length ∧
    (after .ctxVerify { State.reset with context := someContext, src := 4065#32 }).errcode = .range ∧
    (after (.kdfPbkdf2 0) { State.reset with iter := 0#32 }).errcode = .param := by decide

theorem witness_KdfLegacyCompletes :
    let s := { State.reset with src := 2048#32, len := 2048#32 }
    s.len.toNat ≤ 2048 ∧ s.src.toNat + s.len.toNat ≤ s.bufBytes := by decide

theorem witness_KdfPbkdf2Completes :
    let s := { State.reset with src := 2048#32, len := 2048#32, iter := 1#32 }
    s.len.toNat ≤ 2048 ∧ s.src.toNat + s.len.toNat ≤ s.bufBytes ∧ s.iter ≠ 0#32 := by decide

theorem witness_KdfErrors :
    2048 < { State.reset with len := 2049#32 }.len.toNat ∧
    (let s := { State.reset with src := 2049#32, len := 2048#32 }
     s.len.toNat ≤ 2048 ∧ s.bufBytes < s.src.toNat + s.len.toNat) ∧
    (let s := { State.reset with src := 2048#32, len := 2048#32, iter := 0#32 }
     s.len.toNat ≤ 2048 ∧ s.src.toNat + s.len.toNat ≤ s.bufBytes ∧ s.iter = 0#32) := by decide

/-- Every branch of the order of checks is reached: no context, bad length, full context, bad range, overlap, none. -/
theorem witness_CbcChecksInOrder :
    cbcShape 16 (.cbcEnc 0 true) = some (true, true, 16) ∧ State.reset.context = .inactive ∧
    cbcShape 15 (.cbcEnc 0 false) = some (false, false, 15) ∧
    (absorbed (2 ^ 60) ≠ .inactive ∧ 2 ^ 60 < (absorbed (2 ^ 60)).msgLength + 16) ∧
    (cbcSetup [] 4081#32 16#32).rangesInvalid 16 ∧ ¬ (cbcSetup [] 4080#32 16#32).rangesInvalid 16 ∧
    (cbcSetup [] 15#32 16#32).rangesOverlap 16 ∧ ¬ (cbcSetup [] 16#32 16#32).rangesOverlap 16 ∧
    ¬ (cbcSetup [] 0#32 16#32).rangesOverlap 16 := by
  exact ⟨by decide, rfl, by decide, ⟨absorbed_active (2 ^ 60), absorbed_over (2 ^ 60) 16 (by decide)⟩, by decide +kernel⟩

/-- In place over all of BUF, with an active context and M = 1: admitted. -/
theorem witness_admitted :
    { cbcSetup [] 0#32 4096#32 with context := someContext }.CbcAdmitted true 4096 :=
  ⟨fun _ => ⟨by decide, by decide⟩, by decide +kernel, by decide +kernel⟩

theorem witness_CbcEncCompletes :
    let s := { cbcSetup (byteRep 1 16) 0#32 4096#32 with context := someContext }
    s.buf.wf = true ∧ s.len.toNat % 16 = 0 ∧ s.CbcAdmitted true s.len.toNat :=
  ⟨by decide +kernel, by decide, ⟨fun _ => ⟨by decide, by decide⟩, by decide +kernel, by decide +kernel⟩⟩

theorem witness_CbcDecCompletes :
    let s := { cbcSetup (byteRep 1 16) 2048#32 2048#32 with context := someContext }
    s.buf.wf = true ∧ s.len.toNat % 16 = 0 ∧ s.CbcAdmitted true s.len.toNat :=
  ⟨by decide +kernel, by decide, ⟨fun _ => ⟨by decide, by decide⟩, by decide +kernel, by decide +kernel⟩⟩

/-- V-CBC-14: the padded output fills BUF. -/
theorem witness_CbcEncPkcs7Completes :
    let s := { cbcSetup (byteRep 1 16) 0#32 4080#32 with context := someContext }
    s.buf.wf = true ∧ s.CbcAdmitted true (s.len.toNat + (16 - s.len.toNat % 16)) :=
  ⟨by decide +kernel, ⟨fun _ => ⟨by decide, by decide⟩, by decide +kernel, by decide +kernel⟩⟩

/-- V-CBC-6 and V-CBC-7: a plaintext with a padding and one without. -/
theorem witness_CbcDecPkcs7Completes :
    let s := cbcSetup (beBytes 16 0x7e9248e5d829ca7593f0c549db2f5b8c) 0x100#32 16#32
    let t := cbcSetup (beBytes 16 0xb7bf3a5df43989dd97f0fa97ebce2f4a) 0x100#32 16#32
    (s.buf.wf = true ∧ s.len.toNat % 16 = 0 ∧ 0 < s.len.toNat ∧ s.CbcAdmitted false s.len.toNat ∧
      (cbcDec (s.keyBytes 0) s.ivrBytes (s.memRead s.src.toNat s.len.toNat)).1 = [] ++ byteRep 16 16) ∧
    (t.buf.wf = true ∧ t.len.toNat % 16 = 0 ∧ 0 < t.len.toNat ∧ t.CbcAdmitted false t.len.toNat ∧
      ¬ ∃ (p : Bytes) (q : Nat), 1 ≤ q ∧ q ≤ 16 ∧
        (cbcDec (t.keyBytes 0) t.ivrBytes (t.memRead t.src.toNat t.len.toNat)).1 = p ++ byteRep q q) := by
  refine ⟨⟨by decide +kernel, by decide, by decide, ⟨(fun h => nomatch h), by decide +kernel, by decide +kernel⟩,
    by decide +kernel⟩, ⟨by decide +kernel, by decide, by decide,
    ⟨(fun h => nomatch h), by decide +kernel, by decide +kernel⟩, ?_⟩⟩
  rintro ⟨p, q, h1, h2, h⟩
  have hz : ∀ b ∈ p ++ byteRep q q, b = 0#8 := by rw [← h]; decide +kernel
  have hq : BitVec.ofNat 8 q = 0#8 := hz _ (by
    refine List.mem_append_right _ (List.mem_replicate.2 ⟨by omega, rfl⟩))
  have hn := congrArg BitVec.toNat hq
  simp at hn
  omega

/-- An empty input, whose output is empty too, at the end of BUF; and 3 bytes padded to 16. -/
theorem witness_CbcEncLegacyCompletes :
    (let s := { cbcSetup [] 4096#32 0#32 with context := someContext }
     s.buf.wf = true ∧ s.CbcAdmitted true (s.len.toNat + (16 - s.len.toNat % 16) % 16)) ∧
    (let s := { cbcSetup [0x61#8, 0x62#8, 0x63#8] 4080#32 3#32 with context := someContext }
     s.buf.wf = true ∧ s.CbcAdmitted true (s.len.toNat + (16 - s.len.toNat % 16) % 16)) :=
  ⟨⟨by decide +kernel, ⟨fun _ => ⟨by decide, by decide⟩, by decide +kernel, by decide +kernel⟩⟩,
    ⟨by decide +kernel, ⟨fun _ => ⟨by decide, by decide⟩, by decide +kernel, by decide +kernel⟩⟩⟩

theorem witness_CbcDecLegacyCompletes :
    let s := { cbcSetup (byteRep 1 16) 0#32 4096#32 with context := someContext, lmod := 15#4 }
    s.buf.wf = true ∧ s.len.toNat % 16 = 0 ∧ s.CbcAdmitted true s.len.toNat :=
  ⟨by decide +kernel, by decide, ⟨fun _ => ⟨by decide, by decide⟩, by decide +kernel, by decide +kernel⟩⟩

/-- CBC_ENC_LEGACY of 3 bytes, decrypted to another place. -/
theorem witness_CbcRoundTrips :
    let s := cbcSetup [0x61#8, 0x62#8, 0x63#8] 0x100#32 3#32
    let t := after (.cbcEncLegacy 0 false) s
    s.buf.wf = true ∧ cbcShape s.len.toNat (.cbcEncLegacy 0 false) = some (false, true, 16) ∧
    s.CbcAdmitted false 16 ∧ exec (.cbcEncLegacy 0 false) s = .next t ∧
    { t with ivr := s.ivr, src := s.dst, dst := 0x200#32, len := t.outlen }.CbcAdmitted false 16 :=
  ⟨by decide +kernel, by decide, ⟨(fun h => nomatch h), by decide +kernel, by decide +kernel⟩, exec_after _ _,
    ⟨(fun h => nomatch h), by decide +kernel, by decide +kernel⟩⟩

theorem witness_EncryptionChunks :
    let s := { cbcSetup (byteRep 1 16) 0x100#32 20#32 with context := someContext }
    s.buf.wf = true ∧ (16#32).toNat % 16 = 0 ∧ (16#32).toNat ≤ s.len.toNat ∧
    cbcShape s.len.toNat (.cbcEncPkcs7 0 true) = some (true, true, 32) ∧ s.CbcAdmitted true 32 :=
  ⟨by decide +kernel, by decide, by decide, by decide,
    ⟨fun _ => ⟨by decide, by decide⟩, by decide +kernel, by decide +kernel⟩⟩

theorem witness_DecryptionChunks :
    let s := { cbcSetup (byteRep 1 16) 0x100#32 32#32 with context := someContext }
    s.buf.wf = true ∧ (16#32).toNat % 16 = 0 ∧ (16#32).toNat < s.len.toNat ∧ s.len.toNat % 16 = 0 ∧
    s.CbcAdmitted true s.len.toNat :=
  ⟨by decide +kernel, by decide, by decide, by decide,
    ⟨fun _ => ⟨by decide, by decide⟩, by decide +kernel, by decide +kernel⟩⟩

theorem witness_InitCompletes :
    let s := { State.reset with src := 4096#32, len := 0#32 }
    s.src.toNat + s.len.toNat ≤ s.bufBytes := by decide

theorem witness_CtxUpdateCompletes :
    let s := { State.reset with context := .active .hmac .sha256 [] [0x61#8], len := 4096#32 }
    s.context = .active .hmac .sha256 [] [0x61#8] ∧ [0x61#8].length + s.len.toNat ≤ 2 ^ 60 ∧
    s.src.toNat + s.len.toNat ≤ s.bufBytes := by decide

theorem witness_CtxFinalCompletes :
    { State.reset with context := .active .hash .sha512 [] [] }.context = .active .hash .sha512 [] [] := rfl

theorem witness_CtxVerifyCompletes :
    verifySetup.context = .active .hmac .sha256 (counting 32) [0x61#8, 0x62#8, 0x63#8] ∧
    verifySetup.src.toNat + hashOutBytes .sha256 ≤ verifySetup.bufBytes ∧
    verifySetup.memRead verifySetup.src.toNat (hashOutBytes .sha256) =
      contextDigest .hmac .sha256 (counting 32) [0x61#8, 0x62#8, 0x63#8] := by decide +kernel

/-- An empty BUF is no tag of the empty message: its first byte differs from 0xe3 in bit 0 (H-1). -/
theorem witness_CtxVerifyDetectsTampering :
    let s := { State.reset with context := .active .hash .sha256 [] [] }
    s.context = .active .hash .sha256 [] [] ∧ s.src.toNat + hashOutBytes .sha256 ≤ s.bufBytes ∧
    0 < hashOutBytes .sha256 ∧
    (s.buf.read (s.src.toNat + 0)).getLsbD 0 ≠ ((contextDigest .hash .sha256 [] []).getD 0 0#8).getLsbD 0 := by
  decide +kernel

/-- The second clause at n = CTX_MAX_BYTES. -/
theorem witness_ContextErrors :
    (let s := { State.reset with src := 4096#32, len := 1#32 }
     s.bufBytes < s.src.toNat + s.len.toNat ∧ s.context = .inactive) ∧
    (∀ n, let s := { State.reset with context := absorbed n, len := 1#32 }
     s.context ≠ .inactive ∧ n < s.context.msgLength + s.len.toNat) ∧
    (let s := { State.reset with context := someContext, src := 4096#32, len := 1#32 }
     s.context ≠ .inactive ∧ s.context.msgLength + s.len.toNat ≤ 2 ^ 60 ∧
     s.bufBytes < s.src.toNat + s.len.toNat) ∧
    (let s := { State.reset with context := someContext, src := 4065#32 }
     s.context = .active .hmac .sha256 (counting 32) [0x61#8] ∧
     s.bufBytes < s.src.toNat + hashOutBytes .sha256) := by
  exact ⟨by decide, absorbed_state, by decide, by decide⟩

theorem witness_UpdateSplitting :
    let s := { State.reset with context := someContext, src := 4093#32, len := 3#32 }
    s.context ≠ .inactive ∧ s.len.toNat = [0, 1, 2].sum ∧ s.src.toNat + [0, 1, 2].sum ≤ s.bufBytes ∧
    s.context.msgLength + [0, 1, 2].sum ≤ 2 ^ 60 := by decide

theorem witness_AesInverse : (counting 16).length = 16 ∧
    aesEnc (zeros 32) (counting 16) = aesEnc (zeros 32) (counting 16) := ⟨by decide, rfl⟩

theorem witness_CbcSplit : (counting 16).length % 16 = 0 ∧ ([] : Bytes).length % 16 = 0 ∧
    (counting 32).length % 16 = 0 := by decide

theorem witness_CbcDecInvertsCbcEnc : (counting 16).length = 16 ∧ (counting 32).length % 16 = 0 := by decide

/-- R172 at the lengths where the number of blocks changes. -/
theorem witness_Sha256Padding : (counting 55).length < 2 ^ 61 ∧ (counting 56).length < 2 ^ 61 ∧
    (shaPad 64 8 (counting 55)).length = 64 ∧ (shaPad 64 8 (counting 56)).length = 128 := by decide +kernel

theorem witness_StepKeepsInvariant :
    EngineInv (outstanding 0x00000000#32 State.reset) ∧
    step (outstanding 0x00000000#32 State.reset) = .next (stepped (outstanding 0x00000000#32 State.reset)) :=
  ⟨⟨by decide, by decide, by decide, trivial, by decide, fun _ => ⟨rfl, rfl, rfl, rfl⟩, by decide, by decide,
    by decide⟩, step_stepped _⟩

end Sys2Proof.Tests
end

section
/-! PROOFS. Rules about single registers of the window: what a host access to one of them reads or stores when the lockout
lets it through, and the bits of the registers that are views of the state (10_state.md R24 to R37). -/

namespace Sys2Proof.Machine

/-! ### Accesses the lockout lets through, and writes that store nothing (R78) -/

/-- A register below SRC reads its value in either phase (R78 (a)). -/
theorem State.busRead_unlocked (s : State) {a : BitVec 16} (ha : a.toNat < 0x18) (h4 : a.toNat % 4 = 0) :
    s.busRead (.window a) .w4 = ⟨false, s.regRead (regAt (a.toNat / 4))⟩ := by
  have hr : (regAt (a.toNat / 4)).readableWhileBusy = true := (regAt_readableWhileBusy _).2 (by omega)
  simp [State.busRead_register s (by omega) h4, hr]

/-- CTRL takes a write in either phase (R78 (b)). -/
theorem State.busWrite_ctrl (s : State) (v : Word) :
    s.busWrite (.window 0x0008#16) .w4 v = (s.writeCtrl v, false) := by
  rw [State.busWrite_register s (by decide) (by decide)]
  exact if_neg (by simp [regAt, Reg.writableWhileBusy])

/-- STATUS takes a write in either phase (R36, R78 (b)). -/
theorem State.busWrite_status (s : State) (v : Word) :
    s.busWrite (.window 0x000C#16) .w4 v = (s.clearStatus v, false) := by
  rw [State.busWrite_register s (by decide) (by decide)]
  exact if_neg (by simp [regAt, Reg.writableWhileBusy])

/-- A write to a locked register that stores nothing even while Idle: all it can do is set OVF (R25, R78 (b)). -/
theorem State.busWrite_register_ignored (s : State) {a : BitVec 16} (ha : a.toNat < 0x8000) (h4 : a.toNat % 4 = 0)
    (v : Word) (hw : (regAt (a.toNat / 4)).writableWhileBusy = false)
    (hs : s.regWrite (regAt (a.toNat / 4)) v = s) :
    s.busWrite (.window a) .w4 v = if s.busy then (s.dropWrite, false) else (s, false) := by
  rw [State.busWrite_register s ha h4, hw, hs, Bool.not_false, Bool.and_true]

/-- An ignored write, phase by phase. -/
theorem State.ignored_by_phase {s : State} {r : State × Bool}
    (h : r = if s.busy then (s.dropWrite, false) else (s, false)) :
    (s.phase = .idle → r = (s, false)) ∧ (s.phase = .busy → r = ({ s with ovf := true }, false)) := by
  subst h
  refine ⟨fun hi => ?_, fun hb => ?_⟩
  · simp [State.busy_of_idle hi]
  · exact if_pos (s.busy_iff.2 hb)

/-! ### Reserved offsets (R25) -/

/-- A reserved offset of the register region reads 0 and ignores writes. -/
theorem State.reserved_register (s : State) {a : BitVec 16} (ha : a.toNat < 0x8000) (h4 : a.toNat % 4 = 0) (v : Word)
    (hr : regAt (a.toNat / 4) = .reserved) :
    s.busRead (.window a) .w4 = ⟨false, 0#32⟩ ∧
    s.busWrite (.window a) .w4 v = if s.busy then (s.dropWrite, false) else (s, false) := by
  refine ⟨?_, s.busWrite_register_ignored ha h4 v (by rw [hr]; rfl) (by rw [hr]; rfl)⟩
  rw [State.busRead_register s ha h4, hr]
  exact ite_self _

/-- An offset of the buffer region past BUF reads 0 and ignores writes. -/
theorem State.reserved_buffer (s : State) {a : BitVec 16} {w : Width} (hl : legalAccess a w = true) (v : Word)
    (ha : 0x8000 + s.bufBytes ≤ a.toNat) :
    s.busRead (.window a) w = ⟨false, 0#32⟩ ∧
    s.busWrite (.window a) w v = if s.busy then (s.dropWrite, false) else (s, false) := by
  have hi : ¬ a.toNat - bufBase < s.bufBytes := by rw [bufBase]; omega
  rw [State.busRead_buffer s (by omega) hl, State.busWrite_buffer s (by omega) hl, State.bufLoad, State.bufStore,
    if_neg hi, if_neg hi]
  exact ⟨ite_self _, rfl⟩

/-! ### Bits of the registers that are views -/

/-- `bitAt i b` has the one bit `b`, at place `i`. -/
theorem getLsbD_bitAt (i j : Nat) (b : Bool) : (bitAt i b).getLsbD j = (decide (j < 32) && decide (j = i) && b) := by
  unfold bitAt
  rw [BitVec.getLsbD_shiftLeft, BitVec.getLsbD_setWidth, BitVec.getLsbD_ofBool]
  rcases lt_trichotomy j i with h | rfl | h
  · simp [h, h.ne]
  · simp
  · simp [h.ne', Nat.sub_ne_zero_of_lt h]

/-- Bits 31:8 of STATUS read 0 (R29). -/
theorem State.statusWord_reserved (s : State) {i : Nat} (hi : 8 ≤ i) : s.statusWord.getLsbD i = false := by
  have off : ∀ k b, k < 8 → (bitAt k b).getLsbD i = false := fun k b hk => by
    have : i ≠ k := by omega
    simp [getLsbD_bitAt, this]
  simp [State.statusWord, off]

/-- Bit 1 and bits 31:2 of CTRL read 0 (R27). -/
theorem State.ctrlWord_reserved (s : State) {i : Nat} (hi : 1 ≤ i) : s.ctrlWord.getLsbD i = false := by
  have : i ≠ 0 := by omega
  simp [State.ctrlWord, getLsbD_bitAt, this]

/-- A value of `n` bits, extended to a word, has no bit from `n` on. -/
theorem getLsbD_zeroExtend_of_ge {n i : Nat} (x : BitVec n) (hi : n ≤ i) : (x.zeroExtend 32).getLsbD i = false := by
  rw [BitVec.getLsbD_setWidth, BitVec.getLsbD_of_ge x i hi, Bool.and_false]

/-- CAPS as its constant fields NKEYS and HWREV above BUF_LOG2 (R26). -/
theorem State.capsWord_eq (s : State) : s.capsWord = 0x1400#32 + BitVec.ofNat 32 s.bufSize.log2 := by
  unfold State.capsWord
  cases s.bufSize <;> rfl

/-- BUF_BYTES is 2 to the power CAPS.BUF_LOG2 (R26). -/
theorem BufSize.two_pow_log2 (b : BufSize) : 2 ^ b.log2 = b.bytes := by cases b <;> rfl

/-- The fields of CAPS (R26). -/
theorem State.capsWord_fields (s : State) :
    (s.capsWord.extractLsb' 0 8).toNat = s.bufSize.log2 ∧ s.capsWord.extractLsb' 8 4 = 4#4 ∧
    s.capsWord.extractLsb' 12 4 = 1#4 ∧ s.capsWord.extractLsb' 16 16 = 0#16 := by
  rw [State.capsWord_eq]
  cases s.bufSize <;> decide

/-- Bits 31:16 of CAPS read 0 (R26). -/
theorem State.capsWord_reserved (s : State) {i : Nat} (hi : 16 ≤ i) : s.capsWord.getLsbD i = false := by
  obtain ⟨-, -, -, hhigh⟩ := s.capsWord_fields
  by_cases h32 : i < 32
  · have h := congrArg (fun x => BitVec.getLsbD x (i - 16)) hhigh
    have hlt : i - 16 < 16 := by omega
    simpa [BitVec.getLsbD_extractLsb', hlt, Nat.add_sub_cancel' hi] using h
  · exact BitVec.getLsbD_of_ge _ _ (by omega)

/-! ### Reserved bits of a written value (R25) -/

/-- Words with the same low `n` bits agree at each of these bits. -/
theorem getLsbD_eq_of_extractLsb'_eq {n : Nat} {v u : Word} (h : v.extractLsb' 0 n = u.extractLsb' 0 n) {i : Nat}
    (hi : i < n) : v.getLsbD i = u.getLsbD i := by
  have hb := congrArg (fun x => BitVec.getLsbD x i) h
  simpa [BitVec.getLsbD_extractLsb', hi] using hb

/-- A write to CTRL uses bits 1:0 alone (R27, R28). -/
theorem State.writeCtrl_congr (s : State) {v u : Word} (h : v.extractLsb' 0 2 = u.extractLsb' 0 2) :
    s.writeCtrl v = s.writeCtrl u := by
  unfold State.writeCtrl
  rw [getLsbD_eq_of_extractLsb'_eq h (i := 0) (by omega), getLsbD_eq_of_extractLsb'_eq h (i := 1) (by omega)]

/-- A write to STATUS uses bits 7:0 alone (R36). -/
theorem State.clearStatus_congr (s : State) {v u : Word} (h : v.extractLsb' 0 8 = u.extractLsb' 0 8) :
    s.clearStatus v = s.clearStatus u := by
  unfold State.clearStatus
  rw [getLsbD_eq_of_extractLsb'_eq h (i := 1) (by omega), getLsbD_eq_of_extractLsb'_eq h (i := 2) (by omega),
    getLsbD_eq_of_extractLsb'_eq h (i := 7) (by omega)]

/-- A write to LMOD uses bits 3:0 alone (R43). -/
theorem State.regWrite_lmod_congr (s : State) {v u : Word} (h : v.extractLsb' 0 4 = u.extractLsb' 0 4) :
    s.regWrite .lmod v = s.regWrite .lmod u := by
  simp only [State.regWrite, h]

end Sys2Proof.Machine
end

section
/-! PROOFS. The obligations of 10_state.md about single registers and reserved places. -/

namespace Sys2Proof.Machine

/-- A reserved offset of any of the ranges of R23 reads 0 and ignores a legal write. -/
theorem State.reserved_offset (s : State) (a : BitVec 16) (w : Width) (v : Word) (hl : legalAccess a w = true)
    (ha : (0x0030 ≤ a.toNat ∧ a.toNat < 0x0040) ∨ (0x0050 ≤ a.toNat ∧ a.toNat < 0x0080) ∨
      (0x0140 ≤ a.toNat ∧ a.toNat < 0x8000) ∨ 0x8000 + s.bufBytes ≤ a.toNat) :
    s.busRead (.window a) w = ⟨false, 0#32⟩ ∧
    s.busWrite (.window a) w v = if s.busy then (s.dropWrite, false) else (s, false) := by
  by_cases hreg : a.toNat < 0x8000
  · obtain ⟨rfl, h4⟩ := (legalAccess_register hreg w).1 hl
    exact s.reserved_register hreg h4 v (regAt_reserved _ (by omega))
  · exact s.reserved_buffer hl v (by omega)

/-- Bits 31:4 of LMOD read 0, in either phase (R43, R78). -/
theorem State.busRead_lmod_reserved (s : State) {i : Nat} (hi : 4 ≤ i) :
    (s.busRead (.window 0x0028#16) .w4).data.getLsbD i = false := by
  rw [State.busRead_register s (by decide) (by decide)]
  split
  · exact BitVec.getLsbD_zero
  · exact getLsbD_zeroExtend_of_ge s.lmod hi

/-- The reserved bits of CTRL, STATUS, ERRCODE, CAPS and LMOD read 0 (R25). -/
theorem State.busRead_reserved_bits (s : State) :
    (∀ i, 1 ≤ i → (s.busRead (.window 0x0008#16) .w4).data.getLsbD i = false) ∧
    (∀ i, 8 ≤ i → (s.busRead (.window 0x000C#16) .w4).data.getLsbD i = false) ∧
    (∀ i, 8 ≤ i → (s.busRead (.window 0x0010#16) .w4).data.getLsbD i = false) ∧
    (∀ i, 16 ≤ i → (s.busRead (.window 0x0004#16) .w4).data.getLsbD i = false) ∧
    (∀ i, 4 ≤ i → (s.busRead (.window 0x0028#16) .w4).data.getLsbD i = false) := by
  refine ⟨fun i hi => ?ctrl, fun i hi => ?status, fun i hi => ?errcode, fun i hi => ?caps,
    fun i hi => s.busRead_lmod_reserved hi⟩
  case ctrl =>
    rw [State.busRead_unlocked s (by decide) (by decide)]
    exact s.ctrlWord_reserved hi
  case status =>
    rw [State.busRead_unlocked s (by decide) (by decide)]
    exact s.statusWord_reserved hi
  case errcode =>
    rw [State.busRead_unlocked s (by decide) (by decide)]
    exact getLsbD_zeroExtend_of_ge s.errcode.toByte hi
  case caps =>
    rw [State.busRead_unlocked s (by decide) (by decide)]
    exact s.capsWord_reserved hi

/-- A write to LMOD that differs only in reserved bits has the same effect, in either phase (R25, R43). -/
theorem State.busWrite_lmod_congr (s : State) {v u : Word} (h : v.extractLsb' 0 4 = u.extractLsb' 0 4) :
    s.busWrite (.window 0x0028#16) .w4 v = s.busWrite (.window 0x0028#16) .w4 u := by
  have hstore : s.regWrite (regAt ((0x0028#16).toNat / 4)) v = s.regWrite (regAt ((0x0028#16).toNat / 4)) u :=
    s.regWrite_lmod_congr h
  rw [State.busWrite_register s (by decide) (by decide), State.busWrite_register s (by decide) (by decide), hstore]

/-- Settles O18: the reserved offsets by the two regions of the window, the reserved bits register by register. -/
theorem reservedOffsetsAndBits : Obligations.ReservedOffsetsAndBits := by
  unfold Obligations.ReservedOffsetsAndBits
  refine ⟨fun s a w v hl ha => ?offsets, State.busRead_reserved_bits, fun s v u => ⟨?ctrl, ?status, ?lmod⟩⟩
  case offsets =>
    obtain ⟨hread, hwrite⟩ := s.reserved_offset a w v hl ha
    exact ⟨hread, State.ignored_by_phase hwrite⟩
  case ctrl =>
    intro h
    rw [State.busWrite_ctrl, State.busWrite_ctrl, s.writeCtrl_congr h]
  case status =>
    intro h
    rw [State.busWrite_status, State.busWrite_status, s.clearStatus_congr h]
  case lmod => exact s.busWrite_lmod_congr

/-- Settles O10: the lockout lets the write through, and each flag is cleared by its own bit. -/
theorem statusWriteOneToClear : Obligations.StatusWriteOneToClear := by
  unfold Obligations.StatusWriteOneToClear
  intro s v
  rw [State.busWrite_status, State.clearStatus]
  simp only [Bool.if_false_left, Bool.decide_eq_true, Bool.and_comm]

/-- Settles O15: ID by the rule for ignored writes, CAPS by its fields for each buffer size. -/
theorem idAndCaps : Obligations.IdAndCaps := by
  unfold Obligations.IdAndCaps
  refine ⟨fun s v => ⟨?idRead, ?idWrite⟩, fun s => ⟨?capsRead, ?capsFields⟩, fun s h => ?capsReference⟩
  case idRead => exact s.busRead_unlocked (by decide) (by decide)
  case idWrite =>
    exact State.ignored_by_phase (s.busWrite_register_ignored (by decide) (by decide) v rfl rfl)
  case capsRead => exact s.busRead_unlocked (by decide) (by decide)
  case capsFields =>
    obtain ⟨hlog, hkeys, hrev, hhigh⟩ := s.capsWord_fields
    rw [hlog]
    refine ⟨BufSize.two_pow_log2 s.bufSize, ?_, hkeys, hrev, hhigh⟩
    cases s.bufSize <;> simp [BufSize.log2]
  case capsReference =>
    have hlog : s.bufSize.log2 = 12 := Nat.pow_right_injective (le_refl 2) ((BufSize.two_pow_log2 s.bufSize).trans h)
    rw [State.capsWord_eq, hlog]
    rfl

end Sys2Proof.Machine
end

section
/-! PROOFS. Rules about the host's accesses by their offset: which are legal, what the busy lockout locks, which writes
store nothing, and what a read of BUF sees of a store before it (20_memory.md R71 to R78). -/

namespace Sys2Proof.Machine

/-! ### Legal accesses answer without error (R71, R73) -/

/-- A legal access is an aligned 32-bit one below 0x8000 or an aligned one of any width from there on (R71). -/
theorem legalAccess_iff (a : BitVec 16) (w : Width) :
    legalAccess a w = true ↔
      (a.toNat ≤ 0x7FFF ∧ w = .w4 ∧ a.toNat % 4 = 0) ∨ (0x8000 ≤ a.toNat ∧ a.toNat % w.bytes = 0) := by
  by_cases hreg : a.toNat < 0x8000
  · have hlow : a.toNat ≤ 0x7FFF := by omega
    simp [legalAccess_register hreg, hlow, hreg]
  · have hbuf : 0x8000 ≤ a.toNat := by omega
    have hnot : ¬ a.toNat ≤ 0x7FFF := by omega
    simp [legalAccess_buffer hbuf, hbuf, hnot]

/-- A legal read answers without error, in either region and either phase. -/
theorem State.busRead_error_of_legal (s : State) {a : BitVec 16} {w : Width} (hl : legalAccess a w = true) :
    (s.busRead (.window a) w).error = false := by
  by_cases hreg : a.toNat < 0x8000
  · obtain ⟨rfl, h4⟩ := (legalAccess_register hreg w).1 hl
    rw [State.busRead_register s hreg h4]
    split <;> rfl
  · rw [State.busRead_buffer s (by omega) hl]
    split <;> rfl

/-- A legal write answers without error, in either region and either phase. -/
theorem State.busWrite_error_of_legal (s : State) {a : BitVec 16} {w : Width} (hl : legalAccess a w = true)
    (v : Word) : (s.busWrite (.window a) w v).2 = false := by
  by_cases hreg : a.toNat < 0x8000
  · obtain ⟨rfl, h4⟩ := (legalAccess_register hreg w).1 hl
    rw [State.busWrite_register s hreg h4]
    split <;> rfl
  · rw [State.busWrite_buffer s (by omega) hl]
    split <;> rfl

/-! ### The busy lockout by offset (R78) -/

/-- While Busy a legal read from SRC on gives 0: only ID, CAPS, CTRL, STATUS, ERRCODE and CMD lie below it. -/
theorem State.busRead_locked (s : State) (hb : s.busy = true) {a : BitVec 16} {w : Width}
    (hl : legalAccess a w = true) (ha : 0x18 ≤ a.toNat) : s.busRead (.window a) w = ⟨false, 0#32⟩ := by
  by_cases hreg : a.toNat < 0x8000
  · obtain ⟨rfl, h4⟩ := (legalAccess_register hreg w).1 hl
    have hr : (regAt (a.toNat / 4)).readableWhileBusy = false := by
      rw [← Bool.not_eq_true, regAt_readableWhileBusy]
      omega
    rw [State.busRead_register s hreg h4, hb, hr]
    rfl
  · rw [State.busRead_buffer s (by omega) hl, if_pos hb]

/-- While Busy a legal write of any offset but CTRL and STATUS is dropped. -/
theorem State.busWrite_locked (s : State) (hb : s.busy = true) {a : BitVec 16} {w : Width}
    (hl : legalAccess a w = true) (hctrl : a.toNat ≠ 0x0008) (hstatus : a.toNat ≠ 0x000C) (v : Word) :
    s.busWrite (.window a) w v = (s.dropWrite, false) := by
  by_cases hreg : a.toNat < 0x8000
  · obtain ⟨rfl, h4⟩ := (legalAccess_register hreg w).1 hl
    have hw : (regAt (a.toNat / 4)).writableWhileBusy = false := by
      rw [← Bool.not_eq_true, regAt_writableWhileBusy]
      omega
    rw [State.busWrite_register s hreg h4, hb, hw]
    rfl
  · rw [State.busWrite_buffer s (by omega) hl, if_pos hb]

/-! ### Read-only registers (R78) -/

/-- The words of ID, CAPS, ERRCODE, OUTLEN and RESULT store nothing. -/
theorem State.regWrite_readOnly (s : State) {n : Nat} (hn : n ∈ [0, 1, 4, 11] ∨ (64 ≤ n ∧ n < 80)) (v : Word) :
    s.regWrite (regAt n) v = s := by
  rcases hn with hn | hn
  · simp only [List.mem_cons, List.not_mem_nil, or_false] at hn
    rcases hn with rfl | rfl | rfl | rfl <;> rfl
  · obtain ⟨j, hj⟩ := regAt_res n hn
    rw [hj]
    rfl

/-- All a legal write to a read-only register can do is set OVF. -/
theorem State.busWrite_readOnly (s : State) {a : BitVec 16} {w : Width} (hl : legalAccess a w = true)
    (ha : a.toNat ∈ [0x0000, 0x0004, 0x0010, 0x002C] ∨ (0x0100 ≤ a.toNat ∧ a.toNat < 0x0140)) (v : Word) :
    s.busWrite (.window a) w v = if s.busy then (s.dropWrite, false) else (s, false) := by
  simp only [List.mem_cons, List.not_mem_nil, or_false] at ha
  have hreg : a.toNat < 0x8000 := by omega
  obtain ⟨rfl, h4⟩ := (legalAccess_register hreg w).1 hl
  have hw : (regAt (a.toNat / 4)).writableWhileBusy = false := by
    rw [← Bool.not_eq_true, regAt_writableWhileBusy]
    omega
  have hn : a.toNat / 4 ∈ [0, 1, 4, 11] ∨ (64 ≤ a.toNat / 4 ∧ a.toNat / 4 < 80) := by
    simp only [List.mem_cons, List.not_mem_nil, or_false]
    omega
  exact s.busWrite_register_ignored hreg h4 v hw (s.regWrite_readOnly hn v)

/-! ### Reads by the host agent (R75) -/

/-- What a read gives depends neither on the host's own record nor on the delay. -/
theorem State.busRead_with_delay_host (s : State) (d : Nat) (h : HostAgent) (t : BusAddr) (w : Width) :
    State.busRead { s with delay := d, host := h } t w = s.busRead t w := rfl

/-- A step that makes a read records the response; of the rest only the delay moves. -/
theorem step_rd {s : State} {a : BusAddr} {w : Width} {rest : List HostStmt}
    (hturn : ¬ (s.phase = .busy ∧ s.delay = 0)) (hp : s.host.program = .rd a w :: rest) :
    step s = .next { s with
      delay := s.delay - 1, host := { s.host with program := rest, last := s.busRead a w } } := by
  have hhost : s.engineTurn = false := by rwa [← Bool.not_eq_true, State.engineTurn_iff]
  simp only [step, hhost, Bool.false_eq_true, if_false, hostStep, hp]
  rfl

/-! ### Reads of BUF after a store (R72, R74) -/

/-- A read inside stored bytes gives those bytes. -/
theorem State.memRead_memWrite_inside (s : State) (hm : s.buf.rising) {o k n : Nat} {bs : Bytes}
    (h : k + n ≤ bs.length) : (s.memWrite o bs).memRead (o + k) n = slice k n bs := by
  apply List.ext_getElem
  · simp only [State.memRead_length, slice, List.length_take, List.length_drop]
    omega
  · intro i hi _
    rw [State.memRead_length] at hi
    have hin : k + i < bs.length := by omega
    simp [State.memRead, State.memWrite, slice, Memory.read_writeBytes hm, Nat.add_assoc, hin]

/-- A slice inside the first bytes of a string is a slice of the whole string. -/
theorem slice_take_of_le {k n m : Nat} (bs : Bytes) (h : k + n ≤ m) : slice k n (bs.take m) = slice k n bs := by
  have hmin : min n (m - k) = n := by omega
  rw [slice, slice, List.drop_take, List.take_take, hmin]

/-- Legal accesses to the buffer region are aligned by their index in it (R71). -/
theorem legalAccess_buffer_index {a : BitVec 16} {w : Width} (hbuf : 0x8000 ≤ a.toNat)
    (hl : legalAccess a w = true) : (a.toNat - bufBase) % w.bytes = 0 := by
  have hmod : a.toNat % w.bytes = 0 := (legalAccess_buffer hbuf w).1 hl
  have hbase : bufBase % w.bytes = 0 := by cases w <;> rfl
  exact Nat.sub_mod_eq_zero_of_mod_eq (hmod.trans hbase.symm)

/-- A store into the buffer region leaves the phase. -/
theorem State.bufStore_busy (s : State) (i : Nat) (w : Width) (v : Word) : (s.bufStore i w v).busy = s.busy := by
  rw [State.bufStore_eq]
  rfl

/-- After a store to BUF, a load of any width inside the bytes stored gives those bytes of the value. -/
theorem State.bufLoad_bufStore_inside (s : State) (hm : s.buf.rising) {i k : Nat} {w u : Width}
    (hi : i % w.bytes = 0) (hstart : i < s.bufBytes) (hin : k + u.bytes ≤ w.bytes) (v : Word) :
    (s.bufStore i w v).bufLoad (i + k) u = leWordOf (slice k u.bytes (wordBytes v)) := by
  have hstop : i + k < s.bufBytes := by
    have hfit : i + w.bytes ≤ s.bufBytes := s.store_inside hi hstart
    have hpos : 0 < u.bytes := by cases u <;> decide
    omega
  have hlen : k + u.bytes ≤ ((wordBytes v).take w.bytes).length := by rwa [wordBytes_take_length]
  have hread := s.memRead_memWrite_inside hm (o := i) hlen
  rw [slice_take_of_le _ hin] at hread
  rw [State.bufStore, if_pos hstart, State.bufLoad, hread]
  exact if_pos hstop

/-- After a write to BUF, a read of any width inside the bytes written gives those bytes of the value (R72, R74). -/
theorem State.busRead_busWrite_inside (s : State) (hidle : s.phase = .idle) (hwf : s.buf.wf = true)
    {a b : BitVec 16} {w u : Width} (hw : legalAccess a w = true) (hu : legalAccess b u = true)
    (hbuf : 0x8000 ≤ a.toNat) (hend : a.toNat < 0x8000 + s.bufBytes) (hle : a.toNat ≤ b.toNat)
    (hin : b.toNat + u.bytes ≤ a.toNat + w.bytes) (v : Word) :
    (s.busWrite (.window a) w v).1.busRead (.window b) u =
      ⟨false, leWordOf (slice (b.toNat - a.toNat) u.bytes (wordBytes v))⟩ := by
  have hidx : b.toNat - bufBase = (a.toNat - bufBase) + (b.toNat - a.toNat) := by rw [bufBase]; omega
  have hstart : a.toNat - bufBase < s.bufBytes := by rw [bufBase]; omega
  have hload := s.bufLoad_bufStore_inside ((Memory.wf_iff _).1 hwf).1 (legalAccess_buffer_index hbuf hw) hstart
    (show b.toNat - a.toNat + u.bytes ≤ w.bytes by omega) v
  rw [← hidx] at hload
  simp only [State.busWrite_buffer s hbuf hw, State.busRead_buffer _ (hbuf.trans hle) hu, State.bufStore_busy,
    State.busy_of_idle hidle, Bool.false_eq_true, if_false, hload]

end Sys2Proof.Machine
end

section
/-! PROOFS. The obligations of 20_memory.md about legality, the busy lockout, reads and mixed widths. -/

namespace Sys2Proof.Machine

/-- Settles O16: an access outside the window always errs; inside, the statement's legality is the model's. -/
theorem busErrors : Obligations.BusErrors := by
  unfold Obligations.BusErrors
  intro s t w v
  cases t with
  | outside => exact ⟨fun ⟨_, h, _⟩ => (nomatch h), fun _ => ⟨rfl, rfl⟩⟩
  | window a =>
    refine ⟨?legal, fun hn => ?illegal⟩
    case legal =>
      rintro ⟨_, ⟨rfl⟩, h⟩
      have hl := (legalAccess_iff a w).2 h
      exact ⟨s.busRead_error_of_legal hl, s.busWrite_error_of_legal hl v⟩
    case illegal =>
      have hl : legalAccess a w = false := by
        rw [← Bool.not_eq_true, legalAccess_iff]
        exact fun h => hn ⟨a, rfl, h⟩
      exact ⟨s.busRead_illegal hl, s.busWrite_illegal hl v⟩

/-- A legal access below SRC is one of the six registers that read while Busy. -/
theorem legalAccess_below_src {a : BitVec 16} {w : Width} (hl : legalAccess a w = true)
    (ha : a.toNat ∉ [0x0000, 0x0004, 0x0008, 0x000C, 0x0010, 0x0014]) : 0x18 ≤ a.toNat := by
  rw [legalAccess_iff] at hl
  simp only [List.mem_cons, List.not_mem_nil, or_false] at ha
  omega

/-- Settles O17: what is locked is locked by offset, and a read-only register stores nothing. -/
theorem busyLockout : Obligations.BusyLockout := by
  unfold Obligations.BusyLockout
  refine fun s a w v hl => ⟨fun hbusy => ⟨fun ha => ?read, fun ha => ?write⟩, fun hidle ha => ?readOnly⟩
  case read => exact s.busRead_locked (s.busy_iff.2 hbusy) hl (legalAccess_below_src hl ha)
  case write =>
    simp only [List.mem_cons, List.not_mem_nil, or_false, not_or] at ha
    exact s.busWrite_locked (s.busy_iff.2 hbusy) hl ha.1 ha.2 v
  case readOnly => exact (State.ignored_by_phase (s.busWrite_readOnly hl ha v)).1 hidle

/-- Settles O19: the step is known outright, and the read does not look at what it changed. -/
theorem readsHaveNoSideEffect : Obligations.ReadsHaveNoSideEffect := by
  unfold Obligations.ReadsHaveNoSideEffect
  intro s t a w rest hturn hp hstep
  obtain rfl := Host.Outcome.next.inj ((step_rd hturn hp).symm.trans hstep)
  exact ⟨rfl, s.busRead_with_delay_host _ _ a w⟩

/-- Settles O21: each of the three reads lies inside the four bytes written. -/
theorem mixedWidths : Obligations.MixedWidths := by
  unfold Obligations.MixedWidths
  intro s hidle hwf
  have hend : (0x8000#16).toNat < 0x8000 + s.bufBytes := by
    unfold State.bufBytes
    cases s.bufSize <;> decide
  have inside {b : BitVec 16} {u : Width} (hu : legalAccess b u = true) (hle : (0x8000#16).toNat ≤ b.toNat)
      (hin : b.toNat + u.bytes ≤ (0x8000#16).toNat + Width.w4.bytes) :=
    s.busRead_busWrite_inside hidle hwf (w := .w4) (by decide) hu (by decide) hend hle hin 0x44332211#32
  refine ⟨?low8, ?high16, ?next8⟩
  case low8 => exact inside (by decide) (by decide) (by decide)
  case high16 => exact inside (by decide) (by decide) (by decide)
  case next8 => exact inside (by decide) (by decide) (by decide)

end Sys2Proof.Machine
end

section
/-! PROOFS. Rules about command words: the fields of a word, the rows of the opcode map as well-formedness, and what the
decoder answers (30_encoding.md R101 to R106). -/

namespace Sys2Proof

/-! ### The fields of a word (R101) -/

/-- Words with the same `n` bits from bit `k` on agree at each of these bits. -/
theorem getLsbD_eq_of_extractLsb'_eq_from {k n : Nat} {v u : Word} (h : v.extractLsb' k n = u.extractLsb' k n)
    {i : Nat} (hk : k ≤ i) (hn : i < k + n) : v.getLsbD i = u.getLsbD i := by
  have hb := congrArg (fun x => BitVec.getLsbD x (i - k)) h
  have hlt : i - k < n := by omega
  simpa [BitVec.getLsbD_extractLsb', hlt, Nat.add_sub_cancel' hk] using hb

/-- The fields of a command word cover its 32 bits (R101). -/
theorem RawCommand.ofWord_injective : Function.Injective RawCommand.ofWord := by
  intro w v h
  obtain ⟨hopc, hks, hm, hrsv11, hh, hrsv⟩ := RawCommand.mk.inj h
  refine BitVec.eq_of_getLsbD_eq fun i hi => ?_
  obtain hi | hi | rfl | rfl | rfl | hi :
      i < 8 ∨ (8 ≤ i ∧ i < 10) ∨ i = 10 ∨ i = 11 ∨ i = 12 ∨ 13 ≤ i := by omega
  · exact getLsbD_eq_of_extractLsb'_eq_from hopc (by omega) (by omega)
  · exact getLsbD_eq_of_extractLsb'_eq_from hks hi.1 (by omega)
  · exact hm
  · exact hrsv11
  · exact hh
  · exact getLsbD_eq_of_extractLsb'_eq_from hrsv hi (by omega)

/-- A masked word has a given value iff it does field by field. -/
theorem and_eq_iff_fields (w u p : Word) :
    w &&& u = p ↔
      let c := RawCommand.ofWord w
      let k := RawCommand.ofWord u
      let d := RawCommand.ofWord p
      c.opc &&& k.opc = d.opc ∧ c.ks &&& k.ks = d.ks ∧ (c.m && k.m) = d.m ∧ (c.rsv11 && k.rsv11) = d.rsv11 ∧
        (c.h && k.h) = d.h ∧ c.rsv &&& k.rsv = d.rsv := by
  rw [← RawCommand.ofWord_injective.eq_iff]
  simp [RawCommand.ofWord, BitVec.extractLsb'_and]

/-! ### The rows of the opcode map (R103, R104) -/

/-- The match of a row holds its opcode alone, and its mask covers all but the fields the row admits (R103). -/
theorem opcodeRow_fields : ∀ r ∈ opcodeRows,
    let d := RawCommand.ofWord r.pattern
    d = ⟨d.opc, 0#2, false, false, false, 0#19⟩ ∧ d.opcodeDefined = true ∧
    RawCommand.ofWord r.mask =
      ⟨BitVec.allOnes 8, if d.admitsKs then 0#2 else BitVec.allOnes 2, !d.admitsM, true, !d.admitsH,
        BitVec.allOnes 19⟩ := by
  decide

/-- What a row admits depends on its opcode alone (R103). -/
theorem RawCommand.admits_congr {c d : RawCommand} (h : c.opc = d.opc) :
    c.opcodeDefined = d.opcodeDefined ∧ c.admitsKs = d.admitsKs ∧ c.admitsM = d.admitsM ∧ c.admitsH = d.admitsH := by
  simp only [RawCommand.opcodeDefined, RawCommand.admitsKs, RawCommand.admitsM, RawCommand.admitsH, h, and_self]

/-- A command is well-formed iff its opcode is defined and each field its row does not take is 0 (R106). -/
theorem RawCommand.wellFormed_iff (c : RawCommand) :
    c.wellFormed = true ↔ c.opcodeDefined = true ∧ (c.admitsKs = true ∨ c.ks = 0#2) ∧
      (c.admitsM = true ∨ c.m = false) ∧ c.rsv11 = false ∧ (c.admitsH = true ∨ c.h = false) ∧ c.rsv = 0#19 := by
  simp only [RawCommand.wellFormed, RawCommand.reservedClear, Bool.and_eq_true, Bool.or_eq_true, beq_iff_eq,
    Bool.not_eq_true']
  tauto

/-- A word spells a row iff it has the row's opcode and is well-formed (R104, R106). -/
theorem OpcodeRow.spells_iff {r : OpcodeRow} (hr : r ∈ opcodeRows) (w : Word) :
    r.spells w = true ↔
      (RawCommand.ofWord w).opc = (RawCommand.ofWord r.pattern).opc ∧ (RawCommand.ofWord w).wellFormed = true := by
  obtain ⟨hpattern, hdef, hmask⟩ := opcodeRow_fields r hr
  rw [OpcodeRow.spells, beq_iff_eq, and_eq_iff_fields, RawCommand.wellFormed_iff, hmask]
  generalize RawCommand.ofWord w = c, RawCommand.ofWord r.pattern = d at *
  obtain ⟨-, hks, hm, hrsv11, hh, hrsv⟩ := RawCommand.mk.inj hpattern
  simp only [hks, hm, hrsv11, hh, hrsv, BitVec.and_allOnes, Bool.and_true]
  refine and_congr_right fun hopc => ?_
  obtain ⟨hdef', hadmitsKs, hadmitsM, hadmitsH⟩ := RawCommand.admits_congr hopc
  rw [hdef', hadmitsKs, hadmitsM, hadmitsH, hdef]
  have masked_ks :
      (c.ks &&& if d.admitsKs then 0#2 else BitVec.allOnes 2) = 0#2 ↔ d.admitsKs = true ∨ c.ks = 0#2 := by
    split
    · next h => simp [h]
    · next h => rw [BitVec.and_allOnes, or_iff_right h]
  have masked (b x : Bool) : (b && !x) = false ↔ x = true ∨ b = false := by cases x <;> simp
  simp only [masked_ks, masked, true_and]

/-- The defined opcodes are those of the map (R103, R106 (a)). -/
theorem RawCommand.opcodeDefined_iff_exists_row (c : RawCommand) :
    c.opcodeDefined = true ↔ ∃ r ∈ opcodeRows, c.opc = (RawCommand.ofWord r.pattern).opc := by
  have hmap : c.opcodeDefined = (opcodeRows.map (fun r => (RawCommand.ofWord r.pattern).opc)).contains c.opc := rfl
  rw [hmap, List.contains_iff_mem, List.mem_map]
  simp only [eq_comm]

/-- Some row matches a word iff the word is well-formed (R104, R106). -/
theorem opcodeRows_any_spells (w : Word) :
    opcodeRows.any (fun r => r.spells w) = (RawCommand.ofWord w).wellFormed := by
  rw [Bool.eq_iff_iff, List.any_eq_true]
  constructor
  · rintro ⟨r, hr, hspells⟩
    exact ((OpcodeRow.spells_iff hr w).1 hspells).2
  · intro hwf
    have hdef := ((RawCommand.wellFormed_iff _).1 hwf).1
    obtain ⟨r, hr, hopc⟩ := (RawCommand.opcodeDefined_iff_exists_row _).1 hdef
    exact ⟨r, hr, (OpcodeRow.spells_iff hr w).2 ⟨hopc, hwf⟩⟩

/-! ### Which opcodes are defined and which fields their rows take, by number (R103) -/

theorem RawCommand.opcodeDefined_iff (c : RawCommand) :
    c.opcodeDefined = true ↔ c.opc.toNat ∈
      [0x00, 0x01, 0x10, 0x11, 0x20, 0x21, 0x22, 0x23, 0x24, 0x25, 0x30, 0x31, 0x32, 0x33, 0x34, 0x35] := by
  simp [RawCommand.opcodeDefined, ← BitVec.toNat_inj]

theorem RawCommand.admitsKs_iff (c : RawCommand) :
    c.admitsKs = true ↔ c.opc.toNat ∈ [0x10, 0x11, 0x20, 0x21, 0x22, 0x23, 0x24, 0x25, 0x30] := by
  simp [RawCommand.admitsKs, ← BitVec.toNat_inj]

theorem RawCommand.admitsM_iff (c : RawCommand) :
    c.admitsM = true ↔ c.opc.toNat ∈ [0x20, 0x21, 0x22, 0x23, 0x24, 0x25] := by
  simp [RawCommand.admitsM, ← BitVec.toNat_inj]

theorem RawCommand.admitsH_iff (c : RawCommand) : c.admitsH = true ↔ c.opc.toNat ∈ [0x30, 0x31, 0x32] := by
  simp [RawCommand.admitsH, ← BitVec.toNat_inj]

/-- The reserved opcodes (R106 (a)). -/
theorem RawCommand.opcodeReserved_iff (c : RawCommand) :
    ¬ c.opcodeDefined = true ↔
      (0x02 ≤ c.opc.toNat ∧ c.opc.toNat ≤ 0x0F) ∨ (0x12 ≤ c.opc.toNat ∧ c.opc.toNat ≤ 0x1F) ∨
      (0x26 ≤ c.opc.toNat ∧ c.opc.toNat ≤ 0x2F) ∨ 0x36 ≤ c.opc.toNat := by
  simp only [RawCommand.opcodeDefined_iff, List.mem_cons, List.not_mem_nil, or_false]
  omega

/-- The defined opcodes whose row does not take KS (R103). -/
theorem RawCommand.refusesKs_iff (c : RawCommand) :
    (c.opcodeDefined = true ∧ ¬ c.admitsKs = true) ↔ c.opc.toNat ∈ [0x00, 0x01, 0x31, 0x32, 0x33, 0x34, 0x35] := by
  simp only [RawCommand.opcodeDefined_iff, RawCommand.admitsKs_iff, List.mem_cons, List.not_mem_nil, or_false]
  omega

/-- What keeps a word from being well-formed: a reserved opcode, or a 1 in a bit that must be 0 (R106). -/
theorem RawCommand.not_wellFormed_iff (c : RawCommand) :
    ¬ c.wellFormed = true ↔
      ¬ c.opcodeDefined = true ∨ c.rsv11 = true ∨ c.rsv ≠ 0#19 ∨
      (c.ks ≠ 0#2 ∧ c.opcodeDefined = true ∧ ¬ c.admitsKs = true) ∨ (c.m = true ∧ ¬ c.admitsM = true) ∨
      (c.h = true ∧ ¬ c.admitsH = true) := by
  simp only [RawCommand.wellFormed_iff, ← Bool.not_eq_true]
  tauto

/-! ### The decoder (R104, R106) -/

/-- An opcode names no command iff it is reserved, whatever the fields (R103). -/
theorem commandOf_eq_none_iff (c : RawCommand) (ks : KeySlot) (m : Bool) (h : HashAlg) :
    commandOf c.opc ks m h = none ↔ ¬ c.opcodeDefined = true := by
  rw [RawCommand.opcodeDefined_iff]
  unfold commandOf
  split <;> simp_all

/-- The decoder gives the command the opcode names on a well-formed word, and nothing on any other. -/
theorem decode_eq (w : Word) :
    let c := RawCommand.ofWord w
    decode w = if c.wellFormed then commandOf c.opc (slotOf c.ks) c.m (hashOf c.h) else none := by
  intro c
  have hany : opcodeRows.any (fun r => r.spells w) = c.wellFormed := opcodeRows_any_spells w
  simp only [decode, decodeWord, hany]
  cases commandOf c.opc (slotOf c.ks) c.m (hashOf c.h) with
  | none => exact (ite_self _).symm
  | some i => cases c.wellFormed <;> rfl

/-- A word is illegal iff it is not well-formed. -/
theorem decode_eq_none_iff (w : Word) : decode w = none ↔ ¬ (RawCommand.ofWord w).wellFormed = true := by
  rw [decode_eq]
  split
  · next hwf =>
    obtain ⟨hdef, -⟩ := (RawCommand.wellFormed_iff _).1 hwf
    simp [commandOf_eq_none_iff, hdef, hwf]
  · next hwf => simp [hwf]

/-- The decoder inverts the encoder: one case for each choice of fields a row admits (R103, R104). -/
theorem decode_encode (i : Instr) : decode (encode i) = some i := by
  cases i with
  | nop | zeroize | ctxUpdate | ctxFinal | ctxVerify => decide
  | kdfLegacy ks | kdfPbkdf2 ks => revert ks; decide
  | cbcEnc ks m | cbcDec ks m | cbcEncPkcs7 ks m | cbcDecPkcs7 ks m | cbcEncLegacy ks m | cbcDecLegacy ks m =>
    revert ks m; decide
  | macInitKs ks h => cases h <;> revert ks <;> decide
  | macInitBuf h | hashInit h => cases h <;> decide

end Sys2Proof
end

section
/-! PROOFS. The obligations of 30_encoding.md about illegal words and the worked encodings. -/

namespace Sys2Proof.Machine

/-- A write of a command word to CMD while Idle issues it, whatever the word (R38). -/
theorem State.busWrite_cmd_of_idle {s : State} (h : s.phase = .idle) (w : Word) :
    s.busWrite (.window 0x0014#16) .w4 w = (s.issue w, false) := by
  rw [State.busWrite_register s (by decide) (by decide), State.busy_of_idle h]
  rfl

/-- The step that completes an illegal word (R108). -/
theorem step_of_illegal {s : State} (hphase : s.phase = .busy) (hdelay : s.delay = 0) (hill : decode s.cmdr = none) :
    step s = .next (s.finish false .illegal) := by
  have hturn : s.engineTurn = true := s.engineTurn_iff.2 ⟨hphase, hdelay⟩
  simp only [step, hturn, if_true, completion, hill, execIllegal, State.raiseError_eq]

/-- Settles O3: the words R106 lists are those that are not well-formed, and the write that issues one and the step that
completes it are known outright. -/
theorem illegalWords : Obligations.IllegalWords := by
  unfold Obligations.IllegalWords
  refine ⟨fun w => ?words, fun s w hill => ⟨fun hidle => ?issued, fun hcmdr hphase hdelay => ?completed⟩⟩
  case words =>
    rw [decode_eq_none_iff, RawCommand.not_wellFormed_iff, RawCommand.opcodeReserved_iff, RawCommand.refusesKs_iff,
      RawCommand.admitsM_iff, RawCommand.admitsH_iff]
    exact Iff.rfl
  case issued =>
    rw [State.busWrite_cmd_of_idle hidle]
    exact ⟨s.issue_cmdr w, s.issue_phase w⟩
  case completed => exact ⟨_, step_of_illegal hphase hdelay (hcmdr ▸ hill), rfl⟩

/-- Settles O4: the completion writes its code and flags, and AUTH_OK is 0 already. -/
theorem illegalCompletion : Obligations.IllegalCompletion := by
  unfold Obligations.IllegalCompletion
  intro s hphase hdelay hauth hill
  rw [step_of_illegal hphase hdelay hill, State.finish]
  simp only [hauth]
  rfl

/-- Settles O5: the legal words are what the encoder writes, and the decoder inverts the encoder. -/
theorem workedEncodings : Obligations.WorkedEncodings := by
  unfold Obligations.WorkedEncodings
  refine ⟨decode_encode .nop, decode_encode .zeroize, decode_encode (.kdfPbkdf2 0), decode_encode (.kdfLegacy 2),
    decode_encode (.cbcEnc 1 true), decode_encode (.cbcDecPkcs7 1 false), decode_encode (.cbcDecLegacy 3 true),
    decode_encode (.macInitKs 1 .sha256), decode_encode (.macInitKs 0 .sha512), decode_encode (.hashInit .sha512),
    decode_encode .ctxVerify, rfl, rfl, rfl, rfl, rfl, rfl, rfl, rfl, rfl, rfl, rfl,
    ?opcode02, ?nopBit11, ?kdfPbkdf2M⟩
  case opcode02 => exact (decode_eq_none_iff _).2 (by decide)
  case nopBit11 => exact (decode_eq_none_iff _).2 (by decide)
  case kdfPbkdf2M => exact (decode_eq_none_iff _).2 (by decide)

end Sys2Proof.Machine
end

section
/-! PROOFS. The obligation of 40_control.md about validation errors: each command either raises a validation code with no
effect made, or ends with a code that is no validation code. -/

namespace Sys2Proof.Machine

/-- The completion of a command from `s` in `t` is precise: with a validation code, `t` is `s` failed with that code and
nothing more (R132). -/
def PreciseCompletion (s t : State) : Prop := t.errcode.isValidation = true → t = s.failed t.errcode

/-! ### What makes a completion precise -/

/-- OK is no validation code (R132). -/
theorem Code.ne_ok_of_isValidation {c : Code} (h : c.isValidation = true) : c ≠ .ok := by
  rintro rfl
  cases h

/-- An error raised before any effect (R132). -/
theorem preciseCompletion_finish (s : State) (c : Code) : PreciseCompletion s (s.finish false c) :=
  fun h => s.finish_error (Code.ne_ok_of_isValidation h)

/-- An end with OK, AUTH or PADDING, whatever the effects made (R133). -/
theorem preciseCompletion_of_not_isValidation {s t : State} (h : t.errcode.isValidation = false) :
    PreciseCompletion s t :=
  fun hv => absurd hv (by simp [h])

/-- Checks made before a command whose own end has no validation code (R132, R364). -/
theorem preciseCompletion_validated {s : State} {checks : List (Bool × Code)} {run : State → State}
    (hrun : (run s).errcode.isValidation = false) : PreciseCompletion s (s.validated checks run) := by
  rcases s.validated_cases checks run with ⟨c, -, hraised⟩ | ⟨-, hran⟩
  · rw [hraised]
    exact preciseCompletion_finish s c
  · rw [hran]
    exact preciseCompletion_of_not_isValidation hrun

/-! ### Every command is precise -/

/-- CBC_DEC_PKCS7 ends with OK or PADDING past its checks (R257). -/
theorem execCbcDecPkcs7_precise (ks : KeySlot) (m : Bool) (s : State) :
    ∃ t, execCbcDecPkcs7 ks m s = .next t ∧ PreciseCompletion s t := by
  refine ⟨_, rfl, preciseCompletion_validated ?_⟩
  cases pkcs7Strip (s.cbcPlaintext ks) with
  | some q => rfl
  | none => rfl

/-- CTX_FINAL raises CTX_STATE at once or ends with OK (R293). -/
theorem execCtxFinal_precise (s : State) : ∃ t, execCtxFinal s = .next t ∧ PreciseCompletion s t := by
  refine ⟨_, rfl, ?_⟩
  cases s.context with
  | inactive => exact preciseCompletion_finish s .ctxState
  | active kind h key msg => exact preciseCompletion_of_not_isValidation rfl

/-- CTX_VERIFY raises CTX_STATE or RANGE at once, or ends with OK or AUTH (R296, R298). -/
theorem execCtxVerify_precise (s : State) : ∃ t, execCtxVerify s = .next t ∧ PreciseCompletion s t := by
  refine ⟨_, rfl, ?_⟩
  cases s.context with
  | inactive => exact preciseCompletion_finish s .ctxState
  | active kind h key msg =>
    dsimp only
    split
    case isFalse outOfRange => exact preciseCompletion_finish s .range
    case isTrue inRange =>
      split
      case isTrue tagMatches => exact preciseCompletion_of_not_isValidation rfl
      case isFalse tagDiffers => exact preciseCompletion_of_not_isValidation rfl

/-- Commands without checks end with OK; the others make their checks before any effect (R132). -/
theorem exec_precise (i : Instr) (s : State) : ∃ t, exec i s = .next t ∧ PreciseCompletion s t := by
  cases i with
  | nop | zeroize | macInitKs ks h | hashInit h => exact ⟨_, rfl, preciseCompletion_of_not_isValidation rfl⟩
  | kdfLegacy ks | kdfPbkdf2 ks => exact ⟨_, rfl, preciseCompletion_validated rfl⟩
  | cbcEnc ks m | cbcDec ks m | cbcEncPkcs7 ks m | cbcEncLegacy ks m | cbcDecLegacy ks m =>
    exact ⟨_, rfl, preciseCompletion_validated rfl⟩
  | macInitBuf h | ctxUpdate => exact ⟨_, rfl, preciseCompletion_validated rfl⟩
  | cbcDecPkcs7 ks m => exact execCbcDecPkcs7_precise ks m s
  | ctxFinal => exact execCtxFinal_precise s
  | ctxVerify => exact execCtxVerify_precise s

/-- Every move of the engine is precise, illegal words included (R108, R132). -/
theorem step_preciseCompletion {s t : State} (hturn : s.engineTurn = true) (h : step s = .next t) :
    PreciseCompletion s t := by
  rcases step_cases h with ⟨-, i, -, hexec⟩ | ⟨-, -, rfl⟩ | ⟨hhost, -⟩
  · obtain ⟨u, hu, hprecise⟩ := exec_precise i s
    obtain rfl : u = t := by simpa [hu] using hexec
    exact hprecise
  · exact preciseCompletion_finish s .illegal
  · simp [hhost] at hturn

/-- Settles O31: the completing step is a move of the engine, and every such move is precise. -/
theorem validationErrorsPrecise : Obligations.ValidationErrorsPrecise := by
  unfold Obligations.ValidationErrorsPrecise
  intro s t hphase hdelay hstep
  exact step_preciseCompletion (s.engineTurn_iff.2 ⟨hphase, hdelay⟩) hstep

end Sys2Proof.Machine
end

section
/-! PROOFS. The obligations of 41_aes_core.md: the inverse cipher undoes the cipher round by round, and CBC over whole
blocks splits at block boundaries and is undone block by block. -/

namespace Sys2Proof.Machine

/-! ### The block cipher (R150, R152, R153) -/

/-- If each step of `g`, seen through `u`, undoes the step of `f` with the same key, then `g` over the keys from last to
first undoes `f` over the keys from first to last. -/
theorem foldl_reverse_undoes_foldl {f g : AesState → RoundKey → AesState} {u : AesState → AesState}
    (undo : ∀ s k, g (u (f s k)) k = u s) (keys : List RoundKey) (s : AesState) :
    keys.reverse.foldl g (u (keys.foldl f s)) = u s := by
  induction keys generalizing s with
  | nil => rfl
  | cons k keys ih => simp only [List.reverse_cons, List.foldl_append, List.foldl_cons, List.foldl_nil, ih, undo]

/-- The inverse cipher undoes the cipher under every key schedule (R153). -/
theorem invCipher_cipher (w : List Quad) (s : AesState) : invCipher w (cipher w s) = s := by
  have rounds := foldl_reverse_undoes_foldl (u := fun s => shiftRows (subBytes s)) decRound_encRound
  simp only [invCipher, cipher, roundKeys_reverse, addRoundKey_addRoundKey, rounds, invShiftRows_shiftRows,
    invSubBytes_subBytes]

/-- The cipher undoes the inverse cipher under every key schedule (R153). -/
theorem cipher_invCipher (w : List Quad) (s : AesState) : cipher w (invCipher w s) = s := by
  have rounds (keys : List RoundKey) (s : AesState) :
      keys.foldl encRound (invSubBytes (invShiftRows (keys.reverse.foldl decRound s))) =
        invSubBytes (invShiftRows s) := by
    simpa using foldl_reverse_undoes_foldl (u := fun s => invSubBytes (invShiftRows s)) encRound_decRound keys.reverse s
  simp only [invCipher, cipher, roundKeys_reverse, addRoundKey_addRoundKey, rounds, subBytes_invSubBytes,
    shiftRows_invShiftRows]

theorem aesDec_aesEnc (k : Bytes) {b : Bytes} (hb : b.length = 16) : aesDec k (aesEnc k b) = b := by
  rw [aesDec, aesEnc, AesState.load_store, invCipher_cipher, AesState.store_load b hb]

theorem aesEnc_aesDec (k : Bytes) {b : Bytes} (hb : b.length = 16) : aesEnc k (aesDec k b) = b := by
  rw [aesDec, aesEnc, AesState.load_store, cipher_invCipher, AesState.store_load b hb]

/-- Settles O55: the two functions are inverses of each other on blocks, so AES_Enc is injective and onto. -/
theorem aesInverse : Obligations.AesInverse := by
  unfold Obligations.AesInverse
  refine fun k => ⟨fun b hb => ?inverses, fun b c hb hc hbc => ?injective, fun c hc => ?onto⟩
  case inverses => exact ⟨aesEnc_length k b, aesDec_length k b, aesDec_aesEnc k hb, aesEnc_aesDec k hb⟩
  case injective => rw [← aesDec_aesEnc k hb, hbc, aesDec_aesEnc k hc]
  case onto => exact ⟨aesDec k c, aesDec_length k c, aesEnc_aesDec k hc⟩

/-! ### CBC over whole blocks (R155 to R158) -/

/-- The blocks of a string of whole blocks followed by another string are those of the two strings. -/
theorem blocks16_append {p : Bytes} (q : Bytes) (hp : p.length % 16 = 0) :
    blocks 16 ((p ++ q).length / 16) (p ++ q) = blocks 16 (p.length / 16) p ++ blocks 16 (q.length / 16) q := by
  have hcount : (p ++ q).length / 16 = p.length / 16 + q.length / 16 := by rw [List.length_append]; omega
  rw [hcount, blocks_append 16 _ _ p q (by omega)]

/-- CBC_Enc splits after whole blocks (R157). -/
theorem cbcEnc_append (k iv : Bytes) {p : Bytes} (q : Bytes) (hp : p.length % 16 = 0) :
    cbcEnc k iv (p ++ q) =
      ((cbcEnc k iv p).1 ++ (cbcEnc k (cbcEnc k iv p).2 q).1, (cbcEnc k (cbcEnc k iv p).2 q).2) := by
  simp only [cbcEnc, blocks16_append q hp, cbcEncBlocks_append]

/-- CBC_Dec splits after whole blocks (R157). -/
theorem cbcDec_append (k iv : Bytes) {p : Bytes} (q : Bytes) (hp : p.length % 16 = 0) :
    cbcDec k iv (p ++ q) =
      ((cbcDec k iv p).1 ++ (cbcDec k (cbcDec k iv p).2 q).1, (cbcDec k (cbcDec k iv p).2 q).2) := by
  simp only [cbcDec, blocks16_append q hp, cbcDecBlocks_append]

/-- Settles O56: the blocks of `p ++ q` are those of `p`, then those of `q`, and both chains run on over them. -/
theorem cbcSplit : Obligations.CbcSplit := by
  unfold Obligations.CbcSplit
  exact fun k iv p q hp _ => ⟨cbcEnc_append k iv q hp, cbcDec_append k iv q hp⟩

/-- CBC_Dec of one block (R156). -/
theorem cbcDec_block (k iv : Bytes) {c : Bytes} (hc : c.length = 16) :
    cbcDec k iv c = (xorBytes (aesDec k c) iv, c) := by
  simp [cbcDec, hc, blocks, cbcDecBlocks, List.take_of_length_le]

/-- CBC_Dec undoes the loop of CBC_Enc over full blocks: the first block is deciphered and unmasked, and the rest is
chained on its ciphertext in both directions (R158). -/
theorem cbcDec_cbcEncBlocks (k : Bytes) {iv : Bytes} (hiv : iv.length = 16) {ps : List Bytes}
    (hps : ∀ p ∈ ps, p.length = 16) :
    cbcDec k iv (cbcEncBlocks k iv ps).1 = (ps.flatten, (cbcEncBlocks k iv ps).2) := by
  induction ps generalizing iv with
  | nil => simp [cbcEncBlocks, cbcDec, blocks, cbcDecBlocks]
  | cons p ps ih =>
    obtain ⟨hp, hrest⟩ := List.forall_mem_cons.1 hps
    have hblock : xorBytes (aesDec k (aesEnc k (xorBytes p iv))) iv = p := by
      rw [aesDec_aesEnc k (by simp [hp, hiv]), xorBytes_cancel (by omega)]
    rw [cbcEncBlocks, cbcDec_append k iv _ (by rw [aesEnc_length]), cbcDec_block k iv (aesEnc_length ..), hblock,
      ih (aesEnc_length ..) hrest, List.flatten_cons]

/-- Settles O57: the blocks of `p` are full, and together they are `p`. -/
theorem cbcDecInvertsCbcEnc : Obligations.CbcDecInvertsCbcEnc := by
  unfold Obligations.CbcDecInvertsCbcEnc
  intro k iv p hiv hp
  rw [cbcEnc, cbcDec_cbcEncBlocks k hiv (blocks16_full p), blocks_flatten (by omega)]

end Sys2Proof.Machine
end

section
/-! PROOFS. The obligation of 43_kdf_commands.md about the checks of the KDF commands: the two commands make the same two
checks first, and KDF_PBKDF2 one more. -/

namespace Sys2Proof.Machine

/-! ### Checks in sequence (R364) -/

/-- More checks decide only if the ones before them pass. -/
theorem firstFailure_append (checks more : List (Bool × Code)) :
    firstFailure (checks ++ more) = (firstFailure checks).or (firstFailure more) := by
  induction checks with
  | nil => rfl
  | cons x rest ih =>
    obtain ⟨failed, c⟩ := x
    cases failed with
    | true => rfl
    | false => exact ih

/-- A check that fails with an error code leaves the state failed with that code and nothing more (R132). -/
theorem State.validated_eq_failed {s : State} {checks : List (Bool × Code)} (run : State → State) {c : Code}
    (hfails : firstFailure checks = some c) (hc : c ≠ .ok) : s.validated checks run = s.failed c := by
  rw [State.validated_of_some run hfails, s.finish_error hc]

/-! ### The KDF commands -/

/-- What the checks of both KDF commands decide (R223). -/
theorem State.firstFailure_kdfChecks (s : State) :
    firstFailure s.kdfChecks =
      if 2048 < s.len.toNat then some .length
      else if s.bufBytes < s.src.toNat + s.len.toNat then some .range
      else none := by
  simp only [State.kdfChecks, firstFailure, State.passwordTooLong_iff, State.inputBad_iff]

/-- A failed check of those both KDF commands make ends either command; ITER is not looked at (R223, R232). -/
theorem exec_kdf_of_kdfChecks_fail (ks : KeySlot) {s : State} {c : Code} (hfails : firstFailure s.kdfChecks = some c)
    (hc : c ≠ .ok) :
    exec (.kdfLegacy ks) s = .next (s.failed c) ∧ exec (.kdfPbkdf2 ks) s = .next (s.failed c) := by
  have hmore : firstFailure (s.kdfChecks ++ [(s.iter == 0#32, .param)]) = some c := by
    rw [firstFailure_append, hfails, Option.some_or]
  exact ⟨congrArg Host.Outcome.next (State.validated_eq_failed _ hfails hc),
    congrArg Host.Outcome.next (State.validated_eq_failed _ hmore hc)⟩

/-- KDF_PBKDF2 with ITER = 0 past the other checks (R232). -/
theorem exec_kdfPbkdf2_of_iter_eq_zero (ks : KeySlot) {s : State} (hpass : firstFailure s.kdfChecks = none)
    (hiter : s.iter = 0#32) : exec (.kdfPbkdf2 ks) s = .next (s.failed .param) := by
  have hfails : firstFailure (s.kdfChecks ++ [(s.iter == 0#32, .param)]) = some .param := by
    rw [firstFailure_append, hpass, Option.none_or, hiter]
    rfl
  exact congrArg Host.Outcome.next (State.validated_eq_failed _ hfails (by decide))

/-- PARAM is reported as InvalidParameter (R336). -/
theorem State.errorKindOf_failed_param (s : State) :
    errorKindOf (s.failed .param).errcodeWord = .invalidParameter := rfl

/-- Settles O37: the hypotheses of each clause pick one branch of the shared checks, and past both of them ITER decides
KDF_PBKDF2. -/
theorem kdfErrors : Obligations.KdfErrors := by
  unfold Obligations.KdfErrors
  refine fun ks s => ⟨fun hlong => ?length, fun hlen hrange => ?range, fun hlen hrange hiter => ?param⟩
  case length =>
    have hfails : firstFailure s.kdfChecks = some .length := by rw [s.firstFailure_kdfChecks, if_pos hlong]
    exact exec_kdf_of_kdfChecks_fail ks hfails (by decide)
  case range =>
    have hfails : firstFailure s.kdfChecks = some .range := by
      rw [s.firstFailure_kdfChecks, if_neg hlen.not_gt, if_pos hrange]
    exact exec_kdf_of_kdfChecks_fail ks hfails (by decide)
  case param =>
    have hpass : firstFailure s.kdfChecks = none := by
      rw [s.firstFailure_kdfChecks, if_neg hlen.not_gt, if_neg hrange.not_gt]
    exact ⟨exec_kdfPbkdf2_of_iter_eq_zero ks hpass hiter, s.errorKindOf_failed_param⟩

end Sys2Proof.Machine
end

section
/-! PROOFS. Rules about the CBC commands by their padding scheme: what the two commands of a scheme take and do past the
checks they share, and that decryption undoes what encryption left (44_cbc_commands.md R241 to R270). -/

namespace Sys2Proof.Machine

/-! ### The three padding schemes (R241) -/

/-- The padding scheme of a CBC command: CBC_ENC and CBC_DEC take whole blocks, the other four pad and strip. -/
inductive CbcPadding where
  | whole
  | pkcs7
  | legacy

namespace CbcPadding

/-- The command that encrypts with the scheme. -/
def encCommand (ks : KeySlot) (m : Bool) : CbcPadding → Instr
  | whole => .cbcEnc ks m
  | pkcs7 => .cbcEncPkcs7 ks m
  | legacy => .cbcEncLegacy ks m

/-- The command that decrypts with the scheme. -/
def decCommand (ks : KeySlot) (m : Bool) : CbcPadding → Instr
  | whole => .cbcDec ks m
  | pkcs7 => .cbcDecPkcs7 ks m
  | legacy => .cbcDecLegacy ks m

/-- How many bytes the scheme adds to an input of n bytes. -/
def count (n : Nat) : CbcPadding → Nat
  | whole => 0
  | pkcs7 => pkcs7Count n
  | legacy => legacyCount n

/-- The input padded by the scheme. -/
def pad (pd : CbcPadding) (p : Bytes) : Bytes := p ++ byteRep (pd.count p.length) (pd.count p.length)

/-- Encryption takes an input of n bytes. -/
def encTakes (n : Nat) : CbcPadding → Bool
  | whole => n % 16 == 0
  | pkcs7 => true
  | legacy => true

/-- Decryption takes an input of n bytes. -/
def decTakes (n : Nat) : CbcPadding → Bool
  | whole => n % 16 == 0
  | pkcs7 => n % 16 == 0 && 16 ≤ n
  | legacy => n % 16 == 0

/-- LMOD after encryption (R262). -/
def lmodLeft (s : State) : CbcPadding → BitVec 4
  | whole => s.lmod
  | pkcs7 => s.lmod
  | legacy => BitVec.ofNat 4 (s.lenN % 16)

/-- How many bytes decryption takes off its plaintext; none if there is no padding to take off (R257, R265). -/
def trim (ks : KeySlot) (s : State) : CbcPadding → Option Nat
  | whole => some 0
  | pkcs7 => pkcs7Strip (s.cbcPlaintext ks)
  | legacy => some s.legacyTrim

end CbcPadding

/-- The completion of an encryption that passes its checks (R248, R254, R261). -/
def State.encrypted (s : State) (pd : CbcPadding) (ks : KeySlot) (m : Bool) : State :=
  State.completed { s.cbcEncrypt ks m (pd.pad s.input) with lmod := pd.lmodLeft s } false

/-- The completion of a decryption that passes its checks (R251, R257, R265). -/
def State.decrypted (s : State) (pd : CbcPadding) (ks : KeySlot) (m : Bool) : State :=
  match pd.trim ks s with
  | some q => ((s.cbcDecrypt ks m).setOutlen (s.lenN - q)).completed false
  | none => ((s.cbcDecrypt ks m).setOutlen 0).failed .padding

/-! ### The schemes are those of the commands -/

theorem CbcPadding.cbcShape_encCommand (pd : CbcPadding) (n : Nat) (ks : KeySlot) (m : Bool) :
    cbcShape n (pd.encCommand ks m) = some (m, pd.encTakes n, n + pd.count n) := by
  cases pd with
  | whole | legacy => rfl
  | pkcs7 =>
    have hout : n + 16 - n % 16 = n + (16 - n % 16) := by omega
    simp only [encCommand, cbcShape, encTakes, count, pkcs7Count, hout]

theorem CbcPadding.cbcShape_decCommand (pd : CbcPadding) (n : Nat) (ks : KeySlot) (m : Bool) :
    cbcShape n (pd.decCommand ks m) = some (m, pd.decTakes n, n) := by
  cases pd with
  | whole | pkcs7 | legacy => rfl

/-- A command in the table of R241 is the encryption or the decryption of a scheme. -/
theorem exists_padding_of_cbcShape {n : Nat} {i : Instr} {x : Bool × Bool × Nat} (h : cbcShape n i = some x) :
    ∃ (pd : CbcPadding) (ks : KeySlot) (m : Bool), i = pd.encCommand ks m ∨ i = pd.decCommand ks m := by
  cases i with
  | cbcEnc ks m => exact ⟨.whole, ks, m, .inl rfl⟩
  | cbcDec ks m => exact ⟨.whole, ks, m, .inr rfl⟩
  | cbcEncPkcs7 ks m => exact ⟨.pkcs7, ks, m, .inl rfl⟩
  | cbcDecPkcs7 ks m => exact ⟨.pkcs7, ks, m, .inr rfl⟩
  | cbcEncLegacy ks m => exact ⟨.legacy, ks, m, .inl rfl⟩
  | cbcDecLegacy ks m => exact ⟨.legacy, ks, m, .inr rfl⟩
  | nop | zeroize | kdfLegacy | kdfPbkdf2 | macInitKs | macInitBuf | hashInit | ctxUpdate | ctxFinal | ctxVerify =>
    exact nomatch h

/-- The length rule "multiple of 16, at least 16" of CBC_DEC_PKCS7 (R241). -/
theorem State.lenNotBlocks_or_empty (s : State) :
    (s.lenNotBlocks || s.lenN == 0) = !(s.lenN % 16 == 0 && decide (16 ≤ s.lenN)) := by
  rw [Bool.eq_iff_iff]
  simp only [State.lenNotBlocks, Bool.or_eq_true, bne_iff_ne, beq_iff_eq, Bool.not_eq_true', Bool.and_eq_false_iff,
    beq_eq_false_iff_ne, decide_eq_false_iff_not]
  omega

/-- An encryption leaves LMOD (R242). -/
theorem State.cbcEncrypt_with_lmod (s : State) (ks : KeySlot) (m : Bool) (padded : Bytes) :
    { s.cbcEncrypt ks m padded with lmod := s.lmod } = s.cbcEncrypt ks m padded := by
  rw [State.cbcEncrypt_eq]

theorem State.encrypted_whole (s : State) (ks : KeySlot) (m : Bool) :
    s.encrypted .whole ks m = (s.cbcEncrypt ks m s.input).completeOk := by
  have hpad : CbcPadding.whole.pad s.input = s.input := List.append_nil _
  rw [State.encrypted, hpad, ← State.finish_ok]
  exact congrArg State.completeOk (s.cbcEncrypt_with_lmod ks m s.input)

theorem State.encrypted_pkcs7 (s : State) (ks : KeySlot) (m : Bool) :
    s.encrypted .pkcs7 ks m = (s.cbcEncrypt ks m (pkcs7Pad s.input)).completeOk := by
  rw [State.encrypted, ← State.finish_ok]
  exact congrArg State.completeOk (s.cbcEncrypt_with_lmod ks m (pkcs7Pad s.input))

/-- An encryption command: the checks of R244, then the padded input encrypted. -/
theorem CbcPadding.exec_encCommand (pd : CbcPadding) (ks : KeySlot) (m : Bool) (s : State) :
    exec (pd.encCommand ks m) s = .next (s.validated
      (s.cbcChecks m (!pd.encTakes s.lenN) (s.lenN + pd.count s.lenN)) fun s => s.encrypted pd ks m) := by
  cases pd with
  | whole => simp only [State.encrypted_whole]; rfl
  | pkcs7 => simp only [State.encrypted_pkcs7]; rfl
  | legacy => rfl

/-- A decryption command: the checks of R244, then the input decrypted and its plaintext trimmed. -/
theorem CbcPadding.exec_decCommand (pd : CbcPadding) (ks : KeySlot) (m : Bool) (s : State) :
    exec (pd.decCommand ks m) s = .next (s.validated
      (s.cbcChecks m (!pd.decTakes s.lenN) s.lenN) fun s => s.decrypted pd ks m) := by
  cases pd with
  | whole | legacy => rfl
  | pkcs7 =>
    have hrule : (!CbcPadding.pkcs7.decTakes s.lenN) = (s.lenNotBlocks || s.lenN == 0) := s.lenNotBlocks_or_empty.symm
    rw [hrule]
    rfl

/-! ### The checks (R244) -/

/-- A CBC command is the first of its checks that fails, or its run. -/
theorem State.validated_cbcChecks (s : State) (m lenBad : Bool) (out : Nat) (run : State → State) :
    s.validated (s.cbcChecks m lenBad out) run =
      if m = true ∧ s.context = .inactive then s.failed .ctxState
      else if lenBad = true then s.failed .length
      else if m = true ∧ 2 ^ 60 < s.context.msgLength + out then s.failed .length
      else if s.rangesInvalid out then s.failed .range
      else if s.rangesOverlap out then s.failed .range
      else run s := by
  rw [State.validated, s.firstFailure_cbcChecks]
  split_ifs
  case neg => rfl
  all_goals exact s.finish_error (by decide)

theorem State.encrypted_errcode (s : State) (pd : CbcPadding) (ks : KeySlot) (m : Bool) :
    (s.encrypted pd ks m).errcode = .ok := rfl

/-- A decryption ends with OK or PADDING (R251, R257, R265). -/
theorem State.decrypted_errcode (s : State) (pd : CbcPadding) (ks : KeySlot) (m : Bool) :
    (s.decrypted pd ks m).errcode = .ok ∨ (s.decrypted pd ks m).errcode = .padding := by
  rw [State.decrypted]
  cases pd.trim ks s with
  | some q => exact .inl rfl
  | none => exact .inr rfl

/-- A CBC command makes the checks its row of R241 gives and, past them, ends with OK or PADDING (R244). -/
theorem exec_of_cbcShape {i : Instr} {s : State} {m lengthTaken : Bool} {out : Nat}
    (h : cbcShape s.len.toNat i = some (m, lengthTaken, out)) :
    ∃ run : State → State, exec i s = .next (s.validated (s.cbcChecks m (!lengthTaken) out) run) ∧
      ((run s).errcode = .ok ∨ (run s).errcode = .padding) := by
  obtain ⟨pd, ks, m', rfl | rfl⟩ := exists_padding_of_cbcShape h
  · rw [pd.cbcShape_encCommand] at h
    cases h
    exact ⟨_, pd.exec_encCommand ks m s, .inl (s.encrypted_errcode pd ks m)⟩
  · rw [pd.cbcShape_decCommand] at h
    cases h
    exact ⟨_, pd.exec_decCommand ks m s, s.decrypted_errcode pd ks m⟩

/-! ### Padded inputs (R241) -/

theorem CbcPadding.pad_length (pd : CbcPadding) (p : Bytes) : (pd.pad p).length = p.length + pd.count p.length := by
  rw [pad, List.length_append, byteRep_length]

/-- A padded input has whole blocks. -/
theorem CbcPadding.add_count_mod {pd : CbcPadding} {n : Nat} (h : pd.encTakes n = true) :
    (n + pd.count n) % 16 = 0 := by
  cases pd with
  | whole => exact beq_iff_eq.1 h
  | pkcs7 => simp only [count, pkcs7Count]; omega
  | legacy => simp only [count, legacyCount]; omega

/-- Decryption takes the length of a padded input. -/
theorem CbcPadding.decTakes_of_encTakes {pd : CbcPadding} {n : Nat} (h : pd.encTakes n = true) :
    pd.decTakes (n + pd.count n) = true := by
  have hmod : (n + pd.count n) % 16 = 0 := add_count_mod h
  cases pd with
  | whole | legacy => exact beq_iff_eq.2 hmod
  | pkcs7 =>
    have hmin : 16 ≤ n + pkcs7Count n := by simp only [pkcs7Count]; omega
    exact Bool.and_eq_true_iff.2 ⟨beq_iff_eq.2 hmod, decide_eq_true hmin⟩

/-- The count CBC_DEC_LEGACY takes from LMOD is the one LegacyPad added (R262, R265). -/
theorem legacyCount_of_lmod (n : Nat) :
    (if 0 < n + legacyCount n then (16 - (BitVec.ofNat 4 (n % 16)).toNat) % 16 else 0) = legacyCount n := by
  have hlmod : (BitVec.ofNat 4 (n % 16)).toNat = n % 16 := by rw [BitVec.toNat_ofNat]; omega
  rw [hlmod, legacyCount]
  split_ifs <;> omega

/-- Decryption takes off the padding of a padded plaintext, given the LMOD its encryption left. -/
theorem CbcPadding.trim_eq_count {pd : CbcPadding} {ks : KeySlot} {s b : State}
    (hplain : b.cbcPlaintext ks = pd.pad s.input) (hlen : b.lenN = s.lenN + pd.count s.lenN)
    (hlmod : b.lmod = pd.lmodLeft s) : pd.trim ks b = some (pd.count s.lenN) := by
  cases pd with
  | whole => rfl
  | pkcs7 =>
    have hpad : b.cbcPlaintext ks = pkcs7Pad s.input := hplain
    simp only [trim, hpad, pkcs7Strip_pkcs7Pad, State.input_length, count]
  | legacy =>
    simp only [trim, State.legacyTrim, hlen, hlmod, count, lmodLeft, legacyCount_of_lmod]

/-! ### Admitted commands -/

/-- An encryption of an admitted input of a length it takes completes (R244). -/
theorem CbcPadding.exec_encCommand_of_admitted {pd : CbcPadding} {s : State} {m : Bool} (ks : KeySlot)
    (htakes : pd.encTakes s.lenN = true) (hadm : s.CbcAdmitted m (s.lenN + pd.count s.lenN)) :
    exec (pd.encCommand ks m) s = .next (s.encrypted pd ks m) := by
  rw [pd.exec_encCommand, htakes, Bool.not_true, State.validated_of_none _ hadm.firstFailure_eq_none]

/-- A decryption of an admitted input of a length it takes completes (R244). -/
theorem CbcPadding.exec_decCommand_of_admitted {pd : CbcPadding} {s : State} {m : Bool} (ks : KeySlot)
    (htakes : pd.decTakes s.lenN = true) (hadm : s.CbcAdmitted m s.lenN) :
    exec (pd.decCommand ks m) s = .next (s.decrypted pd ks m) := by
  rw [pd.exec_decCommand, htakes, Bool.not_true, State.validated_of_none _ hadm.firstFailure_eq_none]

theorem State.decrypted_of_trim {s : State} {pd : CbcPadding} {ks : KeySlot} {q : Nat} (m : Bool)
    (h : pd.trim ks s = some q) :
    s.decrypted pd ks m = ((s.cbcDecrypt ks m).setOutlen (s.lenN - q)).completed false := by
  rw [State.decrypted, h]

/-- BUF after an encryption: the ciphertext at DST (R242). -/
theorem State.encrypted_buf (s : State) (pd : CbcPadding) (ks : KeySlot) (m : Bool) :
    (s.encrypted pd ks m).buf =
      s.buf.writeBytes s.dstN (cbcEnc (s.keyBytes ks) s.ivrBytes (pd.pad s.input)).1 := by
  rw [State.encrypted, State.cbcEncrypt_eq]
  rfl

/-- BUF after a decryption: the plaintext at DST, whatever the padding (R242, R258). -/
theorem State.decrypted_buf (s : State) (pd : CbcPadding) (ks : KeySlot) (m : Bool) :
    (s.decrypted pd ks m).buf = s.buf.writeBytes s.dstN (s.cbcPlaintext ks) := by
  rw [State.decrypted, State.cbcDecrypt_eq]
  cases pd.trim ks s with
  | some q | none => rfl

theorem State.encrypted_keyBytes (s : State) (pd : CbcPadding) (ks : KeySlot) (m : Bool) :
    (s.encrypted pd ks m).keyBytes ks = s.keyBytes ks := by
  rw [State.encrypted, State.cbcEncrypt_eq]
  rfl

theorem State.bufBytes_lt (s : State) : s.bufBytes < 2 ^ 32 := by
  rw [State.bufBytes]
  cases s.bufSize <;> decide

/-! ### Decryption of what an encryption left (R270) -/

/-- `t` with the operands of a command that takes back what an encryption from `s` left in `t`: the starting IVR of `s`,
the output as the input, and a destination. -/
def State.takingBack (s t : State) (d : Word) : State :=
  { t with ivr := s.ivr, src := s.dst, dst := d, len := t.outlen }

/-- The start of a stored byte string reads back. -/
theorem State.memRead_of_buf_eq {s t : State} (hm : s.buf.rising) {o n : Nat} {bs : Bytes}
    (ht : t.buf = s.buf.writeBytes o bs) (hn : n ≤ bs.length) : t.memRead o n = bs.take n := by
  have hread : t.memRead o n = (s.memWrite o bs).memRead (o + 0) n := by
    rw [State.memRead, State.memRead, ht]
    rfl
  rw [hread, s.memRead_memWrite_inside hm (by omega)]
  rfl

/-- The plaintext of a ciphertext made with the same key and IVR (R158). -/
theorem State.cbcPlaintext_of_input_eq {b : State} {ks : KeySlot} {p : Bytes} (hp : p.length % 16 = 0)
    (hin : b.input = (cbcEnc (b.keyBytes ks) b.ivrBytes p).1) : b.cbcPlaintext ks = p := by
  rw [State.cbcPlaintext, hin, cbcDecInvertsCbcEnc _ _ p b.ivrBytes_length hp]

/-- Decryption to a padded plaintext, with the LMOD its encryption left, ends with OK, the length of the unpadded input
and that input at DST (R251, R257, R265). -/
theorem CbcPadding.exec_decCommand_of_plaintext {pd : CbcPadding} {s b : State} {ks : KeySlot} {m : Bool}
    (hrising : b.buf.rising) (htakes : pd.encTakes s.lenN = true) (hplain : b.cbcPlaintext ks = pd.pad s.input)
    (hlen : b.lenN = s.lenN + pd.count s.lenN) (hlmod : b.lmod = pd.lmodLeft s) (hadm : b.CbcAdmitted m b.lenN) :
    ∃ u, exec (pd.decCommand ks m) b = .next u ∧
      u.errcode = .ok ∧ u.outlen = s.len ∧ u.memRead b.dstN s.lenN = s.input := by
  have hrun := State.decrypted_of_trim m (trim_eq_count hplain hlen hlmod)
  have hexec := exec_decCommand_of_admitted ks (hlen ▸ decTakes_of_encTakes htakes) hadm
  refine ⟨_, hexec, by rw [hrun]; rfl, ?outlen, ?output⟩
  case outlen =>
    have hcount : (b.decrypted pd ks m).outlen = BitVec.ofNat 32 (b.lenN - pd.count s.lenN) := by rw [hrun]; rfl
    rw [hcount, hlen, Nat.add_sub_cancel, State.lenN, BitVec.ofNat_toNat, BitVec.setWidth_eq]
  case output =>
    have hfits : s.lenN ≤ (pd.pad s.input).length := by rw [pd.pad_length, s.input_length]; omega
    rw [State.memRead_of_buf_eq hrising (b.decrypted_buf pd ks m) (hplain ▸ hfits), hplain, pad,
      List.take_left' s.input_length]

section
variable {pd : CbcPadding} {s : State} {m : Bool} (ks : KeySlot)

/-- An encryption writes as many bytes as its padded input has (R241). -/
theorem State.ciphertext_length (htakes : pd.encTakes s.lenN = true) :
    (cbcEnc (s.keyBytes ks) s.ivrBytes (pd.pad s.input)).1.length = s.lenN + pd.count s.lenN := by
  have hlen : (pd.pad s.input).length = s.lenN + pd.count s.lenN := by rw [pd.pad_length, s.input_length]
  rw [cbcEnc_length _ _ _ (hlen ▸ CbcPadding.add_count_mod htakes), hlen]

/-- OUTLEN after an encryption counts the padded input (R246). -/
theorem State.encrypted_outlen (htakes : pd.encTakes s.lenN = true)
    (hadm : s.CbcAdmitted m (s.lenN + pd.count s.lenN)) :
    (s.encrypted pd ks m).outlen.toNat = s.lenN + pd.count s.lenN := by
  have hfits : s.dst.toNat + (s.lenN + pd.count s.lenN) ≤ s.bufBytes := by
    have := hadm.inRange
    omega
  have houtlen : (s.encrypted pd ks m).outlen = BitVec.ofNat 32 (s.lenN + pd.count s.lenN) := by
    rw [← s.ciphertext_length ks htakes]
    rfl
  rw [houtlen, BitVec.toNat_ofNat, Nat.mod_eq_of_lt (by have := s.bufBytes_lt; omega)]

variable (hwf : s.buf.wf = true) (htakes : pd.encTakes s.lenN = true)
  (hadm : s.CbcAdmitted m (s.lenN + pd.count s.lenN)) (d : Word)
include hwf htakes hadm

/-- The input taken back is the ciphertext (R242). -/
theorem State.takingBack_input :
    (s.takingBack (s.encrypted pd ks m) d).input =
      (cbcEnc (s.keyBytes ks) s.ivrBytes (pd.pad s.input)).1 := by
  have hlen : (s.takingBack (s.encrypted pd ks m) d).lenN = _ :=
    (s.encrypted_outlen ks htakes hadm).trans (s.ciphertext_length ks htakes).symm
  rw [State.input, hlen]
  exact (State.memRead_of_buf_eq ((Memory.wf_iff _).1 hwf).1 (s.encrypted_buf pd ks m) le_rfl).trans List.take_length

/-- The plaintext of the input taken back is the padded input (R158). -/
theorem State.takingBack_plaintext :
    (s.takingBack (s.encrypted pd ks m) d).cbcPlaintext ks = pd.pad s.input := by
  have hkey : (s.takingBack (s.encrypted pd ks m) d).keyBytes ks = s.keyBytes ks := s.encrypted_keyBytes pd ks m
  have hiv : (s.takingBack (s.encrypted pd ks m) d).ivrBytes = s.ivrBytes := rfl
  have hblocks : (pd.pad s.input).length % 16 = 0 := by
    rw [pd.pad_length, s.input_length, CbcPadding.add_count_mod htakes]
  refine State.cbcPlaintext_of_input_eq hblocks ?_
  rw [hkey, hiv, s.takingBack_input ks hwf htakes hadm d]

/-- Decryption of what an encryption left ends with OK, the length of the input and the input (R270). -/
theorem CbcPadding.exec_decCommand_takingBack (m2 : Bool)
    (hback : (s.takingBack (s.encrypted pd ks m) d).CbcAdmitted m2 (s.lenN + pd.count s.lenN)) :
    ∃ u, exec (pd.decCommand ks m2) (s.takingBack (s.encrypted pd ks m) d) = .next u ∧
      u.errcode = .ok ∧ u.outlen = s.len ∧ u.memRead d.toNat s.lenN = s.input := by
  have hlen : (s.takingBack (s.encrypted pd ks m) d).lenN = s.lenN + pd.count s.lenN :=
    s.encrypted_outlen ks htakes hadm
  have hrising : (s.takingBack (s.encrypted pd ks m) d).buf.rising := by
    rw [State.takingBack, s.encrypted_buf]
    exact Memory.rising_writeBytes ((Memory.wf_iff _).1 hwf).1 _ _
  exact exec_decCommand_of_plaintext hrising htakes (s.takingBack_plaintext ks hwf htakes hadm d) hlen rfl
    (hlen ▸ hback)

end

end Sys2Proof.Machine
end

section
/-! PROOFS. The obligations of 44_cbc_commands.md about the order of the checks and about round trips. -/

namespace Sys2Proof.Machine

/-- Settles O38: every CBC command is its checks and a run, and the checks decide in their order. -/
theorem cbcChecksInOrder : Obligations.CbcChecksInOrder := by
  unfold Obligations.CbcChecksInOrder
  intro i s m lengthTaken out hshape
  obtain ⟨run, hexec, hrun⟩ := exec_of_cbcShape hshape
  refine ⟨_, hexec, ?_⟩
  simp only [State.validated_cbcChecks, Bool.not_eq_true']
  split_ifs
  case neg => exact hrun
  all_goals rfl

/-- The encryption commands are those of the schemes. -/
theorem exists_padding_of_encCommand {ks : KeySlot} {m : Bool} {i : Instr}
    (h : i = .cbcEnc ks m ∨ i = .cbcEncPkcs7 ks m ∨ i = .cbcEncLegacy ks m) :
    ∃ pd : CbcPadding, i = pd.encCommand ks m := by
  rcases h with rfl | rfl | rfl
  · exact ⟨.whole, rfl⟩
  · exact ⟨.pkcs7, rfl⟩
  · exact ⟨.legacy, rfl⟩

/-- The command of the same padding. -/
theorem CbcPadding.eq_decCommand {pd : CbcPadding} {ks : KeySlot} {m m2 : Bool} {j : Instr}
    (h : (pd.encCommand ks m = .cbcEnc ks m ∧ j = .cbcDec ks m2) ∨
      (pd.encCommand ks m = .cbcEncPkcs7 ks m ∧ j = .cbcDecPkcs7 ks m2) ∨
      (pd.encCommand ks m = .cbcEncLegacy ks m ∧ j = .cbcDecLegacy ks m2)) : j = pd.decCommand ks m2 := by
  cases pd with
  | whole | pkcs7 | legacy => simpa [encCommand, decCommand] using h

/-- Settles O45: the ciphertext, taken back with the starting IVR, decrypts to the padded input, and the scheme takes
off what it added. -/
theorem cbcRoundTrips : Obligations.CbcRoundTrips := by
  unfold Obligations.CbcRoundTrips
  intro s ks m i lengthTaken out hi hwf hshape htaken hadm
  obtain ⟨pd, rfl⟩ := exists_padding_of_encCommand hi
  obtain ⟨htakes, rfl⟩ : pd.encTakes s.lenN = true ∧ s.lenN + pd.count s.lenN = out := by
    rw [pd.cbcShape_encCommand] at hshape
    cases hshape
    exact ⟨htaken, rfl⟩
  refine ⟨_, CbcPadding.exec_encCommand_of_admitted ks htakes hadm, s.encrypted_errcode pd ks m,
    s.encrypted_outlen ks htakes hadm, fun d m2 j hj hback => ?_⟩
  rw [CbcPadding.eq_decCommand hj]
  exact CbcPadding.exec_decCommand_takingBack ks hwf htakes hadm d m2 hback

end Sys2Proof.Machine
end

section
/-! PROOFS. Rules about the context commands: the comparison of CTX_VERIFY decides equality, what CTX_VERIFY and
CTX_UPDATE do past their checks, and what updates over successive pieces leave. -/

namespace Sys2Proof.Machine

/-! ### The comparison of CTX_VERIFY (R296) -/

theorem foldl_or_eq_zero_iff (acc : Byte) (bs : Bytes) :
    bs.foldl (· ||| ·) acc = 0#8 ↔ acc = 0#8 ∧ ∀ b ∈ bs, b = 0#8 := by
  induction bs generalizing acc with
  | nil => simp
  | cons b bs ih => simp [ih, BitVec.or_eq_zero_iff, and_assoc]

/-- Byte strings of one length agree iff their xor is all zeros. -/
theorem xorBytes_all_zero_iff {d t : Bytes} (hlen : d.length = t.length) :
    (∀ b ∈ xorBytes d t, b = 0#8) ↔ d = t := by
  induction d generalizing t with
  | nil => simp [xorBytes, List.length_eq_zero_iff.1 hlen.symm]
  | cons x d ih =>
    cases t with
    | nil => cases hlen
    | cons y t =>
      have htail := ih (Nat.succ.inj hlen)
      rw [xorBytes] at htail
      rw [xorBytes, List.zipWith_cons_cons, List.forall_mem_cons, htail, BitVec.xor_eq_zero_iff, List.cons.injEq]

/-- The comparison finds no difference exactly between equal byte strings: every byte counts (R297). -/
theorem byteDifference_eq_zero_iff {d t : Bytes} (hlen : d.length = t.length) :
    byteDifference d t = 0#8 ↔ d = t := by
  rw [byteDifference, foldl_or_eq_zero_iff, xorBytes_all_zero_iff hlen]
  exact and_iff_right rfl

/-! ### CTX_VERIFY past its checks (R296, R298) -/

/-- CTX_VERIFY with an Active context and a valid tag range: the stored tag is the digest or it is not, and the context
ends in either case. -/
theorem exec_ctxVerify_of_active {s : State} {kind : ContextKind} {h : HashAlg} {key msg : Bytes}
    (hactive : s.context = .active kind h key msg) (hrange : s.src.toNat + hashOutBytes h ≤ s.bufBytes) :
    exec .ctxVerify s = .next
      (if s.memRead s.src.toNat (hashOutBytes h) = contextDigest kind h key msg
        then State.completed { s with context := .inactive } true
        else State.failed { s with context := .inactive } .auth) := by
  have hlen : (contextDigest kind h key msg).length = (s.memRead s.srcN (hashOutBytes h)).length := by
    rw [contextDigest_length, State.memRead_length]
  have hvalid : s.rangeValid s.srcN (hashOutBytes h) = true := (s.rangeValid_iff _ _).2 hrange
  have hexec : exec .ctxVerify s = execCtxVerify s := rfl
  rw [hexec, execCtxVerify, hactive]
  simp only [hvalid, if_true, byteDifference_eq_zero_iff hlen, eq_comm (a := contextDigest kind h key msg)]
  rw [State.finish_ok, State.raiseError_eq, State.finish_error _ (by decide)]
  rfl

/-- A bit in which a stored string and another byte string differ tells the strings apart (R299). -/
theorem State.memRead_ne_of_bit_ne {s : State} {o n i bit : Nat} {d : Bytes} (hi : i < n)
    (hbit : (s.buf.read (o + i)).getLsbD bit ≠ (d.getD i 0#8).getLsbD bit) : s.memRead o n ≠ d := by
  intro heq
  rw [← heq, s.memRead_getD o n i hi] at hbit
  exact hbit rfl

/-- AUTH is reported as AuthenticationFailed (R298, R336). -/
theorem State.errorKindOf_failed_auth (s : State) :
    errorKindOf (s.failed .auth).errcodeWord = .authenticationFailed := rfl

/-! ### CTX_UPDATE past its checks (R290) -/

theorem Context.isInactive_eq_false_iff (c : Context) : c.isInactive = false ↔ c ≠ .inactive := by
  rw [← Bool.not_eq_true, Context.isInactive_iff]

/-- CTX_UPDATE of an Active context with a valid range and room absorbs the input; all else is the completion. -/
theorem exec_ctxUpdate_of_room {s : State} (hactive : s.context ≠ .inactive)
    (hroom : s.context.msgLength + s.len.toNat ≤ 2 ^ 60) (hrange : s.src.toNat + s.len.toNat ≤ s.bufBytes) :
    exec .ctxUpdate s = .next (State.completed { s with context := s.context.absorb s.input } false) := by
  have hstate : s.context.isInactive = false := s.context.isInactive_eq_false_iff.2 hactive
  have hfull : s.contextFull s.lenN = false := by
    rw [← Bool.not_eq_true, State.contextFull_iff]
    exact Nat.not_lt.2 hroom
  have hbad : s.inputBad = false := by
    rw [← Bool.not_eq_true, State.inputBad_iff]
    exact Nat.not_lt.2 hrange
  have hpass : firstFailure
      [(s.context.isInactive, .ctxState), (s.contextFull s.lenN, .length), (s.inputBad, .range)] = none := by
    rw [hstate, hfull, hbad]
    rfl
  rw [← State.finish_ok]
  exact congrArg Host.Outcome.next (State.validated_of_none _ hpass)

/-- The context stays Active when it absorbs (R243, R290). -/
theorem Context.absorb_ne_inactive {c : Context} (h : c ≠ .inactive) (bs : Bytes) : c.absorb bs ≠ .inactive := by
  rw [← Context.isInactive_eq_false_iff, Context.absorb_isInactive]
  exact c.isInactive_eq_false_iff.2 h

/-! ### Updates over successive pieces (R291) -/

/-- The length of a range inside BUF fits a register (R81). -/
theorem State.toNat_ofNat_of_inRange {s : State} {o n : Nat} (hrange : o + n ≤ s.bufBytes) :
    (BitVec.ofNat 32 n).toNat = n := by
  have hbuf := s.bufBytes_lt
  rw [BitVec.toNat_ofNat, Nat.mod_eq_of_lt (by omega)]

/-- The state after a CTX_UPDATE over the `n` bytes at SRC, with SRC moved past them. -/
def State.afterPiece (s : State) (n : Nat) : State :=
  State.completed
    { s with
      context := s.context.absorb (s.memRead s.src.toNat n)
      len := BitVec.ofNat 32 n
      src := s.src + BitVec.ofNat 32 n } false

/-- The first piece is one CTX_UPDATE; the others follow from the state it leaves. -/
theorem updatePieces_cons {n : Nat} (ns : List Nat) {s : State} (hactive : s.context ≠ .inactive)
    (hroom : s.context.msgLength + n ≤ 2 ^ 60) (hrange : s.src.toNat + n ≤ s.bufBytes) :
    updatePieces (n :: ns) s = updatePieces ns (s.afterPiece n) := by
  have hn : (BitVec.ofNat 32 n).toNat = n := State.toNat_ofNat_of_inRange hrange
  have hpiece := exec_ctxUpdate_of_room (s := { s with len := BitVec.ofNat 32 n }) hactive
    (by simpa only [hn] using hroom) (by rw [hn]; exact hrange)
  rw [State.input, State.lenN, hn] at hpiece
  rw [updatePieces, hpiece]
  rfl

/-- SRC moved past a piece inside BUF does not wrap around (R81). -/
theorem State.afterPiece_src_toNat {s : State} {n : Nat} (hrange : s.src.toNat + n ≤ s.bufBytes) :
    (s.afterPiece n).src.toNat = s.src.toNat + n := by
  have hbuf := s.bufBytes_lt
  calc (s.src + BitVec.ofNat 32 n).toNat
      = (s.src.toNat + n) % 2 ^ 32 := by rw [BitVec.toNat_add, State.toNat_ofNat_of_inRange hrange]
    _ = s.src.toNat + n := Nat.mod_eq_of_lt (by omega)

/-- Updates over successive pieces with room for all of them absorb the range they cover (R291). -/
theorem updatePieces_context (ns : List Nat) {s : State} (hactive : s.context ≠ .inactive)
    (hroom : s.context.msgLength + ns.sum ≤ 2 ^ 60) (hrange : s.src.toNat + ns.sum ≤ s.bufBytes) :
    ∃ u, updatePieces ns s = .next u ∧ u.context = s.context.absorb (s.memRead s.src.toNat ns.sum) := by
  induction ns generalizing s with
  | nil => exact ⟨s, rfl, s.context.absorb_nil.symm⟩
  | cons n ns ih =>
    rw [List.sum_cons] at hroom hrange ⊢
    have hfirst : s.src.toNat + n ≤ s.bufBytes := by omega
    have hsrc := State.afterPiece_src_toNat hfirst
    have hlength : (s.afterPiece n).context.msgLength = s.context.msgLength + n := by
      have habsorbed := s.context.absorb_msgLength (s.memRead s.src.toNat n)
        (s.context.isInactive_eq_false_iff.2 hactive)
      rwa [State.memRead_length] at habsorbed
    obtain ⟨u, hrun, hcontext⟩ := ih (s := s.afterPiece n) (Context.absorb_ne_inactive hactive _)
      (by omega) (by rw [hsrc, Nat.add_assoc]; exact hrange)
    refine ⟨u, ?_, ?_⟩
    · rw [updatePieces_cons ns hactive (by omega) hfirst, hrun]
    · calc u.context
          = (s.context.absorb (s.memRead s.src.toNat n)).absorb (s.memRead (s.src.toNat + n) ns.sum) := by
            rw [hcontext, hsrc]
            rfl
        _ = s.context.absorb (s.memRead s.src.toNat (n + ns.sum)) := by
            rw [Context.absorb_absorb, ← State.memRead_add]

end Sys2Proof.Machine
end

section
/-! PROOFS. The obligations of 45_context_commands.md about tampered tags and about the cut of a message. -/

namespace Sys2Proof.Machine

/-- Settles O52: the differing bit makes the stored tag another string than the digest, and the comparison finds every
difference. -/
theorem ctxVerifyDetectsTampering : Obligations.CtxVerifyDetectsTampering := by
  unfold Obligations.CtxVerifyDetectsTampering
  intro s kind h key msg i bit hactive hrange hi hbit
  refine ⟨?_, State.errorKindOf_failed_auth _⟩
  rw [exec_ctxVerify_of_active hactive hrange, if_neg (State.memRead_ne_of_bit_ne hi hbit)]

/-- Settles O54: the pieces and the one update absorb the same range of BUF. -/
theorem updateSplitting : Obligations.UpdateSplitting := by
  unfold Obligations.UpdateSplitting
  intro ns s hactive hlen hrange hroom
  obtain ⟨u, hrun, hcontext⟩ := updatePieces_context ns hactive hroom hrange
  refine ⟨_, u, exec_ctxUpdate_of_room hactive (hlen ▸ hroom) (hlen ▸ hrange), hrun, ?_⟩
  rw [hcontext, ← hlen]
  rfl

end Sys2Proof.Machine
end

section
/-! PROOFS. The obligation of 60_exceptions.md about the issue of a command: a write to CMD in either phase and at every
width. -/

namespace Sys2Proof.Machine

/-- A write of fewer than 32 bits to the register region is a bus error (R71, R73). -/
theorem State.busWrite_register_narrow (s : State) {a : BitVec 16} {w : Width} (ha : a.toNat < 0x8000)
    (hw : w ≠ .w4) (v : Word) : s.busWrite (.window a) w v = (s, true) := by
  have hl : legalAccess a w = false :=
    Bool.eq_false_iff.2 fun hlegal => hw ((legalAccess_register ha w).1 hlegal).1
  exact s.busWrite_illegal hl v

/-- Settles O9: while Idle the write is the issue, while Busy the lockout drops it, and no narrow write of a register is
legal. -/
theorem issueEffects : Obligations.IssueEffects := by
  unfold Obligations.IssueEffects
  intro s v
  refine ⟨fun hidle => ?issued, fun hbusy => ?dropped, ?byteWrite, ?halfwordWrite⟩
  case issued => exact ⟨s.issue v, State.busWrite_cmd_of_idle hidle v, rfl⟩
  case dropped =>
    exact s.busWrite_locked (s.busy_iff.2 hbusy) ((legalAccess_register (by decide) .w4).2 ⟨rfl, by decide⟩)
      (by decide) (by decide) v
  case byteWrite => exact s.busWrite_register_narrow (by decide) (by decide) v
  case halfwordWrite => exact s.busWrite_register_narrow (by decide) (by decide) v

end Sys2Proof.Machine
end

section
/-! PROOFS. The obligations of 30_encoding.md about every word: a word is the encoding of the command it spells, and the
rows of the opcode map exclude each other. -/

namespace Sys2Proof

/-! ### The word of given fields (R101, R104) -/

/-- A slot number takes the two bits of KS (R101). -/
theorem testBit_keySlot (ks : KeySlot) {j : Nat} (hj : 2 ≤ j) : ks.val.testBit j = false :=
  Nat.testBit_lt_two_pow (ks.isLt.trans_le (Nat.pow_le_pow_right (n := 2) (by decide) hj))

/-- Bit by bit, the word the encoder makes of its fields (R104). -/
theorem getLsbD_encodeFields (opc : BitVec 8) (ks : KeySlot) (m : Bool) (h : HashAlg) {i : Nat} (hi : i < 32) :
    (encodeFields opc ks m h).getLsbD i =
      (opc.getLsbD i || (decide (8 ≤ i) && ks.val.testBit (i - 8)) || (decide (i = 10) && m) ||
        (decide (i = 12) && (h == .sha512))) := by
  have hks : (BitVec.ofNat 32 ks.val <<< 8).getLsbD i = (decide (8 ≤ i) && ks.val.testBit (i - 8)) := by
    have hlt : i - 8 < 32 := by omega
    have hfrom : (!decide (i < 8)) = decide (8 ≤ i) := by simp only [← decide_not, Nat.not_lt]
    rw [BitVec.getLsbD_shiftLeft, BitVec.getLsbD_ofNat, hfrom]
    simp [hi, hlt]
  have hm : ((BitVec.ofBool m).zeroExtend 32 <<< 10).getLsbD i = _ := Machine.getLsbD_bitAt 10 i m
  have hh : ((BitVec.ofBool (h == .sha512)).zeroExtend 32 <<< 12).getLsbD i = _ := Machine.getLsbD_bitAt 12 i _
  rw [encodeFields, BitVec.getLsbD_or, BitVec.getLsbD_or, BitVec.getLsbD_or, hks, hm, hh, BitVec.getLsbD_setWidth]
  simp [hi]

/-- The fields of the word the encoder makes (R104). -/
theorem RawCommand.ofWord_encodeFields (opc : BitVec 8) (ks : KeySlot) (m : Bool) (h : HashAlg) :
    RawCommand.ofWord (encodeFields opc ks m h) =
      ⟨opc, BitVec.ofNat 2 ks.val, m, false, h == .sha512, 0#19⟩ := by
  have beyond_opc {i : Nat} (hi : 8 ≤ i) : opc.getLsbD i = false := BitVec.getLsbD_of_ge opc i hi
  have beyond_ks {j : Nat} (hj : 2 ≤ j) : ks.val.testBit j = false := testBit_keySlot ks hj
  simp only [RawCommand.ofWord, RawCommand.mk.injEq]
  refine ⟨?opc, ?ks, ?m, ?rsv11, ?h, ?rsv⟩
  case opc =>
    refine BitVec.eq_of_getLsbD_eq fun i hi => ?_
    have h1 : ¬ 8 ≤ i := by omega
    have h2 : i ≠ 10 := by omega
    have h3 : i ≠ 12 := by omega
    rw [BitVec.getLsbD_extractLsb', Nat.zero_add, getLsbD_encodeFields _ _ _ _ (by omega)]
    simp [hi, h1, h2, h3]
  case ks =>
    refine BitVec.eq_of_getLsbD_eq fun i hi => ?_
    have h2 : 8 + i ≠ 10 := by omega
    have h3 : 8 + i ≠ 12 := by omega
    rw [BitVec.getLsbD_extractLsb', getLsbD_encodeFields _ _ _ _ (by omega), beyond_opc (by omega)]
    simp [hi, h2, h3]
  case m =>
    rw [getLsbD_encodeFields _ _ _ _ (by decide), beyond_opc (by decide), beyond_ks (by decide)]
    simp
  case rsv11 =>
    rw [getLsbD_encodeFields _ _ _ _ (by decide), beyond_opc (by decide), beyond_ks (by decide)]
    simp
  case h =>
    rw [getLsbD_encodeFields _ _ _ _ (by decide), beyond_opc (by decide), beyond_ks (by decide)]
    simp
  case rsv =>
    refine BitVec.eq_of_getLsbD_eq fun i hi => ?_
    have h2 : 13 + i ≠ 10 := by omega
    have h3 : 13 + i ≠ 12 := by omega
    rw [BitVec.getLsbD_extractLsb', getLsbD_encodeFields _ _ _ _ (by omega), beyond_opc (by omega),
      beyond_ks (by omega)]
    simp [h2, h3]

/-- A raw command with its reserved bits clear is the one the encoder's word has for its fields (R104). -/
theorem RawCommand.ofWord_encodeFields_of_reservedClear {c : RawCommand} (hrsv11 : c.rsv11 = false)
    (hrsv : c.rsv = 0#19) : RawCommand.ofWord (encodeFields c.opc (slotOf c.ks) c.m (hashOf c.h)) = c := by
  have hks : BitVec.ofNat 2 (slotOf c.ks).val = c.ks := by rw [slotOf, BitVec.ofNat_toNat, BitVec.setWidth_eq]
  have hh : (hashOf c.h == .sha512) = c.h := by cases c.h <;> rfl
  rw [RawCommand.ofWord_encodeFields, hks, hh, ← hrsv11, ← hrsv]

/-! ### The decoder against the encoder (R103, R104) -/

/-- The command an opcode names with the fields of a well-formed raw command is encoded with exactly these fields. -/
theorem encode_of_commandOf {c : RawCommand} {i : Instr} (hwf : c.wellFormed = true)
    (h : commandOf c.opc (slotOf c.ks) c.m (hashOf c.h) = some i) :
    encode i = encodeFields c.opc (slotOf c.ks) c.m (hashOf c.h) := by
  obtain ⟨-, hks, hm, -, hh, -⟩ := (RawCommand.wellFormed_iff c).1 hwf
  have slot_zero : c.ks = 0#2 → slotOf c.ks = 0 := fun h => by rw [h]; rfl
  have hash_clear : c.h = false → hashOf c.h = .sha256 := fun h => by rw [h]; rfl
  unfold commandOf at h
  split at h
  case h_17 => cases h
  -- in every row a field is either written as it stands or 0 and not written
  all_goals
    next hopc =>
    obtain rfl := Option.some.inj h
    rw [RawCommand.admitsKs_iff, hopc] at hks
    rw [RawCommand.admitsM_iff, hopc] at hm
    rw [RawCommand.admitsH_iff, hopc] at hh
    have hopc' := congrArg (BitVec.ofNat 8) hopc
    rw [BitVec.ofNat_toNat, BitVec.setWidth_eq] at hopc'
    simp_all [encode, opcodeOf]

/-- Some row matches a word exactly if the decoder answers a command (R104). -/
theorem decode_isSome_iff_exists_row (w : Word) :
    (decode w).isSome = true ↔ ∃ r ∈ opcodeRows, w &&& r.mask = r.pattern := by
  have hspells (r : OpcodeRow) : r.spells w = true ↔ w &&& r.mask = r.pattern := beq_iff_eq
  simp only [← hspells]
  rw [← List.any_eq_true, opcodeRows_any_spells, Option.isSome_iff_ne_none, ne_eq, decode_eq_none_iff, not_not]

/-- A row of the opcode map is known by the opcode in its match (R103). -/
theorem opcodeRow_eq_of_opc_eq : ∀ r ∈ opcodeRows, ∀ q ∈ opcodeRows,
    (RawCommand.ofWord r.pattern).opc = (RawCommand.ofWord q.pattern).opc → r = q := by
  decide

namespace Machine

/-- Settles O1: the decoder inverts the encoder, and a word that decodes has no bits but the fields the encoder
writes. -/
theorem decodeIffEncode : Obligations.DecodeIffEncode := by
  unfold Obligations.DecodeIffEncode
  refine fun w i => ⟨fun hdecode => ?_, fun hencode => hencode ▸ decode_encode i⟩
  rw [decode_eq] at hdecode
  split at hdecode
  case isFalse => cases hdecode
  case isTrue hwf =>
    obtain ⟨-, -, -, hrsv11, -, hrsv⟩ := (RawCommand.wellFormed_iff _).1 hwf
    apply RawCommand.ofWord_injective
    rw [encode_of_commandOf hwf hdecode, RawCommand.ofWord_encodeFields_of_reservedClear hrsv11 hrsv]

/-- Settles O2: a matching row has the word's opcode, and no two rows have one opcode. -/
theorem atMostOneRowSpells : Obligations.AtMostOneRowSpells := by
  unfold Obligations.AtMostOneRowSpells
  refine fun w => ⟨fun r hr q hq hrw hqw => opcodeRow_eq_of_opc_eq r hr q hq ?_, decode_isSome_iff_exists_row w⟩
  obtain ⟨hopcr, -⟩ := (OpcodeRow.spells_iff hr w).1 (beq_iff_eq.2 hrw)
  obtain ⟨hopcq, -⟩ := (OpcodeRow.spells_iff hq w).1 (beq_iff_eq.2 hqw)
  exact hopcr.symm.trans hopcq

end Machine

end Sys2Proof
end

section
/-! PROOFS. Rules about host steps: which statement does what to the engine, and what every host step leaves
(00_scope.md R8, R9; 20_memory.md R70 to R78). -/

namespace Sys2Proof.Machine

/-! ### Whose step it is (R9) -/

/-- A step that is no completion is the host's. -/
theorem step_of_not_turn {s : State} (h : ¬ (s.phase = .busy ∧ s.delay = 0)) : step s = .next (hostStep s) := by
  have hhost : s.engineTurn = false := by rwa [← Bool.not_eq_true, State.engineTurn_iff]
  simp only [step, hhost, Bool.false_eq_true, if_false]

/-- A step with a command outstanding and no delay left is its completion (R131). -/
theorem step_of_turn {s : State} (hphase : s.phase = .busy) (hdelay : s.delay = 0) : step s = completion s := by
  have hturn : s.engineTurn = true := s.engineTurn_iff.2 ⟨hphase, hdelay⟩
  simp only [step, hturn, if_true]

theorem completion_of_decode {s : State} {i : Instr} (h : decode s.cmdr = some i) : completion s = exec i s := by
  simp only [completion, h]

/-- The state in which the host's statement runs: the outstanding command is one host step nearer to its completion
(R421, log entry 3). -/
def State.counted (s : State) : State := { s with delay := s.delay - 1 }

/-- The state with another host agent beside the engine. -/
def State.withHost (s : State) (h : HostAgent) : State := { s with host := h }

theorem hostStep_of_nil {s : State} (h : s.host.program = []) : hostStep s = s.counted := by
  simp only [hostStep, h, State.counted]

theorem hostStep_of_cons {s : State} {st : HostStmt} {rest : List HostStmt} (h : s.host.program = st :: rest) :
    hostStep s = runStmt st rest s.counted := by
  simp only [hostStep, h, State.counted]

/-! ### Everything a host step can do to the engine -/

/-- A host step takes `s` to `t`: one constructor for each thing it can do to the engine, with the statement that does
it; the host agent itself may change in every case. -/
inductive HostEffect (s : State) : State → Prop
  /-- the statement is no write, or its write has a bus error (R73) -/
  | kept (h : HostAgent) : HostEffect s (s.counted.withHost h)
  /-- the lockout drops a write (R35, R78) -/
  | dropped {a : BitVec 16} {w : Width} {v : Word} {rest : List HostStmt} (h : HostAgent) (hbusy : s.phase = .busy)
      (hprogram : s.host.program = .wr (.window a) w v :: rest) (hlegal : legalAccess a w = true)
      (hlocked : a.toNat ∉ [0x0008, 0x000C]) : HostEffect s (s.counted.dropWrite.withHost h)
  /-- a write reaches the register at its offset (R23) -/
  | stored {a : BitVec 16} {v : Word} {rest : List HostStmt} (h : HostAgent)
      (hprogram : s.host.program = .wr (.window a) .w4 v :: rest) (hregion : a.toNat < 0x8000)
      (haligned : a.toNat % 4 = 0) (hunlocked : s.phase = .busy → a = 0x0008#16 ∨ a = 0x000C#16) :
      HostEffect s ((s.counted.regWrite (regAt (a.toNat / 4)) v).withHost h)
  /-- a write reaches BUF (R72) -/
  | storedBuf {i : Nat} {w : Width} {v : Word} (h : HostAgent) (hidle : s.phase = .idle) (haligned : i % w.bytes = 0) :
      HostEffect s ((s.counted.bufStore i w v).withHost h)
  /-- power-on reset (R400) -/
  | reset {rest : List HostStmt} (h : HostAgent) (hprogram : s.host.program = .powerOnReset :: rest) :
      HostEffect s (s.counted.resetEngine.withHost h)

theorem State.idle_of_busy_eq_false {s : State} (h : s.busy = false) : s.phase = .idle := by
  cases hphase : s.phase with
  | idle => rfl
  | busy => rw [s.busy_iff.2 hphase] at h; cases h

/-- Every host step has one of these effects. -/
theorem hostStep_effect (s : State) : HostEffect s (hostStep s) := by
  rcases hostStep_engine s with ⟨h, hstep⟩ | ⟨t, w, v, h, rest, hprogram, hstep⟩ | ⟨h, rest, hprogram, hstep⟩
  · exact hstep ▸ .kept h
  · rw [hstep]
    cases t with
    | outside => exact .kept h
    | window a =>
      rcases State.busWrite_window_cases s.counted a w v with
        hwrite | ⟨hbusy, hlegal, hlocked, hwrite⟩ | ⟨rfl, -, hunlocked, hregion, haligned, hwrite⟩ |
        ⟨hbusy, i, haligned, hwrite⟩
      all_goals
        have hstate := congrArg Prod.fst hwrite
        dsimp only [State.counted] at hstate
        rw [hstate]
      · exact .kept h
      · exact .dropped h (s.counted.busy_iff.1 hbusy) hprogram hlegal hlocked
      · exact .stored h hprogram hregion haligned fun hphase => hunlocked (s.counted.busy_iff.2 hphase)
      · exact .storedBuf h (State.idle_of_busy_eq_false (s := s.counted) hbusy) haligned
  · exact hstep ▸ .reset h hprogram

/-- A host step that makes a write: the bus write, and the host's record of it. -/
theorem hostStep_of_wr {s : State} {a : BusAddr} {w : Width} {v : Word} {rest : List HostStmt}
    (hprogram : s.host.program = .wr a w v :: rest) :
    ∃ h, hostStep s = (s.counted.busWrite a w v).1.withHost h :=
  ⟨_, hostStep_of_cons hprogram⟩

/-- A power-on reset statement resets the engine (R400). -/
theorem hostStep_of_powerOnReset {s : State} {rest : List HostStmt}
    (hprogram : s.host.program = .powerOnReset :: rest) :
    ∃ h, hostStep s = s.counted.resetEngine.withHost h :=
  ⟨_, hostStep_of_cons hprogram⟩

/-! ### What every host access leaves -/

/-- A register write leaves the host agent. -/
theorem State.regWrite_host (s : State) (r : Reg) (v : Word) : (s.regWrite r v).host = s.host := by
  cases r with
  | ctrl =>
    simp only [State.regWrite, State.writeCtrl]
    split <;> rfl
  | _ => rfl

/-- A bus write leaves the host agent. -/
theorem State.busWrite_host (s : State) (t : BusAddr) (w : Width) (v : Word) : (s.busWrite t w v).1.host = s.host := by
  rcases s.busWrite_cases t w v with hwrite | ⟨-, hwrite⟩ | ⟨r, -, hwrite⟩ | ⟨-, i, -, hwrite⟩
  · rw [hwrite]
  · rw [hwrite]
    rfl
  · rw [hwrite]
    exact s.regWrite_host r v
  · rw [hwrite, State.bufStore_eq]

/-- STATUS read by the host, in either phase (R29). -/
theorem State.busRead_status (s : State) : s.busRead Reg.status.addr .w4 = ⟨false, s.statusWord⟩ :=
  s.busRead_unlocked (by decide) (by decide)

/-- ERRCODE read by the host, in either phase (R37). -/
theorem State.busRead_errcode (s : State) : s.busRead Reg.errcode.addr .w4 = ⟨false, s.errcodeWord⟩ :=
  s.busRead_unlocked (by decide) (by decide)

/-- The bits of STATUS (R29). -/
theorem State.statusWord_bits (s : State) :
    s.statusWord.getLsbD 0 = s.busy ∧ s.statusWord.getLsbD 1 = s.done ∧ s.statusWord.getLsbD 2 = s.err ∧
    s.statusWord.getLsbD 3 = s.authOk ∧ s.statusWord.getLsbD 4 = s.ctxActive ∧ s.statusWord.getLsbD 5 = s.ctxH ∧
    s.statusWord.getLsbD 6 = s.ctxKeyed ∧ s.statusWord.getLsbD 7 = s.ovf := by
  simp only [State.statusWord, BitVec.getLsbD_or, getLsbD_bitAt]
  simp

/-- Bit 0 of STATUS is BUSY (R30). -/
theorem State.statusWord_busy (s : State) : s.statusWord.getLsbD 0 = s.busy := by
  obtain ⟨hbusy, -⟩ := s.statusWord_bits
  exact hbusy

/-- ERRCODE reads 0 with code OK alone (R37, R361). -/
theorem State.errcodeWord_eq_zero_iff (s : State) : s.errcodeWord = 0#32 ↔ s.errcode = .ok := by
  unfold State.errcodeWord
  cases s.errcode <;> decide

end Sys2Proof.Machine
end

section
/-! PROOFS. The obligations of 40_control.md and 00_scope.md about steps: the engine runs the decoded command, and
otherwise the host runs its next statement. -/

namespace Sys2Proof.Machine

/-- The decoder reads a placed word as it reads the word `withFetchWord` puts into CMDR (log entry 7). -/
theorem decode_withFetchWord {s : State} {w : Nat} {i : Instr} (h : decodeTableWord 32 w = some i) :
    decode (s.withFetchWord 32 w).cmdr = some i := by
  have hlt : w % 2 ^ 32 < 2 ^ 32 := Nat.mod_lt _ (by decide)
  rw [decodeTableWord, if_pos hlt] at h
  simpa [State.withFetchWord, wordBytes, decodeBytes, leWordOf, Function.comp_def] using h

/-- Settles O6: the step is the completion of the word in CMDR, which `withFetchWord` has put there. -/
theorem stepRunsDecoded : Obligations.StepRunsDecoded := by
  unfold Obligations.StepRunsDecoded
  have runs {s : State} {i : Instr} (hphase : s.phase = .busy) (hdelay : s.delay = 0)
      (hdecode : decode s.cmdr = some i) : step s = exec i s := by
    rw [step_of_turn hphase hdelay, completion_of_decode hdecode]
  exact ⟨fun s i => runs, fun s w i h => runs rfl rfl (decode_withFetchWord h)⟩

/-- A write statement: the bus write, with the host's record of the response. -/
theorem runStmt_wr (s : State) (a : BusAddr) (w : Width) (v : Word) (rest : List HostStmt) :
    runStmt (.wr a w v) rest s = { (s.busWrite a w v).1 with
      host := { s.host with program := rest, last := ⟨(s.busWrite a w v).2, 0#32⟩ } } := by
  simp only [runStmt, State.hostAfter, State.busWrite_host]

/-- `wait` repeats itself while Busy (R110). -/
theorem runStmt_wait (s : State) (rest : List HostStmt) :
    runStmt .wait rest s = { s with host := { s.host with
      program := if s.phase = .busy then .wait :: rest else rest
      last := ⟨false, s.statusWord⟩ } } := by
  simp only [runStmt, State.hostAfter, State.busRead_status, State.statusWord_busy, State.busy_iff]

/-- `chk` goes on with code OK and stops with an error kind else (R323, R336). -/
theorem runStmt_chk (s : State) (rest : List HostStmt) :
    runStmt .chk rest s = { s with host := { s.host with
      program := if s.errcode = .ok then rest else []
      last := ⟨false, s.errcodeWord⟩
      raised := if s.errcode = .ok then s.host.raised else some (errorKindOf s.errcodeWord) } } := by
  simp only [runStmt, State.hostRaise, State.hostAfter, State.busRead_errcode, State.errcodeWord_eq_zero_iff]
  split <;> rfl

/-- Settles O7: one equation for each statement. -/
theorem stepRunsHost : Obligations.StepRunsHost := by
  unfold Obligations.StepRunsHost
  intro s rest hturn
  rw [step_of_not_turn hturn]
  refine ⟨fun h => ?idle, fun a w h => ?rd, fun a w v h => ?wr, fun h => ?wait, fun h => ?chk⟩
  case idle => exact congrArg _ (hostStep_of_nil h)
  case rd => exact congrArg _ (hostStep_of_cons h)
  case wr => exact congrArg _ ((hostStep_of_cons h).trans (runStmt_wr _ a w v rest))
  case wait => exact congrArg _ ((hostStep_of_cons h).trans (runStmt_wait _ rest))
  case chk => exact congrArg _ ((hostStep_of_cons h).trans (runStmt_chk _ rest))

/-! ### Resets (R28, R400, R404) -/

/-- A write of CTRL with bit 1 set is a reset of the engine (R28). -/
theorem State.writeCtrl_reset (s : State) {v : Word} (h : v.getLsbD 1 = true) : s.writeCtrl v = s.resetEngine := by
  rw [State.writeCtrl, if_pos h]

/-- A write of CTRL with bit 1 clear sets IRQ_EN to bit 0 (R27). -/
theorem State.writeCtrl_irqEn (s : State) {v : Word} (h : v.getLsbD 1 = false) :
    s.writeCtrl v = { s with irqEn := v.getLsbD 0 } := by
  rw [State.writeCtrl, h]
  rfl

/-- While Idle the next step is the host's. -/
theorem step_of_idle {s : State} (h : s.phase = .idle) : step s = .next (hostStep s) :=
  step_of_not_turn fun hbusy => by rw [h] at hbusy; cases hbusy.1

/-- Settles O12: the write is the reset or the setting of IRQ_EN, and the reset state is Idle. -/
theorem ctrlWrite : Obligations.CtrlWrite := by
  unfold Obligations.CtrlWrite
  refine fun s v => ⟨fun hreset => ?reset, fun hkept => ?irqEn⟩
  case reset =>
    rw [State.busWrite_ctrl, s.writeCtrl_reset hreset]
    exact ⟨s.resetEngine, rfl, rfl, rfl, rfl, rfl, rfl, step_of_idle rfl⟩
  case irqEn => rw [State.busWrite_ctrl, s.writeCtrl_irqEn hkept]

/-- Settles O13: both statements reset the engine beside the host's own record. -/
theorem bothResetsAgree : Obligations.BothResetsAgree := by
  unfold Obligations.BothResetsAgree
  intro s rest v hturn hreset engine
  have hwrite (u : State) : u.busWrite (.window 0x0008#16) .w4 v = (u.resetEngine, false) := by
    rw [State.busWrite_ctrl, u.writeCtrl_reset hreset]
  refine ⟨fun hprogram => ?powerOn, fun hprogram => ?soft, rfl, step_of_idle rfl⟩
  case powerOn =>
    rw [step_of_not_turn hturn, hostStep_of_cons hprogram]
    rfl
  case soft =>
    rw [step_of_not_turn hturn, hostStep_of_cons hprogram, runStmt_wr, hwrite]
    rfl

end Sys2Proof.Machine
end

section
/-! PROOFS. Rules about completions: everything a command can do before it completes, with the code it completes with,
and what every completion does to the flags (40_control.md R131 to R133, 60_exceptions.md R360, R361). -/

namespace Sys2Proof.Machine

/-- What an encryption of a scheme leaves before it completes (R242, R243, R246, R262). -/
def State.encryptionLeft (s : State) (pd : CbcPadding) (ks : KeySlot) (m : Bool) : State :=
  let r := cbcEnc (s.keyBytes ks) s.ivrBytes (pd.pad s.input)
  { s with
    buf := s.buf.writeBytes s.dstN r.1
    ivr := wordsOfBytes 4 r.2
    context := if m then s.context.absorb r.1 else s.context
    outlen := BitVec.ofNat 32 r.1.length
    lmod := pd.lmodLeft s }

/-- What a decryption leaves before it completes, with OUTLEN set to `n` (R242, R243, R246, R258). -/
def State.decryptionLeft (s : State) (ks : KeySlot) (m : Bool) (n : Nat) : State :=
  let r := cbcDec (s.keyBytes ks) s.ivrBytes s.input
  { s with
    buf := s.buf.writeBytes s.dstN r.1
    ivr := wordsOfBytes 4 r.2
    context := if m then s.context.absorb s.input else s.context
    outlen := BitVec.ofNat 32 n }

theorem State.encrypted_eq (s : State) (pd : CbcPadding) (ks : KeySlot) (m : Bool) :
    s.encrypted pd ks m = (s.encryptionLeft pd ks m).completed false := by
  rw [State.encrypted, State.cbcEncrypt_eq]
  rfl

theorem State.cbcDecrypt_setOutlen (s : State) (ks : KeySlot) (m : Bool) (n : Nat) :
    (s.cbcDecrypt ks m).setOutlen n = s.decryptionLeft ks m n := by
  rw [State.cbcDecrypt_eq]
  rfl

/-- Command `i` takes `s`, before the completion itself, to a state with a code: one constructor for each way a command
ends, with the checks that lead there. -/
inductive CommandEffect (s : State) : Instr → Code → State → Prop
  /-- a check fails before any effect (R132) -/
  | raised {i : Instr} {c : Code} (hcode : c ≠ .ok) (hlisted : c ∈ completionCodes i) : CommandEffect s i c s
  | nop : CommandEffect s .nop .ok s
  | zeroize : CommandEffect s .zeroize .ok s.zeroized
  | kdfLegacy (ks : KeySlot) (key : Bytes) : CommandEffect s (.kdfLegacy ks) .ok (s.setKeyBytes ks key)
  | kdfPbkdf2 (ks : KeySlot) (key : Bytes) : CommandEffect s (.kdfPbkdf2 ks) .ok (s.setKeyBytes ks key)
  /-- an encryption of a scheme past its checks -/
  | encrypted (pd : CbcPadding) (ks : KeySlot) (m : Bool) (htakes : pd.encTakes s.lenN = true)
      (hadm : s.CbcAdmitted m (s.lenN + pd.count s.lenN)) :
      CommandEffect s (pd.encCommand ks m) .ok (s.encryptionLeft pd ks m)
  /-- a decryption of a scheme past its checks, with a padding to trim -/
  | decrypted (pd : CbcPadding) (ks : KeySlot) (m : Bool) (q : Nat) (htakes : pd.decTakes s.lenN = true)
      (hadm : s.CbcAdmitted m s.lenN) :
      CommandEffect s (pd.decCommand ks m) .ok (s.decryptionLeft ks m (s.lenN - q))
  /-- a decryption whose plaintext has no padding to trim (R257) -/
  | badPadding (ks : KeySlot) (m : Bool) (htakes : CbcPadding.pkcs7.decTakes s.lenN = true)
      (hadm : s.CbcAdmitted m s.lenN) : CommandEffect s (.cbcDecPkcs7 ks m) .padding (s.decryptionLeft ks m 0)
  | macInitKs (ks : KeySlot) (h : HashAlg) :
      CommandEffect s (.macInitKs ks h) .ok { s with context := .active .hmac h (s.keyBytes ks) [] }
  | macInitBuf (h : HashAlg) (hrange : s.src.toNat + s.len.toNat ≤ s.bufBytes) :
      CommandEffect s (.macInitBuf h) .ok { s with context := .active .hmac h s.input [] }
  | hashInit (h : HashAlg) : CommandEffect s (.hashInit h) .ok { s with context := .active .hash h [] [] }
  | ctxUpdate (hactive : s.context ≠ .inactive) (hroom : s.context.msgLength + s.lenN ≤ 2 ^ 60) :
      CommandEffect s .ctxUpdate .ok { s with context := s.context.absorb s.input }
  | ctxFinal {kind : ContextKind} {h : HashAlg} {key msg : Bytes} (hcontext : s.context = .active kind h key msg) :
      CommandEffect s .ctxFinal .ok
        { s with
          result := wordsOfBytes 16
            (contextDigest kind h key msg ++ zeros (64 - (contextDigest kind h key msg).length))
          outlen := BitVec.ofNat 32 (hashOutBytes h)
          context := .inactive }
  | verified : CommandEffect s .ctxVerify .ok { s with context := .inactive }
  /-- the stored tag is not the digest (R298) -/
  | tagDiffers : CommandEffect s .ctxVerify .auth { s with context := .inactive }

/-- Command `i` completes from `s` in `t`: it takes `s` to some state with some code, and the completion writes the
flags; AUTH_OK takes a 1 from CTX_VERIFY alone (R131). -/
def Completes (s : State) (i : Instr) (t : State) : Prop :=
  ∃ c u, t = u.finish (decide (i = .ctxVerify)) c ∧ CommandEffect s i c u

/-! ### Every command completes so -/

/-- An error raised before any effect, with a code listed for the command. -/
theorem completes_of_raised {s : State} {i : Instr} {c : Code} (hcode : c ≠ .ok) (hlisted : c ∈ completionCodes i) :
    Completes s i (s.finish false c) := by
  refine ⟨c, s, ?_, .raised hcode hlisted⟩
  simp [State.finish, hcode]

/-- A command with checks completes with the code of a listed check, or as its run does. -/
theorem completes_validated {s : State} {i : Instr} {checks : List (Bool × Code)} {run : State → State}
    (hlisted : ∀ c, (true, c) ∈ checks → c ≠ .ok ∧ c ∈ completionCodes i)
    (hrun : firstFailure checks = none → Completes s i (run s)) : Completes s i (s.validated checks run) := by
  rcases s.validated_cases checks run with ⟨c, hfails, hraised⟩ | ⟨hpass, hran⟩
  · obtain ⟨hcode, hmem⟩ := hlisted c (firstFailure_mem hfails)
    exact hraised ▸ completes_of_raised hcode hmem
  · exact hran ▸ hrun hpass

/-- Checks whose codes are all listed for a command raise listed codes. -/
theorem checks_listed {i : Instr} {checks : List (Bool × Code)}
    (h : ∀ x ∈ checks, x.2 ≠ .ok ∧ x.2 ∈ completionCodes i) (c : Code) (hc : (true, c) ∈ checks) :
    c ≠ .ok ∧ c ∈ completionCodes i :=
  h (true, c) hc

/-- Operands that pass the checks of a CBC command are admitted (R244). -/
theorem State.cbcAdmitted_of_firstFailure_eq_none {s : State} {m lenBad : Bool} {out : Nat}
    (h : firstFailure (s.cbcChecks m lenBad out) = none) : lenBad = false ∧ s.CbcAdmitted m out := by
  rw [State.firstFailure_cbcChecks] at h
  split_ifs at h with hstate hlength hfull hrange hoverlap
  refine ⟨Bool.eq_false_iff.2 hlength, fun hm => ⟨fun hc => hstate ⟨hm, hc⟩, ?_⟩, hrange, hoverlap⟩
  exact Nat.not_lt.1 fun hlt => hfull ⟨hm, hlt⟩

/-- The codes the checks of a CBC command raise (R244). -/
theorem State.cbcChecks_code {s : State} {m lenBad : Bool} {out : Nat} {c : Code}
    (h : (true, c) ∈ s.cbcChecks m lenBad out) :
    (c = .ctxState ∧ m = true) ∨ (c = .length ∧ (lenBad = true ∨ m = true)) ∨ c = .range := by
  simp only [State.cbcChecks, List.mem_cons, Prod.mk.injEq, List.not_mem_nil, or_false] at h
  rcases h with ⟨hstate, rfl⟩ | ⟨hlength, rfl⟩ | ⟨hfull, rfl⟩ | ⟨-, rfl⟩ | ⟨-, rfl⟩
  · exact .inl ⟨rfl, (Bool.and_eq_true_iff.1 hstate.symm).1⟩
  · exact .inr (.inl ⟨rfl, .inl hlength.symm⟩)
  · exact .inr (.inl ⟨rfl, .inr (Bool.and_eq_true_iff.1 hfull.symm).1⟩)
  · exact .inr (.inr rfl)
  · exact .inr (.inr rfl)

/-- The checks of an encryption raise codes listed for it (R361). -/
theorem CbcPadding.encChecks_listed (pd : CbcPadding) (ks : KeySlot) {s : State} {m : Bool} {out : Nat} (c : Code)
    (h : (true, c) ∈ s.cbcChecks m (!pd.encTakes s.lenN) out) :
    c ≠ .ok ∧ c ∈ completionCodes (pd.encCommand ks m) := by
  rcases State.cbcChecks_code h with ⟨rfl, rfl⟩ | ⟨rfl, hlength⟩ | rfl
  · cases pd with
    | whole | pkcs7 | legacy => simp [encCommand, completionCodes]
  · cases pd with
    | whole => simp [encCommand, completionCodes]
    | pkcs7 | legacy =>
      obtain rfl : m = true := by simpa [encTakes] using hlength
      simp [encCommand, completionCodes]
  · cases pd with
    | whole | pkcs7 | legacy => simp [encCommand, completionCodes]

/-- The checks of a decryption raise codes listed for it (R361). -/
theorem CbcPadding.decChecks_listed (pd : CbcPadding) (ks : KeySlot) {s : State} {m lenBad : Bool} {out : Nat}
    (c : Code) (h : (true, c) ∈ s.cbcChecks m lenBad out) :
    c ≠ .ok ∧ c ∈ completionCodes (pd.decCommand ks m) := by
  rcases State.cbcChecks_code h with ⟨rfl, rfl⟩ | ⟨rfl, -⟩ | rfl
  all_goals
    cases pd with
    | whole | pkcs7 | legacy => simp [decCommand, completionCodes]

theorem CbcPadding.encCommand_ne_ctxVerify (pd : CbcPadding) (ks : KeySlot) (m : Bool) :
    pd.encCommand ks m ≠ .ctxVerify := by
  cases pd with
  | whole | pkcs7 | legacy => exact nofun

theorem CbcPadding.decCommand_ne_ctxVerify (pd : CbcPadding) (ks : KeySlot) (m : Bool) :
    pd.decCommand ks m ≠ .ctxVerify := by
  cases pd with
  | whole | pkcs7 | legacy => exact nofun

/-- A command other than CTX_VERIFY ends by a completion that leaves AUTH_OK 0 (R131). -/
theorem completes_of_effect {s u : State} {i : Instr} {c : Code} (hi : i ≠ .ctxVerify) (h : CommandEffect s i c u) :
    Completes s i (u.finish false c) := ⟨c, u, by simp [hi], h⟩

/-- An encryption command completes (R248, R254, R261). -/
theorem CbcPadding.completes_encCommand (pd : CbcPadding) (ks : KeySlot) (m : Bool) (s : State) :
    ∃ t, exec (pd.encCommand ks m) s = .next t ∧ Completes s (pd.encCommand ks m) t := by
  refine ⟨_, pd.exec_encCommand ks m s, completes_validated (pd.encChecks_listed ks) fun hpass => ?_⟩
  obtain ⟨htakes, hadm⟩ := State.cbcAdmitted_of_firstFailure_eq_none hpass
  rw [State.encrypted_eq, ← State.finish_ok]
  exact completes_of_effect (pd.encCommand_ne_ctxVerify ks m) (.encrypted pd ks m (by simpa using htakes) hadm)

/-- A decryption command completes (R251, R257, R265). -/
theorem CbcPadding.completes_decCommand (pd : CbcPadding) (ks : KeySlot) (m : Bool) (s : State) :
    ∃ t, exec (pd.decCommand ks m) s = .next t ∧ Completes s (pd.decCommand ks m) t := by
  refine ⟨_, pd.exec_decCommand ks m s, completes_validated (pd.decChecks_listed ks) fun hpass => ?_⟩
  obtain ⟨hrule, hadm⟩ := State.cbcAdmitted_of_firstFailure_eq_none hpass
  have htakes : pd.decTakes s.lenN = true := by simpa using hrule
  have hcommand := pd.decCommand_ne_ctxVerify ks m
  rw [State.decrypted]
  cases htrim : pd.trim ks s with
  | some q =>
    dsimp only
    rw [State.cbcDecrypt_setOutlen, ← State.finish_ok]
    exact completes_of_effect hcommand (.decrypted pd ks m q htakes hadm)
  | none =>
    cases pd with
    | whole | legacy => cases htrim
    | pkcs7 =>
      dsimp only
      rw [State.cbcDecrypt_setOutlen, ← State.finish_error _ (by decide)]
      exact completes_of_effect hcommand (.badPadding ks m htakes hadm)

/-- The KDF commands complete (R225, R230). -/
theorem completes_kdf (ks : KeySlot) (s : State) :
    (∃ t, exec (.kdfLegacy ks) s = .next t ∧ Completes s (.kdfLegacy ks) t) ∧
    (∃ t, exec (.kdfPbkdf2 ks) s = .next t ∧ Completes s (.kdfPbkdf2 ks) t) := by
  refine ⟨⟨_, rfl, completes_validated (checks_listed ?legacyCodes) fun _ => ?legacy⟩,
    ⟨_, rfl, completes_validated (checks_listed ?pbkdf2Codes) fun _ => ?pbkdf2⟩⟩
  case legacyCodes => simp [State.kdfChecks, completionCodes]
  case pbkdf2Codes => simp [State.kdfChecks, completionCodes]
  case legacy => exact completes_of_effect nofun (.kdfLegacy ks _)
  case pbkdf2 => exact completes_of_effect nofun (.kdfPbkdf2 ks _)

/-- MAC_INIT_BUF completes (R286). -/
theorem completes_macInitBuf (h : HashAlg) (s : State) :
    ∃ t, exec (.macInitBuf h) s = .next t ∧ Completes s (.macInitBuf h) t := by
  refine ⟨_, rfl, completes_validated (checks_listed (by simp [completionCodes])) fun hpass => ?_⟩
  have hrange : s.inputBad = false := (firstFailure_eq_none_iff _).1 hpass _ (.head _)
  exact completes_of_effect nofun (.macInitBuf h (s.inputBad_eq_false_iff.1 hrange))

/-- CTX_UPDATE completes (R290). -/
theorem completes_ctxUpdate (s : State) : ∃ t, exec .ctxUpdate s = .next t ∧ Completes s .ctxUpdate t := by
  refine ⟨_, rfl, completes_validated (checks_listed (by simp [completionCodes])) fun hpass => ?_⟩
  have hpass' := (firstFailure_eq_none_iff _).1 hpass
  have hactive : s.context.isInactive = false := hpass' _ (.head _)
  have hroom : s.contextFull s.lenN = false := hpass' _ (.tail _ (.head _))
  rw [← Bool.not_eq_true, State.contextFull_iff, Nat.not_lt] at hroom
  exact completes_of_effect nofun (.ctxUpdate (s.context.isInactive_eq_false_iff.1 hactive) hroom)

/-- CTX_FINAL completes (R293). -/
theorem completes_ctxFinal (s : State) : ∃ t, exec .ctxFinal s = .next t ∧ Completes s .ctxFinal t := by
  refine ⟨_, rfl, ?_⟩
  cases hcontext : s.context with
  | inactive => exact completes_of_raised (by decide) (by simp [completionCodes])
  | active kind h key msg =>
    dsimp only
    rw [State.setOutlen_setResultBytes, State.completeOk_eq]
    exact completes_of_effect nofun (.ctxFinal hcontext)

/-- CTX_VERIFY completes (R296, R298). -/
theorem completes_ctxVerify (s : State) : ∃ t, exec .ctxVerify s = .next t ∧ Completes s .ctxVerify t := by
  refine ⟨_, rfl, ?_⟩
  cases hcontext : s.context with
  | inactive => exact completes_of_raised (by decide) (by simp [completionCodes])
  | active kind h key msg =>
    dsimp only
    split
    case isFalse outOfRange => exact completes_of_raised (by decide) (by simp [completionCodes])
    case isTrue inRange =>
      split
      case isTrue tagMatches => exact ⟨.ok, _, rfl, .verified⟩
      case isFalse tagDiffers => exact ⟨.auth, _, rfl, .tagDiffers⟩

/-- Every command completes, with one of its effects (R131, R378). -/
theorem exec_completes (i : Instr) (s : State) : ∃ t, exec i s = .next t ∧ Completes s i t := by
  cases i with
  | nop => exact ⟨_, rfl, completes_of_effect nofun .nop⟩
  | zeroize => exact ⟨_, rfl, completes_of_effect nofun .zeroize⟩
  | kdfLegacy ks => exact (completes_kdf ks s).1
  | kdfPbkdf2 ks => exact (completes_kdf ks s).2
  | cbcEnc ks m => exact CbcPadding.whole.completes_encCommand ks m s
  | cbcDec ks m => exact CbcPadding.whole.completes_decCommand ks m s
  | cbcEncPkcs7 ks m => exact CbcPadding.pkcs7.completes_encCommand ks m s
  | cbcDecPkcs7 ks m => exact CbcPadding.pkcs7.completes_decCommand ks m s
  | cbcEncLegacy ks m => exact CbcPadding.legacy.completes_encCommand ks m s
  | cbcDecLegacy ks m => exact CbcPadding.legacy.completes_decCommand ks m s
  | macInitKs ks h => exact ⟨_, rfl, completes_of_effect nofun (.macInitKs ks h)⟩
  | macInitBuf h => exact completes_macInitBuf h s
  | hashInit h => exact ⟨_, rfl, completes_of_effect nofun (.hashInit h)⟩
  | ctxUpdate => exact completes_ctxUpdate s
  | ctxFinal => exact completes_ctxFinal s
  | ctxVerify => exact completes_ctxVerify s

theorem completes_of_exec {i : Instr} {s t : State} (h : exec i s = .next t) : Completes s i t := by
  obtain ⟨u, hu, hcompletes⟩ := exec_completes i s
  obtain rfl : u = t := Host.Outcome.next.inj (hu.symm.trans h)
  exact hcompletes

end Sys2Proof.Machine
end

section
/-! PROOFS. The obligations about every command: what it may change, the codes it completes with and the flags a
completion sets; and the engine's way back to Idle. -/

namespace Sys2Proof.Machine

/-! ### What a command may change (R105) -/

section
variable {s u : State} {i : Instr} {c : Code}

/-- No command changes the operand registers, the host's flags, BUF_BYTES, the latency count or the host. -/
theorem CommandEffect.operands_kept (h : CommandEffect s i c u) :
    u.src = s.src ∧ u.dst = s.dst ∧ u.len = s.len ∧ u.iter = s.iter ∧ u.cmdr = s.cmdr ∧ u.irqEn = s.irqEn ∧
      u.ovf = s.ovf ∧ u.bufSize = s.bufSize ∧ u.issues = s.issues ∧ u.delay = s.delay ∧ u.host = s.host := by
  cases h <;> exact ⟨rfl, rfl, rfl, rfl, rfl, rfl, rfl, rfl, rfl, rfl, rfl⟩

theorem CommandEffect.lmod_changed (h : CommandEffect s i c u) (hne : u.lmod ≠ s.lmod) :
    i = .zeroize ∨ ∃ ks m, i = .cbcEncLegacy ks m := by
  cases h with
  | zeroize => exact .inl rfl
  | encrypted pd ks m =>
    cases pd with
    | legacy => exact .inr ⟨ks, m, rfl⟩
    | whole | pkcs7 => exact absurd rfl hne
  | _ => exact absurd rfl hne

theorem CbcPadding.isCbc_encCommand (pd : CbcPadding) (ks : KeySlot) (m : Bool) :
    isCbc (pd.encCommand ks m) = true := by
  cases pd with
  | whole | pkcs7 | legacy => rfl

theorem CbcPadding.isCbc_decCommand (pd : CbcPadding) (ks : KeySlot) (m : Bool) :
    isCbc (pd.decCommand ks m) = true := by
  cases pd with
  | whole | pkcs7 | legacy => rfl

theorem CommandEffect.ivr_changed (h : CommandEffect s i c u) (hne : u.ivr ≠ s.ivr) :
    i = .zeroize ∨ isCbc i = true := by
  cases h with
  | zeroize => exact .inl rfl
  | encrypted pd ks m => exact .inr (pd.isCbc_encCommand ks m)
  | decrypted pd ks m => exact .inr (pd.isCbc_decCommand ks m)
  | badPadding ks m => exact .inr rfl
  | _ => exact absurd rfl hne

theorem CommandEffect.buf_changed (h : CommandEffect s i c u) (hne : u.buf ≠ s.buf) :
    i = .zeroize ∨ isCbc i = true := by
  cases h with
  | zeroize => exact .inl rfl
  | encrypted pd ks m => exact .inr (pd.isCbc_encCommand ks m)
  | decrypted pd ks m => exact .inr (pd.isCbc_decCommand ks m)
  | badPadding ks m => exact .inr rfl
  | _ => exact absurd rfl hne

theorem CommandEffect.result_changed (h : CommandEffect s i c u) (hne : u.result ≠ s.result) :
    i = .zeroize ∨ i = .ctxFinal := by
  cases h with
  | zeroize => exact .inl rfl
  | ctxFinal => exact .inr rfl
  | _ => exact absurd rfl hne

theorem CommandEffect.outlen_changed (h : CommandEffect s i c u) (hne : u.outlen ≠ s.outlen) :
    i = .zeroize ∨ isCbc i = true ∨ i = .ctxFinal := by
  cases h with
  | zeroize => exact .inl rfl
  | encrypted pd ks m => exact .inr (.inl (pd.isCbc_encCommand ks m))
  | decrypted pd ks m => exact .inr (.inl (pd.isCbc_decCommand ks m))
  | badPadding ks m => exact .inr (.inl rfl)
  | ctxFinal => exact .inr (.inr rfl)
  | _ => exact absurd rfl hne

/-- A write to one slot leaves the others. -/
theorem State.setKeyBytes_keys_of_ne (s : State) {ks q : KeySlot} (key : Bytes) (h : q ≠ ks) :
    (s.setKeyBytes ks key).keys[q] = s.keys[q] :=
  Vector.getElem_set_ne ks.isLt q.isLt fun e => h (Fin.ext e.symm)

theorem CommandEffect.slot_changed (h : CommandEffect s i c u) {q : KeySlot} (hne : u.keys[q] ≠ s.keys[q]) :
    i = .zeroize ∨ i = .kdfLegacy q ∨ i = .kdfPbkdf2 q := by
  cases h with
  | zeroize => exact .inl rfl
  | kdfLegacy ks key =>
    obtain rfl : q = ks := not_imp_comm.1 (s.setKeyBytes_keys_of_ne key) hne
    exact .inr (.inl rfl)
  | kdfPbkdf2 ks key =>
    obtain rfl : q = ks := not_imp_comm.1 (s.setKeyBytes_keys_of_ne key) hne
    exact .inr (.inr rfl)
  | _ => exact absurd rfl hne

theorem CbcPadding.writesContext_encCommand (pd : CbcPadding) (ks : KeySlot) (m : Bool) :
    writesContext (pd.encCommand ks m) = m := by
  cases pd with
  | whole | pkcs7 | legacy => rfl

theorem CbcPadding.writesContext_decCommand (pd : CbcPadding) (ks : KeySlot) (m : Bool) :
    writesContext (pd.decCommand ks m) = m := by
  cases pd with
  | whole | pkcs7 | legacy => rfl

theorem CommandEffect.context_changed (h : CommandEffect s i c u) (hne : u.context ≠ s.context) :
    writesContext i = true := by
  cases h with
  | raised | nop | kdfLegacy | kdfPbkdf2 => exact absurd rfl hne
  | encrypted pd ks m =>
    rw [pd.writesContext_encCommand]
    cases m with
    | false => exact absurd rfl hne
    | true => rfl
  | decrypted pd ks m =>
    rw [pd.writesContext_decCommand]
    cases m with
    | false => exact absurd rfl hne
    | true => rfl
  | badPadding ks m =>
    cases m with
    | false => exact absurd rfl hne
    | true => rfl
  | zeroize | macInitKs | macInitBuf | hashInit | ctxUpdate | ctxFinal | verified | tagDiffers => rfl

/-- The code of every end of a command is listed for it (R361). -/
theorem CommandEffect.code_listed (h : CommandEffect s i c u) : c ∈ completionCodes i := by
  cases h with
  | raised _ hlisted => exact hlisted
  | encrypted pd ks m =>
    cases pd with
    | whole | pkcs7 | legacy => simp [CbcPadding.encCommand, completionCodes]
  | decrypted pd ks m =>
    cases pd with
    | whole | pkcs7 | legacy => simp [CbcPadding.decCommand, completionCodes]
  | _ => simp [completionCodes]

end

/-- Settles O29: a completion writes ERRCODE, the flags and the phase alone, and each element changes in the ends that
write it. -/
theorem onlyListedStateWritten : Obligations.OnlyListedStateWritten := by
  unfold Obligations.OnlyListedStateWritten
  intro i s t hexec
  obtain ⟨c, u, rfl, heffect⟩ := completes_of_exec hexec
  exact ⟨heffect.operands_kept, heffect.lmod_changed, heffect.ivr_changed, fun _ => heffect.slot_changed,
    heffect.context_changed, heffect.buf_changed, heffect.result_changed, heffect.outlen_changed⟩

/-- ERRCODE as a word, code by code (R361). -/
theorem State.busRead_errcode_value (s : State) :
    s.busRead (.window 0x0010#16) .w4 = ⟨false, s.errcode.toByte.zeroExtend 32⟩ := s.busRead_errcode

/-- Settles O32: every end of a command has a listed code, and ERRCODE reads as the number of its code. -/
theorem codesPerCommand : Obligations.CodesPerCommand := by
  unfold Obligations.CodesPerCommand
  refine ⟨fun i s t hexec => ?_, fun s => ?_⟩
  · obtain ⟨c, u, rfl, heffect⟩ := completes_of_exec hexec
    exact heffect.code_listed
  · rw [s.busRead_errcode_value]
    cases s.errcode <;> rfl

/-! ### Completing steps (R131) -/

/-- The step at the engine's turn completes a command or an illegal word. -/
theorem step_completes {s t : State} (hturn : s.engineTurn = true) (hstep : step s = .next t) :
    (∃ i, decode s.cmdr = some i ∧ Completes s i t) ∨ (decode s.cmdr = none ∧ t = s.finish false .illegal) := by
  rcases step_cases hstep with ⟨-, i, hdecode, hexec⟩ | ⟨-, hnone, rfl⟩ | ⟨hhost, -⟩
  · exact .inl ⟨i, hdecode, completes_of_exec hexec⟩
  · exact .inr ⟨hnone, rfl⟩
  · rw [hhost] at hturn
    cases hturn

/-- The step at the engine's turn ends in a completion with some code; AUTH_OK follows CTX_VERIFY, IRQ_EN stays. -/
theorem step_finishes {s t : State} (hturn : s.engineTurn = true) (hstep : step s = .next t) :
    ∃ (c : Code) (u : State), t = u.finish (decide (decode s.cmdr = some .ctxVerify)) c ∧
      u.irqEn = s.irqEn ∧ u.ovf = s.ovf := by
  rcases step_completes hturn hstep with ⟨i, hdecode, c, u, rfl, heffect⟩ | ⟨hnone, rfl⟩
  · obtain ⟨-, -, -, -, -, hirq, hovf, -⟩ := heffect.operands_kept
    exact ⟨c, u, by simp only [hdecode, Option.some.injEq], hirq, hovf⟩
  · exact ⟨.illegal, s, by simp [hnone], rfl, rfl⟩

/-- Settles O30: the completing step is a completion with a code, and that sets the flags. -/
theorem completionFlags : Obligations.CompletionFlags := by
  unfold Obligations.CompletionFlags
  intro s t hphase hdelay hstep
  obtain ⟨c, u, rfl, -⟩ := step_finishes (s.engineTurn_iff.2 ⟨hphase, hdelay⟩) hstep
  simp

/-! ### The way back to Idle (R378) -/

/-- Every state has a next state. -/
theorem step_next (s : State) : ∃ t, step s = .next t := by
  by_cases hturn : s.phase = .busy ∧ s.delay = 0
  · rw [step_of_turn hturn.1 hturn.2]
    cases hdecode : decode s.cmdr with
    | some i =>
      rw [completion_of_decode hdecode]
      exact exec_next i s
    | none =>
      rw [← step_of_turn hturn.1 hturn.2]
      exact ⟨_, step_of_illegal hturn.1 hturn.2 hdecode⟩
  · exact ⟨_, step_of_not_turn hturn⟩

/-- A write of CTRL leaves the phase and the delay, or resets the engine. -/
theorem State.writeCtrl_phase (s : State) (v : Word) :
    (s.writeCtrl v).phase = .idle ∨ ((s.writeCtrl v).phase = s.phase ∧ (s.writeCtrl v).delay = s.delay) := by
  unfold State.writeCtrl
  split
  · exact .inl rfl
  · exact .inr ⟨rfl, rfl⟩

/-- A host step while Busy ends in Idle or brings the completion one step nearer. -/
theorem hostStep_of_busy {s : State} (hbusy : s.phase = .busy) :
    (hostStep s).phase = .idle ∨ ((hostStep s).phase = .busy ∧ (hostStep s).delay = s.delay - 1) := by
  have heffect := hostStep_effect s
  generalize hostStep s = t at heffect ⊢
  cases heffect with
  | kept h => exact .inr ⟨hbusy, rfl⟩
  | dropped h => exact .inr ⟨hbusy, rfl⟩
  | stored h hprogram hregion haligned hunlocked =>
    rcases hunlocked hbusy with rfl | rfl
    · exact (s.counted.writeCtrl_phase _).imp_right fun hkept => ⟨hkept.1.trans hbusy, hkept.2⟩
    · exact .inr ⟨hbusy, rfl⟩
  | storedBuf h hidle => rw [hbusy] at hidle; cases hidle
  | reset h => exact .inl rfl

/-- A run begins with its first step. -/
theorem run_succ_of_step {s t : State} (h : step s = .next t) (n : Nat) :
    Sys2Proof.core.run (n + 1) s = Sys2Proof.core.run n t := by
  have hstep : Sys2Proof.core.step s = .next t := h
  simp only [Host.Core.run, hstep]

/-- The phase is Idle within `delay + 1` steps (log entry 3). -/
theorem run_reaches_idle (d : Nat) {s : State} (hdelay : s.delay = d) :
    ∃ (n : Nat) (t : State), n ≤ d + 1 ∧ Sys2Proof.core.run n s = .next t ∧ t.phase = .idle := by
  induction d generalizing s with
  | zero =>
    cases hphase : s.phase with
    | idle => exact ⟨0, s, Nat.zero_le _, rfl, hphase⟩
    | busy =>
      obtain ⟨t, hstep⟩ := step_next s
      obtain ⟨c, u, rfl, -⟩ := step_finishes (s.engineTurn_iff.2 ⟨hphase, hdelay⟩) hstep
      exact ⟨1, _, le_refl _, run_succ_of_step hstep 0, u.finish_phase _ c⟩
  | succ d ih =>
    cases hphase : s.phase with
    | idle => exact ⟨0, s, Nat.zero_le _, rfl, hphase⟩
    | busy =>
      have hstep : step s = .next (hostStep s) := step_of_not_turn fun h => by omega
      rcases hostStep_of_busy hphase with hidle | ⟨-, hcounted⟩
      · exact ⟨1, hostStep s, by omega, run_succ_of_step hstep 0, hidle⟩
      · obtain ⟨n, t, hn, hrun, hidle⟩ := ih (s := hostStep s) (by omega)
        exact ⟨n + 1, t, by omega, (run_succ_of_step hstep n).trans hrun, hidle⟩

/-- Settles O8: by waiting, by the reset, and every state has a next state. -/
theorem noStuckState : Obligations.NoStuckState := by
  unfold Obligations.NoStuckState
  refine fun s => ⟨run_reaches_idle s.delay rfl, fun v hreset => ?_, step_next s⟩
  rw [State.busWrite_ctrl, s.writeCtrl_reset hreset]
  rfl

end Sys2Proof.Machine
end

section
/-! PROOFS. The obligations about single steps over the flags, irq and the context: each effect of a host step is known
by its statement, and each effect of a completion by its command (10_state.md R33 to R36, R51;
45_context_commands.md R281). -/

namespace Sys2Proof.Machine

/-! ### The flags after a host step -/

/-- The states agree in the flags, ERRCODE, CMDR, the context and the phase. -/
structure SameFlags (s t : State) : Prop where
  irqEn : t.irqEn = s.irqEn
  done : t.done = s.done
  err : t.err = s.err
  authOk : t.authOk = s.authOk
  ovf : t.ovf = s.ovf
  errcode : t.errcode = s.errcode
  cmdr : t.cmdr = s.cmdr
  context : t.context = s.context
  phase : t.phase = s.phase

theorem SameFlags.refl (s : State) : SameFlags s s := ⟨rfl, rfl, rfl, rfl, rfl, rfl, rfl, rfl, rfl⟩

theorem SameFlags.irq {s t : State} (h : SameFlags s t) : t.irq = s.irq := by
  rw [State.irq, State.irq, h.irqEn, h.done]

/-- Neither the delay nor the host agent is a flag. -/
theorem SameFlags.counted {s t : State} {h : HostAgent} (same : SameFlags s t) :
    SameFlags s (t.counted.withHost h) :=
  ⟨same.irqEn, same.done, same.err, same.authOk, same.ovf, same.errcode, same.cmdr, same.context, same.phase⟩

/-- Only its own offset names CMD. -/
theorem regAt_eq_cmd (n : Nat) : regAt n = .cmd ↔ n = 5 := by
  by_cases h : 12 ≤ n
  · refine ⟨fun e => ?_, fun e => by omega⟩
    have hlocked := (regAt_locked n h).1
    rw [e] at hlocked
    cases hlocked
  · have h' : n < 12 := by omega
    clear h
    revert n
    decide

/-- Writes to CTRL, STATUS and CMD have their effects; a write to another register leaves the flags. -/
theorem State.regWrite_sameFlags (s : State) {r : Reg} (v : Word) (hctrl : r ≠ .ctrl) (hstatus : r ≠ .status)
    (hcmd : r ≠ .cmd) : SameFlags s (s.regWrite r v) := by
  cases r with
  | ctrl => exact absurd rfl hctrl
  | status => exact absurd rfl hstatus
  | cmd => exact absurd rfl hcmd
  | _ => exact ⟨rfl, rfl, rfl, rfl, rfl, rfl, rfl, rfl, rfl⟩

/-- The flags after a host step, with the statement that changes them. -/
inductive HostFlags (s t : State) : Prop
  | kept (same : SameFlags s t)
  | dropped {a : BitVec 16} {w : Width} {v : Word} {rest : List HostStmt} (hbusy : s.phase = .busy)
      (hprogram : s.host.program = .wr (.window a) w v :: rest) (hlegal : legalAccess a w = true)
      (hlocked : a.toNat ∉ [0x0008, 0x000C]) (same : SameFlags s.dropWrite t)
  | ctrl {v : Word} {rest : List HostStmt} (hprogram : s.host.program = .wr (.window 0x0008#16) .w4 v :: rest)
      (same : SameFlags (s.writeCtrl v) t)
  | status {v : Word} {rest : List HostStmt} (hprogram : s.host.program = .wr (.window 0x000C#16) .w4 v :: rest)
      (same : SameFlags (s.clearStatus v) t)
  | issued {v : Word} {rest : List HostStmt} (hidle : s.phase = .idle)
      (hprogram : s.host.program = .wr (.window 0x0014#16) .w4 v :: rest) (same : SameFlags (s.issue v) t)
  | reset {rest : List HostStmt} (hprogram : s.host.program = .powerOnReset :: rest)
      (same : SameFlags s.resetEngine t)

/-- A write of CTRL looks at neither the delay nor the host. -/
theorem State.writeCtrl_counted_sameFlags (s : State) (v : Word) (h : HostAgent) :
    SameFlags (s.writeCtrl v) ((s.counted.writeCtrl v).withHost h) := by
  unfold State.writeCtrl
  split <;> exact ⟨rfl, rfl, rfl, rfl, rfl, rfl, rfl, rfl, rfl⟩

/-- The flags after a write to the register at a word-aligned offset. -/
theorem hostFlags_of_stored {s : State} {a : BitVec 16} {v : Word} {rest : List HostStmt} (h : HostAgent)
    (hprogram : s.host.program = .wr (.window a) .w4 v :: rest) (haligned : a.toNat % 4 = 0)
    (hunlocked : s.phase = .busy → a = 0x0008#16 ∨ a = 0x000C#16) :
    HostFlags s ((s.counted.regWrite (regAt (a.toNat / 4)) v).withHost h) := by
  have offset {n : Nat} (hreg : a.toNat / 4 = n) (hn : 4 * n < 2 ^ 16) : a = BitVec.ofNat 16 (4 * n) :=
    BitVec.eq_of_toNat_eq (by rw [BitVec.toNat_ofNat, Nat.mod_eq_of_lt hn]; omega)
  by_cases hctrl : regAt (a.toNat / 4) = .ctrl
  · obtain rfl := offset ((regAt_eq_ctrl _).1 hctrl) (by decide)
    exact .ctrl hprogram (s.writeCtrl_counted_sameFlags v h)
  by_cases hstatus : regAt (a.toNat / 4) = .status
  · obtain rfl := offset ((regAt_eq_status _).1 hstatus) (by decide)
    exact .status hprogram ⟨rfl, rfl, rfl, rfl, rfl, rfl, rfl, rfl, rfl⟩
  by_cases hcmd : regAt (a.toNat / 4) = .cmd
  · obtain rfl := offset ((regAt_eq_cmd _).1 hcmd) (by decide)
    refine .issued ?_ hprogram ⟨rfl, rfl, rfl, rfl, rfl, rfl, rfl, rfl, rfl⟩
    cases hphase : s.phase with
    | idle => rfl
    | busy => exact absurd (hunlocked hphase) (by decide)
  · obtain ⟨hirq, hdone, herr, hauth, hovf, hcode, hcmdr, hcontext, hphase⟩ :=
      s.counted.regWrite_sameFlags v hctrl hstatus hcmd
    exact .kept ⟨hirq, hdone, herr, hauth, hovf, hcode, hcmdr, hcontext, hphase⟩

/-- Every host step changes the flags in one of these ways. -/
theorem hostStep_flags (s : State) : HostFlags s (hostStep s) := by
  have heffect := hostStep_effect s
  generalize hostStep s = t at heffect ⊢
  cases heffect with
  | kept h => exact .kept (SameFlags.refl s).counted
  | dropped h hbusy hprogram hlegal hlocked =>
    exact .dropped hbusy hprogram hlegal hlocked (SameFlags.refl s.dropWrite).counted
  | stored h hprogram hregion haligned hunlocked => exact hostFlags_of_stored h hprogram haligned hunlocked
  | storedBuf h =>
    rw [State.bufStore_eq]
    exact .kept ⟨rfl, rfl, rfl, rfl, rfl, rfl, rfl, rfl, rfl⟩
  | reset h hprogram => exact .reset hprogram ⟨rfl, rfl, rfl, rfl, rfl, rfl, rfl, rfl, rfl⟩

/-- A write of CTRL either resets the engine or sets IRQ_EN. -/
theorem State.writeCtrl_cases (s : State) (v : Word) :
    (v.getLsbD 1 = true ∧ s.writeCtrl v = s.resetEngine) ∨
    (v.getLsbD 1 = false ∧ s.writeCtrl v = { s with irqEn := v.getLsbD 0 }) := by
  cases h : v.getLsbD 1 with
  | true => exact .inl ⟨rfl, s.writeCtrl_reset h⟩
  | false => exact .inr ⟨rfl, s.writeCtrl_irqEn h⟩

/-- Whose step it is: a completion, or a host step with its flags. -/
theorem step_turn_cases {s t : State} (hstep : step s = .next t) :
    s.engineTurn = true ∨ (s.engineTurn = false ∧ t = hostStep s ∧ HostFlags s t) := by
  rcases step_cases hstep with ⟨hturn, -⟩ | ⟨hturn, -⟩ | ⟨hturn, rfl⟩
  · exact .inl hturn
  · exact .inl hturn
  · exact .inr ⟨hturn, rfl, hostStep_flags s⟩

/-! ### OVF (R35) -/

/-- A bit that keeps its value has no edge. -/
theorem no_edge_of_kept {x : Bool} {P Q : Prop} : (x = false → x = true → P) ∧ (x = true → x = false → Q) := by
  cases x <;> exact ⟨nofun, nofun⟩

/-- Settles O25: a completion leaves OVF, and of the host's steps only a dropped write sets it. -/
theorem ovfSticky : Obligations.OvfSticky := by
  unfold Obligations.OvfSticky
  intro s t hstep
  rcases step_turn_cases hstep with hturn | ⟨-, -, hflags⟩
  · obtain ⟨c, u, rfl, -, hovf⟩ := step_finishes hturn hstep
    have hkept : (u.finish (decide (decode s.cmdr = some .ctxVerify)) c).ovf = s.ovf := hovf
    rw [hkept]
    exact no_edge_of_kept
  · cases hflags with
    | kept same =>
      rw [same.ovf]
      exact no_edge_of_kept
    | dropped hbusy hprogram hlegal hlocked same =>
      exact ⟨fun _ _ => ⟨hbusy, _, _, _, _, hprogram, hlegal, hlocked⟩, fun _ h0 => by simp [same.ovf] at h0⟩
    | ctrl hprogram same =>
      rw [same.ovf]
      rcases s.writeCtrl_cases _ with ⟨hreset, hwrite⟩ | ⟨-, hwrite⟩
      · rw [hwrite]
        exact ⟨fun _ h1 => by simp at h1, fun _ _ => .inr (.inl ⟨_, _, hprogram, hreset⟩)⟩
      · rw [hwrite]
        exact no_edge_of_kept
    | @status v rest hprogram same =>
      rw [same.ovf, State.clearStatus_ovf]
      exact ⟨fun h0 h1 => by simp [h0] at h1, fun h1 h0 => .inl ⟨v, rest, hprogram, by simpa [h1] using h0⟩⟩
    | issued hidle hprogram same =>
      rw [same.ovf, State.issue_ovf]
      exact no_edge_of_kept
    | reset hprogram same =>
      exact ⟨fun _ h1 => by simp [same.ovf] at h1, fun _ _ => .inr (.inr ⟨_, hprogram⟩)⟩

/-! ### irq (R51) -/

theorem State.irq_iff (s : State) : s.irq = true ↔ s.irqEn = true ∧ s.done = true := by
  rw [State.irq, Bool.and_eq_true]

/-- A completion leaves irq at IRQ_EN (R366). -/
theorem irq_of_completion {s t : State} (hturn : s.engineTurn = true) (hstep : step s = .next t) :
    t.irq = s.irqEn := by
  obtain ⟨c, u, rfl, hirq, -⟩ := step_finishes hturn hstep
  rw [← hirq]
  exact Bool.and_true u.irqEn

/-- irq after a write of CTRL, of STATUS, of CMD while Idle, or a power-on reset, by the statement. -/
theorem hostStep_irq (s : State) :
    (∀ v rest, s.host.program = .wr (.window 0x0008#16) .w4 v :: rest →
      (hostStep s).irq = (!v.getLsbD 1 && v.getLsbD 0 && s.done)) ∧
    (∀ v rest, s.host.program = .wr (.window 0x000C#16) .w4 v :: rest →
      (hostStep s).irq = (s.irqEn && (s.done && !v.getLsbD 1))) ∧
    (∀ v rest, s.phase = .idle → s.host.program = .wr (.window 0x0014#16) .w4 v :: rest →
      (hostStep s).irq = false) ∧
    (∀ rest, s.host.program = .powerOnReset :: rest → (hostStep s).irq = false) := by
  refine ⟨fun v rest hprogram => ?ctrl, fun v rest hprogram => ?status, fun v rest hidle hprogram => ?cmd,
    fun rest hprogram => ?reset⟩
  case ctrl =>
    obtain ⟨h, hstep⟩ := hostStep_of_wr hprogram
    rw [hstep, State.busWrite_ctrl]
    rcases s.counted.writeCtrl_cases v with ⟨hreset, hwrite⟩ | ⟨hkept, hwrite⟩
    · rw [hwrite, hreset]
      rfl
    · rw [hwrite, hkept]
      rfl
  case status =>
    obtain ⟨h, hstep⟩ := hostStep_of_wr hprogram
    rw [hstep, State.busWrite_status]
    rfl
  case cmd =>
    obtain ⟨h, hstep⟩ := hostStep_of_wr hprogram
    rw [hstep, State.busWrite_cmd_of_idle (s := s.counted) hidle]
    exact Bool.and_false s.irqEn
  case reset =>
    obtain ⟨h, hstep⟩ := hostStep_of_powerOnReset hprogram
    rw [hstep]
    rfl

/-- A host step raises irq only by setting IRQ_EN while DONE is 1. -/
theorem irq_raised_by_host {s t : State} (hflags : HostFlags s t) (hlow : s.irq = false) (hhigh : t.irq = true) :
    s.done = true ∧ ∃ v rest, s.host.program = .wr (.window 0x0008#16) .w4 v :: rest ∧
      v.getLsbD 0 = true ∧ v.getLsbD 1 = false := by
  cases hflags with
  | kept same => rw [same.irq, hlow] at hhigh; cases hhigh
  | dropped _ _ _ _ same => exact absurd (same.irq.symm.trans hhigh) (by simpa [State.irq] using hlow)
  | ctrl hprogram same =>
    rw [same.irq] at hhigh
    rcases s.writeCtrl_cases _ with ⟨-, hwrite⟩ | ⟨hkept, hwrite⟩
    · rw [hwrite] at hhigh
      cases hhigh
    · rw [hwrite] at hhigh
      obtain ⟨hset, hdone⟩ := (State.irq_iff _).1 hhigh
      exact ⟨hdone, _, _, hprogram, hset, hkept⟩
  | status _ same =>
    obtain ⟨hirq, hdone⟩ := (State.irq_iff _).1 (same.irq.symm.trans hhigh)
    have hsaved : s.done = true := (Bool.and_eq_true_iff.1 hdone).1
    rw [(s.irq_iff).2 ⟨hirq, hsaved⟩] at hlow
    cases hlow
  | issued _ _ same => exact absurd ((State.irq_iff _).1 (same.irq.symm.trans hhigh)).2 (by simp)
  | reset _ same => exact absurd ((State.irq_iff _).1 (same.irq.symm.trans hhigh)).2 (by simp)

/-- A host step makes irq fall only by clearing DONE or IRQ_EN, by an issue or by a reset. -/
theorem irq_lowered_by_host {s t : State} (hflags : HostFlags s t) (hhigh : s.irq = true) (hlow : t.irq = false) :
    (∃ v rest, s.host.program = .wr (.window 0x000C#16) .w4 v :: rest ∧ v.getLsbD 1 = true) ∨
    (∃ v rest, s.host.program = .wr (.window 0x0008#16) .w4 v :: rest ∧
      (v.getLsbD 0 = false ∨ v.getLsbD 1 = true)) ∨
    (s.phase = .idle ∧ ∃ v rest, s.host.program = .wr (.window 0x0014#16) .w4 v :: rest) ∨
    (∃ rest, s.host.program = .powerOnReset :: rest) := by
  obtain ⟨hirq, hdone⟩ := s.irq_iff.1 hhigh
  cases hflags with
  | kept same => rw [same.irq, hhigh] at hlow; cases hlow
  | dropped _ _ _ _ same => exact absurd (same.irq.symm.trans hlow) (by simpa [State.irq] using hhigh)
  | @ctrl v rest hprogram same =>
    rw [same.irq] at hlow
    rcases s.writeCtrl_cases v with ⟨hreset, -⟩ | ⟨-, hwrite⟩
    · exact .inr (.inl ⟨v, rest, hprogram, .inr hreset⟩)
    · have hclear : (v.getLsbD 0 && s.done) = false := by rwa [hwrite] at hlow
      exact .inr (.inl ⟨v, rest, hprogram, .inl (by simpa [hdone] using hclear)⟩)
  | @status v rest hprogram same =>
    have hclear : (s.irqEn && (s.done && !v.getLsbD 1)) = false := same.irq.symm.trans hlow
    exact .inl ⟨v, rest, hprogram, by simpa [hirq, hdone] using hclear⟩
  | issued hidle hprogram _ => exact .inr (.inr (.inl ⟨hidle, _, _, hprogram⟩))
  | reset hprogram _ => exact .inr (.inr (.inr ⟨_, hprogram⟩))

/-- Settles O26: a completion sets irq to IRQ_EN; over a host step each edge has its statement, and each of these
statements makes its edge. -/
theorem irqEdges : Obligations.IrqEdges := by
  unfold Obligations.IrqEdges
  refine ⟨State.irq_iff, fun s t hstep => ?_⟩
  rcases step_turn_cases hstep with hturn | ⟨hturn, rfl, hflags⟩
  · rw [irq_of_completion hturn hstep]
    refine ⟨fun _ => ?_, fun hhigh => ?_⟩
    · simp [hturn]
    · simp [hturn, (s.irq_iff.1 hhigh).1]
  · obtain ⟨hctrl, hstatus, hcmd, hreset⟩ := hostStep_irq s
    simp only [hturn, Bool.false_eq_true, false_and, false_or, true_and]
    refine ⟨fun hlow => ⟨irq_raised_by_host hflags hlow, ?raises⟩,
      fun hhigh => ⟨irq_lowered_by_host hflags hhigh, ?lowers⟩⟩
    case raises =>
      rintro ⟨hdone, v, rest, hprogram, hset, hkept⟩
      rw [hctrl v rest hprogram, hset, hkept, hdone]
      rfl
    case lowers =>
      rintro (⟨v, rest, hprogram, hclear⟩ | ⟨v, rest, hprogram, hclear⟩ | ⟨hidle, v, rest, hprogram⟩ | ⟨rest, hprogram⟩)
      · simp [hstatus v rest hprogram, hclear]
      · rcases hclear with hclear | hclear
        · rw [hctrl v rest hprogram, hclear, Bool.and_false, Bool.false_and]
        · rw [hctrl v rest hprogram, hclear, Bool.not_true, Bool.false_and, Bool.false_and]
      · exact hcmd v rest hidle hprogram
      · exact hreset rest hprogram

/-! ### AUTH_OK (R33) -/

/-- No host step sets AUTH_OK. -/
theorem HostFlags.authOk {s t : State} (hflags : HostFlags s t) (h : t.authOk = true) : s.authOk = true := by
  cases hflags with
  | kept same | dropped _ _ _ _ same | status _ same => exact same.authOk.symm.trans h
  | ctrl _ same =>
    have hwritten := same.authOk.symm.trans h
    rcases s.writeCtrl_cases _ with ⟨-, hwrite⟩ | ⟨-, hwrite⟩
    · rw [hwrite] at hwritten
      cases hwritten
    · rwa [hwrite] at hwritten
  | issued _ _ same => exact absurd (same.authOk.symm.trans h) (by simp)
  | reset _ same => exact absurd (same.authOk.symm.trans h) (by simp)

/-- Settles O27: no host step sets AUTH_OK, and a completion sets it for CTX_VERIFY with OK alone. -/
theorem authOkOnlyByVerify : Obligations.AuthOkOnlyByVerify := by
  unfold Obligations.AuthOkOnlyByVerify
  intro s t hstep hclear hset
  rcases step_turn_cases hstep with hturn | ⟨-, -, hflags⟩
  · obtain ⟨c, u, rfl, -⟩ := step_finishes hturn hstep
    rw [State.finish_authOk, Bool.and_eq_true, decide_eq_true_eq, beq_iff_eq] at hset
    exact ⟨hturn, hset⟩
  · rw [hflags.authOk hset] at hclear
    cases hclear

/-! ### The context (R281) -/

/-- Absorbing makes no context Active and none Inactive. -/
theorem Context.absorb_eq_inactive_iff (c : Context) (bs : Bytes) : c.absorb bs = .inactive ↔ c = .inactive := by
  rw [← Context.isInactive_iff, Context.absorb_isInactive, Context.isInactive_iff]

/-- The MAC feed makes no context Active and none Inactive (R243). -/
theorem Context.feed_eq_inactive_iff (c : Context) (m : Bool) (bs : Bytes) :
    (if m then c.absorb bs else c) = .inactive ↔ c = .inactive := by
  cases m with
  | false => exact Iff.rfl
  | true => exact c.absorb_eq_inactive_iff bs

/-- The context after a command: an init command makes it Active, three commands may make it Inactive, and after every
other end it is Active exactly if it was before. -/
theorem CommandEffect.context_lifetime {s u : State} {i : Instr} {c : Code} (h : CommandEffect s i c u) :
    isInit i = true ∨ (u.context = .inactive ∧ some i ∈ [some .ctxFinal, some .ctxVerify, some Instr.zeroize]) ∨
      (u.context = .inactive ↔ s.context = .inactive) := by
  cases h with
  | macInitKs | macInitBuf | hashInit => exact .inl rfl
  | zeroize | ctxFinal | verified | tagDiffers => exact .inr (.inl ⟨rfl, by simp⟩)
  | raised | nop | kdfLegacy | kdfPbkdf2 => exact .inr (.inr Iff.rfl)
  | encrypted | decrypted | badPadding => exact .inr (.inr (Context.feed_eq_inactive_iff _ _ _))
  | ctxUpdate => exact .inr (.inr (Context.absorb_eq_inactive_iff _ _))

/-- An init command leaves the context Active, or as it was if a check failed. -/
theorem CommandEffect.init_context {s u : State} {i : Instr} {c : Code} (h : CommandEffect s i c u)
    (hinit : isInit i = true) : u.context = s.context ∨ u.context ≠ .inactive := by
  cases h with
  | raised => exact .inl rfl
  | macInitKs | macInitBuf | hashInit => exact .inr nofun
  | encrypted pd => cases pd <;> cases hinit
  | decrypted pd => cases pd <;> cases hinit
  | _ => cases hinit

/-- A host step leaves the context or resets the engine. -/
theorem HostFlags.context {s t : State} (hflags : HostFlags s t) :
    t.context = s.context ∨ (t.context = .inactive ∧
      ((∃ v rest, s.host.program = .wr (.window 0x0008#16) .w4 v :: rest ∧ v.getLsbD 1 = true) ∨
        (∃ rest, s.host.program = .powerOnReset :: rest))) := by
  cases hflags with
  | kept same | dropped _ _ _ _ same | status _ same | issued _ _ same => exact .inl same.context
  | ctrl hprogram same =>
    rcases s.writeCtrl_cases _ with ⟨hreset, hwrite⟩ | ⟨-, hwrite⟩
    · exact .inr ⟨same.context.trans (by rw [hwrite]; rfl), .inl ⟨_, _, hprogram, hreset⟩⟩
    · exact .inl (same.context.trans (by rw [hwrite]))
  | reset hprogram same => exact .inr ⟨same.context, .inr ⟨_, hprogram⟩⟩

/-- Settles O28: commands by the three kinds of `CommandEffect.context_lifetime`, illegal words and host steps by what
they leave. -/
theorem contextLifetime : Obligations.ContextLifetime := by
  unfold Obligations.ContextLifetime
  intro s t hstep
  rcases step_turn_cases hstep with hturn | ⟨hturn, -, hflags⟩
  · refine ⟨?starts, ?ends, fun hhost => absurd hturn (by simp [hhost])⟩
    all_goals
      rcases step_completes hturn hstep with ⟨i, hdecode, c, u, rfl, heffect⟩ | ⟨-, rfl⟩
    case starts.inl =>
      intro hbefore hafter
      refine ⟨hturn, i, hdecode, ?_⟩
      rcases heffect.context_lifetime with hinit | ⟨hended, -⟩ | hsame
      · exact hinit
      · exact absurd hended hafter
      · exact absurd (hsame.2 hbefore) hafter
    case starts.inr => exact fun hbefore hafter => absurd hbefore hafter
    case ends.inl =>
      intro hbefore hafter
      refine .inl ⟨hturn, ?_⟩
      rcases heffect.context_lifetime with hinit | ⟨-, hmem⟩ | hsame
      · rcases heffect.init_context hinit with hkept | hactive
        · exact absurd (hkept.symm.trans hafter) hbefore
        · exact absurd hafter hactive
      · exact hdecode ▸ hmem
      · exact absurd (hsame.1 hafter) hbefore
    case ends.inr => exact fun hbefore hafter => absurd hafter hbefore
  · rcases hflags.context with hkept | ⟨hended, hstatement⟩
    · rw [hkept]
      exact ⟨fun hbefore hafter => absurd hbefore hafter, fun hbefore hafter => absurd hafter hbefore,
        fun _ => .inl rfl⟩
    · exact ⟨fun _ hafter => absurd hended hafter, fun _ _ => .inr hstatement, fun _ => .inr hended⟩

end Sys2Proof.Machine
end

section
/-! PROOFS. The obligations about the invariant of the engine: the state after reset has it, and every effect of a host
step and of a completion keeps it. -/

namespace Sys2Proof.Machine

/-! ### The part of the invariant about data -/

/-- The clauses of the invariant about BUF, the context and OUTLEN. -/
structure DataInv (s : State) : Prop where
  bufCanonical : s.buf.wf = true
  bufInside : s.buf.below s.bufBytes = true
  contextBounded : s.context.msgLength ≤ 2 ^ 60
  contextKey : s.context.keyLegal s.bufBytes
  outlenBounded : s.outlen.toNat ≤ s.bufBytes

theorem EngineInv.data {s : State} (h : EngineInv s) : DataInv s :=
  ⟨h.bufCanonical, h.bufInside, h.contextBounded, h.contextKey, h.outlenBounded⟩

/-- The data clauses look at BUF, BUF_BYTES, the context and OUTLEN alone. -/
theorem DataInv.congr {s t : State} (hs : DataInv s) (hbuf : t.buf = s.buf) (hsize : t.bufSize = s.bufSize)
    (hcontext : t.context = s.context) (houtlen : t.outlen = s.outlen) : DataInv t := by
  have hbytes : t.bufBytes = s.bufBytes := congrArg BufSize.bytes hsize
  obtain ⟨hwf, hbelow, hmsg, hkey, hout⟩ := hs
  constructor <;> simpa only [hbuf, hbytes, hcontext, houtlen]

/-- BUF holds at least 4096 bytes (R7). -/
theorem State.bufBytes_ge (s : State) : 4096 ≤ s.bufBytes := by
  rw [State.bufBytes]
  cases s.bufSize <;> decide

/-- Cleared BUF, context and OUTLEN have the data clauses. -/
theorem dataInv_of_cleared {s : State} (hbuf : s.buf = []) (hcontext : s.context = .inactive)
    (houtlen : s.outlen = 0#32) : DataInv s := by
  constructor
  · rw [hbuf]; rfl
  · rw [hbuf]; rfl
  · rw [hcontext]; exact Nat.zero_le _
  · rw [hcontext]; trivial
  · rw [houtlen]; exact Nat.zero_le _

/-! ### The data clauses over a command -/

section
variable {s : State}

/-- A context that absorbs within CTX_MAX_BYTES stays within its bounds (R243, R282). -/
theorem Context.bounds_of_feed {c : Context} {m : Bool} {bs : Bytes} {bufBytes : Nat}
    (hbounded : c.msgLength ≤ 2 ^ 60) (hkey : c.keyLegal bufBytes)
    (hroom : m = true → c ≠ .inactive ∧ c.msgLength + bs.length ≤ 2 ^ 60) :
    (if m then c.absorb bs else c).msgLength ≤ 2 ^ 60 ∧ (if m then c.absorb bs else c).keyLegal bufBytes := by
  cases m with
  | false => exact ⟨hbounded, hkey⟩
  | true =>
    obtain ⟨hactive, hfits⟩ := hroom rfl
    cases c with
    | inactive => exact absurd rfl hactive
    | active kind h key msg =>
      refine ⟨?_, ?_⟩
      · simpa [Context.absorb, Context.msgLength] using hfits
      · cases kind <;> exact hkey

/-- A CBC command with `out` bytes of output and as many fed keeps the data clauses (R242, R243, R246). -/
theorem DataInv.of_cbc {t : State} {m : Bool} {out n : Nat} {output fed : Bytes} (hs : DataInv s)
    (hadm : s.CbcAdmitted m out) (houtput : output.length = out) (hfed : fed.length = out) (hn : n ≤ out)
    (hbuf : t.buf = s.buf.writeBytes s.dstN output) (hsize : t.bufSize = s.bufSize)
    (hcontext : t.context = if m then s.context.absorb fed else s.context) (houtlen : t.outlen = BitVec.ofNat 32 n) :
    DataInv t := by
  obtain ⟨hready, hrange, -⟩ := hadm
  have hbytes : t.bufBytes = s.bufBytes := congrArg BufSize.bytes hsize
  have hfits : s.dst.toNat + out ≤ s.bufBytes := by omega
  obtain ⟨hbounded, hkey⟩ := Context.bounds_of_feed (m := m) (bs := fed) hs.contextBounded hs.contextKey (hfed ▸ hready)
  constructor
  · rw [hbuf]
    exact Memory.wf_writeBytes hs.bufCanonical _ _
  · rw [hbuf, hbytes]
    exact Memory.below_writeBytes hs.bufInside (houtput ▸ hfits)
  · rwa [hcontext]
  · rwa [hcontext, hbytes]
  · rw [houtlen, hbytes, BitVec.toNat_ofNat]
    exact (Nat.mod_le n _).trans (by omega)

/-- Decryption takes whole blocks (R241). -/
theorem CbcPadding.mod_of_decTakes {pd : CbcPadding} {n : Nat} (h : pd.decTakes n = true) : n % 16 = 0 := by
  cases pd with
  | whole | legacy => exact beq_iff_eq.1 h
  | pkcs7 => exact beq_iff_eq.1 (Bool.and_eq_true_iff.1 h).1

/-- The plaintext is as long as the input (R251). -/
theorem State.plaintext_length {pd : CbcPadding} (ks : KeySlot) (htakes : pd.decTakes s.lenN = true) :
    (cbcDec (s.keyBytes ks) s.ivrBytes s.input).1.length = s.lenN := by
  have hmod := CbcPadding.mod_of_decTakes htakes
  rw [cbcDec_length _ _ _ s.ivrBytes_length (by rwa [s.input_length]), s.input_length]

/-- A decryption keeps the data clauses. -/
theorem DataInv.of_decryption {pd : CbcPadding} {ks : KeySlot} {m : Bool} {n : Nat} (hs : DataInv s)
    (htakes : pd.decTakes s.lenN = true) (hadm : s.CbcAdmitted m s.lenN) (hn : n ≤ s.lenN) :
    DataInv (s.decryptionLeft ks m n) :=
  hs.of_cbc hadm (State.plaintext_length ks htakes) s.input_length hn rfl rfl rfl rfl

/-- Every end of a command keeps the data clauses. -/
theorem CommandEffect.dataInv {u : State} {i : Instr} {c : Code} (h : CommandEffect s i c u) (hs : DataInv s) :
    DataInv u := by
  have hsize := s.bufBytes_ge
  cases h with
  | raised | nop => exact hs
  | kdfLegacy | kdfPbkdf2 => exact hs.congr rfl rfl rfl rfl
  | zeroize => exact dataInv_of_cleared rfl rfl rfl
  | encrypted pd ks m htakes hadm =>
    have hlen := s.ciphertext_length ks htakes
    exact hs.of_cbc hadm hlen hlen (le_of_eq hlen) rfl rfl rfl rfl
  | decrypted pd ks m q htakes hadm => exact hs.of_decryption htakes hadm (Nat.sub_le _ _)
  | badPadding ks m htakes hadm => exact hs.of_decryption htakes hadm (Nat.zero_le _)
  | macInitKs ks =>
    refine ⟨hs.bufCanonical, hs.bufInside, Nat.zero_le _, ?_, hs.outlenBounded⟩
    show (s.keyBytes ks).length ≤ s.bufBytes
    rw [s.keyBytes_length]
    omega
  | macInitBuf hash hrange =>
    refine ⟨hs.bufCanonical, hs.bufInside, Nat.zero_le _, ?_, hs.outlenBounded⟩
    show s.input.length ≤ s.bufBytes
    rw [s.input_length, State.lenN]
    omega
  | hashInit => exact ⟨hs.bufCanonical, hs.bufInside, Nat.zero_le _, rfl, hs.outlenBounded⟩
  | ctxUpdate hactive hroom =>
    obtain ⟨hbounded, hkey⟩ := Context.bounds_of_feed (m := true) (bs := s.input) hs.contextBounded hs.contextKey
      fun _ => ⟨hactive, by rwa [s.input_length]⟩
    exact ⟨hs.bufCanonical, hs.bufInside, hbounded, hkey, hs.outlenBounded⟩
  | @ctxFinal kind hash key msg =>
    refine ⟨hs.bufCanonical, hs.bufInside, Nat.zero_le _, trivial, ?_⟩
    have hout := hashOutBytes_le hash
    show (BitVec.ofNat 32 (hashOutBytes hash)).toNat ≤ s.bufBytes
    rw [BitVec.toNat_ofNat]
    exact (Nat.mod_le _ _).trans (by omega)
  | verified | tagDiffers => exact ⟨hs.bufCanonical, hs.bufInside, Nat.zero_le _, trivial, hs.outlenBounded⟩

end

/-! ### Completions keep the invariant -/

/-- CTX_VERIFY with OK ends the context (R296). -/
theorem CommandEffect.verify_ends_context {s u : State} (h : CommandEffect s .ctxVerify .ok u) :
    u.context = .inactive := by
  generalize hi : Instr.ctxVerify = i at h
  generalize hc : Code.ok = c at h
  cases h with
  | raised hcode => exact absurd hc.symm hcode
  | verified => rfl
  | encrypted pd ks m => exact absurd hi.symm (pd.encCommand_ne_ctxVerify ks m)
  | decrypted pd ks m => exact absurd hi.symm (pd.decCommand_ne_ctxVerify ks m)
  | tagDiffers => cases hc
  | _ => cases hi

/-- A completion on data that has its clauses, with the delay used up, has the invariant. -/
theorem engineInv_finish {u : State} {verify : Bool} {c : Code} (hdata : DataInv u) (hdelay : u.delay = 0)
    (hverify : verify = true → c = .ok → decode u.cmdr = some .ctxVerify ∧ u.context = .inactive) :
    EngineInv (u.finish verify c) where
  bufCanonical := hdata.bufCanonical
  bufInside := hdata.bufInside
  contextBounded := hdata.contextBounded
  contextKey := hdata.contextKey
  outlenBounded := hdata.outlenBounded
  busyReportsNothing := nofun
  errHasCode := fun herr => by simpa using herr
  authOkVerified := fun hauth => by
    obtain ⟨hv, hc⟩ : verify = true ∧ c = .ok := by simpa using hauth
    exact ⟨hc, hverify hv hc⟩
  idleNoDelay := fun _ => hdelay

/-- A completing step keeps the invariant. -/
theorem engineInv_of_completion {s t : State} (hs : EngineInv s) (hturn : s.engineTurn = true)
    (hstep : step s = .next t) : EngineInv t := by
  obtain ⟨-, hdelay⟩ := s.engineTurn_iff.1 hturn
  rcases step_completes hturn hstep with ⟨i, hdecode, c, u, rfl, heffect⟩ | ⟨-, rfl⟩
  · obtain ⟨-, -, -, -, hcmdr, -, -, -, -, hcount, -⟩ := heffect.operands_kept
    refine engineInv_finish (heffect.dataInv hs.data) (hcount.trans hdelay) fun hi hc => ?_
    obtain rfl := of_decide_eq_true hi
    subst hc
    exact ⟨hcmdr ▸ hdecode, heffect.verify_ends_context⟩
  · exact engineInv_finish hs.data hdelay nofun

/-! ### Host steps keep the invariant -/

/-- The clauses of the invariant about the flags depend on the flags alone. -/
theorem engineInv_of_sameFlags {s t : State} (hs : EngineInv s) (hdata : DataInv t) (same : SameFlags s t)
    (hdelay : t.phase = .idle → t.delay = 0) : EngineInv t where
  bufCanonical := hdata.bufCanonical
  bufInside := hdata.bufInside
  contextBounded := hdata.contextBounded
  contextKey := hdata.contextKey
  outlenBounded := hdata.outlenBounded
  busyReportsNothing := by
    rw [same.phase, same.done, same.err, same.authOk, same.errcode]
    exact hs.busyReportsNothing
  errHasCode := by
    rw [same.err, same.errcode]
    exact hs.errHasCode
  authOkVerified := by
    rw [same.authOk, same.errcode, same.cmdr, same.context]
    exact hs.authOkVerified
  idleNoDelay := hdelay

/-- The state right after a reset of the engine has the invariant. -/
theorem engineInv_resetEngine (s : State) : EngineInv s.resetEngine where
  bufCanonical := rfl
  bufInside := rfl
  contextBounded := Nat.zero_le _
  contextKey := trivial
  outlenBounded := Nat.zero_le _
  busyReportsNothing := nofun
  errHasCode := nofun
  authOkVerified := nofun
  idleNoDelay := fun _ => rfl

/-- Neither the host agent nor a host step's count of the delay is in the way of the invariant. -/
theorem EngineInv.withHost {s : State} (hs : EngineInv s) (h : HostAgent) : EngineInv (s.withHost h) :=
  engineInv_of_sameFlags hs (hs.data.congr rfl rfl rfl rfl)
    ⟨rfl, rfl, rfl, rfl, rfl, rfl, rfl, rfl, rfl⟩ hs.idleNoDelay

theorem EngineInv.counted {s : State} (hs : EngineInv s) : EngineInv s.counted :=
  engineInv_of_sameFlags hs (hs.data.congr rfl rfl rfl rfl) ⟨rfl, rfl, rfl, rfl, rfl, rfl, rfl, rfl, rfl⟩
    fun hidle => by
      have hdelay := hs.idleNoDelay hidle
      show s.delay - 1 = 0
      omega

/-- A dropped write sets OVF alone. -/
theorem EngineInv.dropWrite {s : State} (hs : EngineInv s) : EngineInv s.dropWrite :=
  { hs with }

/-- The acknowledgement clears flags alone (R36). -/
theorem EngineInv.clearStatus {s : State} (hs : EngineInv s) (v : Word) : EngineInv (s.clearStatus v) :=
  { hs with
    busyReportsNothing := fun hbusy => by
      obtain ⟨hdone, herr, hauth, hcode⟩ := hs.busyReportsNothing hbusy
      exact ⟨by simp [hdone], by simp [herr], hauth, hcode⟩
    errHasCode := fun herr => hs.errHasCode (Bool.and_eq_true_iff.1 herr).1 }

/-- A write of CTRL keeps the invariant. -/
theorem EngineInv.writeCtrl {s : State} (hs : EngineInv s) (v : Word) : EngineInv (s.writeCtrl v) := by
  rcases s.writeCtrl_cases v with ⟨-, hwrite⟩ | ⟨-, hwrite⟩
  · exact hwrite ▸ engineInv_resetEngine s
  · exact hwrite ▸ { hs with }

/-- The issue of a command keeps the invariant: nothing is reported of it yet. -/
theorem EngineInv.issue {s : State} (hs : EngineInv s) (v : Word) : EngineInv (s.issue v) :=
  { hs with
    busyReportsNothing := fun _ => ⟨rfl, rfl, rfl, rfl⟩
    errHasCode := nofun
    authOkVerified := nofun
    idleNoDelay := nofun }

/-- A write to any register keeps the invariant. -/
theorem EngineInv.regWrite {s : State} (hs : EngineInv s) (r : Reg) (v : Word) : EngineInv (s.regWrite r v) := by
  cases r with
  | ctrl => exact hs.writeCtrl v
  | status => exact hs.clearStatus v
  | cmd => exact hs.issue v
  | _ => exact { hs with }

/-- A store into the buffer region keeps the invariant: it ends inside BUF or stores nothing (R25, R71). -/
theorem EngineInv.bufStore {s : State} (hs : EngineInv s) {i : Nat} {w : Width} (hi : i % w.bytes = 0) (v : Word) :
    EngineInv (s.bufStore i w v) := by
  unfold State.bufStore
  split
  case isFalse => exact hs
  case isTrue hstart =>
    have hend := s.store_inside hi hstart
    exact { hs with
      bufCanonical := Memory.wf_writeBytes hs.bufCanonical _ _
      bufInside := Memory.below_writeBytes hs.bufInside (by rwa [wordBytes_take_length]) }

/-- Every host step keeps the invariant. -/
theorem engineInv_of_hostEffect {s t : State} (hs : EngineInv s) (heffect : HostEffect s t) : EngineInv t := by
  cases heffect with
  | kept h => exact hs.counted.withHost h
  | dropped h => exact hs.counted.dropWrite.withHost h
  | stored h => exact (hs.counted.regWrite _ _).withHost h
  | storedBuf h hidle haligned => exact (hs.counted.bufStore haligned _).withHost h
  | reset h => exact (engineInv_resetEngine _).withHost h

/-- Settles O59: a step completes or moves the host, and each effect of either keeps the invariant. -/
theorem stepKeepsInvariant : Obligations.StepKeepsInvariant := by
  unfold Obligations.StepKeepsInvariant
  intro s t hs hstep
  rcases step_turn_cases hstep with hturn | ⟨-, rfl, -⟩
  · exact engineInv_of_completion hs hturn hstep
  · exact engineInv_of_hostEffect hs (hostStep_effect s)

/-- Settles O60: the reset state is the one a reset of the engine leaves. -/
theorem resetHasInvariant : Obligations.ResetHasInvariant := engineInv_resetEngine State.reset

end Sys2Proof.Machine
end

section
/-! PROOFS. Rules about the registers and BUF as the host sees them while Idle: what each offset names, reads and
stores, and the bytes of a word (10_state.md R23 to R49, 20_memory.md R72). -/

namespace Sys2Proof.Machine

/-! ### Accesses while Idle (R23) -/

section
variable {s : State} (hidle : s.phase = .idle) {a : BitVec 16} (ha : a.toNat < 0x8000) (h4 : a.toNat % 4 = 0) {r : Reg}
  (hr : regAt (a.toNat / 4) = r)
include hidle ha h4 hr

/-- While Idle every register reads its value. -/
theorem State.busRead_of_idle : s.busRead (.window a) .w4 = ⟨false, s.regRead r⟩ := by
  rw [s.busRead_register ha h4, hr, State.busy_of_idle hidle]
  rfl

/-- While Idle every register takes its write. -/
theorem State.busWrite_of_idle (v : Word) : s.busWrite (.window a) .w4 v = (s.regWrite r v, false) := by
  rw [s.busWrite_register ha h4, hr, State.busy_of_idle hidle]
  rfl

end

/-- The offsets of IVR (R23, R46). -/
theorem ivr_offset (j : Fin 4) :
    let a := BitVec.ofNat 16 (0x0040 + 4 * j.val)
    a.toNat < 0x8000 ∧ a.toNat % 4 = 0 ∧ regAt (a.toNat / 4) = .ivr j := by
  revert j; decide

/-- The offsets of RESULT (R23, R48). -/
theorem res_offset (j : Fin 16) :
    let a := BitVec.ofNat 16 (0x0100 + 4 * j.val)
    a.toNat < 0x8000 ∧ a.toNat % 4 = 0 ∧ regAt (a.toNat / 4) = .res j := by
  revert j; decide

/-- The offsets of the key slots (R23, R47). -/
theorem key_offset (ks : KeySlot) (j : Fin 8) :
    let a := BitVec.ofNat 16 (0x0080 + 0x20 * ks.val + 4 * j.val)
    a.toNat < 0x8000 ∧ a.toNat % 4 = 0 ∧ regAt (a.toNat / 4) = .key ks j := by
  revert ks j; decide

/-- A word of IVR while Idle (R46). -/
theorem State.busRead_ivr {s : State} (hidle : s.phase = .idle) (j : Fin 4) :
    s.busRead (.window (BitVec.ofNat 16 (0x0040 + 4 * j.val))) .w4 = ⟨false, s.ivr[j]⟩ := by
  obtain ⟨ha, h4, hr⟩ := ivr_offset j
  exact State.busRead_of_idle hidle ha h4 hr

/-- A word of RESULT while Idle (R48). -/
theorem State.busRead_res {s : State} (hidle : s.phase = .idle) (j : Fin 16) :
    s.busRead (.window (BitVec.ofNat 16 (0x0100 + 4 * j.val))) .w4 = ⟨false, s.result[j]⟩ := by
  obtain ⟨ha, h4, hr⟩ := res_offset j
  exact State.busRead_of_idle hidle ha h4 hr

/-- CTRL reads IRQ_EN in bit 0 (R27). -/
theorem State.ctrlWord_eq (s : State) : s.ctrlWord = if s.irqEn then 1#32 else 0#32 := by
  rw [State.ctrlWord]
  cases s.irqEn <;> rfl

/-- The low 4 bits of a word (R43). -/
theorem extractLsb'_low4 (v : Word) : v.extractLsb' 0 4 = BitVec.ofNat 4 (v.toNat % 16) :=
  BitVec.eq_of_toNat_eq (by simp)

/-! ### The bytes of a word (R72) -/

theorem wordBytes_getD (v : Word) {k : Nat} (hk : k < 4) : (wordBytes v).getD k 0#8 = v.extractLsb' (8 * k) 8 := by
  obtain rfl | rfl | rfl | rfl : k = 0 ∨ k = 1 ∨ k = 2 ∨ k = 3 := by omega
  all_goals rfl

/-- A byte of the start of a string. -/
theorem take_getD (bs : Bytes) {n k : Nat} (hk : k < n) : (bs.take n).getD k 0#8 = bs.getD k 0#8 := by
  rw [List.getD_eq_getElem?_getD, List.getElem?_take_of_lt hk, List.getD_eq_getElem?_getD]

/-- A byte appended below a number. -/
theorem toNat_append_byte {n : Nat} (x : BitVec n) (b : Byte) : (x ++ b).toNat = x.toNat * 2 ^ 8 + b.toNat := by
  rw [BitVec.toNat_append, ← Nat.shiftLeft_add_eq_or_of_lt b.isLt, Nat.shiftLeft_eq]

/-- A little-endian word as a number (R11, R72). -/
theorem leWord_toNat (b0 b1 b2 b3 : Byte) :
    (leWord b0 b1 b2 b3).toNat = b0.toNat + 2 ^ 8 * b1.toNat + 2 ^ 16 * b2.toNat + 2 ^ 24 * b3.toNat := by
  simp only [leWord, toNat_append_byte]
  omega

/-- The number that the first bytes of a word are (R72). -/
theorem leWordOf_take_wordBytes (v : Word) (w : Width) :
    leWordOf ((wordBytes v).take w.bytes) = BitVec.ofNat 32 (v.toNat % 2 ^ (8 * w.bytes)) := by
  have hv := v.isLt
  refine BitVec.eq_of_toNat_eq ?_
  cases w with
  | w1 | w2 | w4 =>
    simp only [leWordOf, wordBytes, Width.bytes, List.take, List.getD_cons_zero, List.getD_cons_succ, List.getD_nil,
      leWord_toNat, BitVec.extractLsb'_toNat, BitVec.toNat_ofNat, Nat.shiftRight_eq_div_pow]
    omega

/-! ### BUF by offset (R72) -/

/-- The window offset of a place of BUF. -/
theorem buf_offset {s : State} {i : Nat} (hi : i < s.bufBytes) :
    (BitVec.ofNat 16 (0x8000 + i)).toNat = 0x8000 + i := by
  have hsize : s.bufBytes ≤ 0x8000 := by
    rw [State.bufBytes]
    cases s.bufSize <;> decide
  rw [BitVec.toNat_ofNat, Nat.mod_eq_of_lt (by omega)]

/-- An aligned access to BUF is legal (R71). -/
theorem legalAccess_buf {s : State} {i : Nat} {w : Width} (hi : i < s.bufBytes) (halign : i % w.bytes = 0) :
    legalAccess (BitVec.ofNat 16 (0x8000 + i)) w = true := by
  have hbase : 0x8000 % w.bytes = 0 := by cases w <;> rfl
  have hoffset := buf_offset hi
  refine (legalAccess_buffer (by omega) w).2 ?_
  rw [hoffset, Nat.add_mod, hbase, halign]
  exact Nat.zero_mod _

/-- A write to BUF while Idle stores the value's bytes (R72). -/
theorem State.busWrite_buf {s : State} (hidle : s.phase = .idle) {i : Nat} {w : Width} (hi : i < s.bufBytes)
    (halign : i % w.bytes = 0) (v : Word) :
    s.busWrite (.window (BitVec.ofNat 16 (0x8000 + i))) w v =
      ({ s with buf := s.buf.writeBytes i ((wordBytes v).take w.bytes) }, false) := by
  have hoffset := buf_offset hi
  have hindex : (BitVec.ofNat 16 (0x8000 + i)).toNat - bufBase = i := by rw [hoffset, bufBase]; omega
  rw [s.busWrite_buffer (by omega) (legalAccess_buf hi halign), State.busy_of_idle hidle, hindex, State.bufStore_eq,
    if_pos hi]
  rfl

/-- BUF after a write of a word's first bytes, byte by byte. -/
theorem Memory.read_writeBytes_take {m : Memory} (hm : m.rising) (i : Nat) (v : Word) (w : Width) (j : Nat) :
    (m.writeBytes i ((wordBytes v).take w.bytes)).read j =
      if i ≤ j ∧ j < i + w.bytes then v.extractLsb' (8 * (j - i)) 8 else m.read j := by
  rw [Memory.read_writeBytes hm, wordBytes_take_length]
  split
  case isFalse => rfl
  case isTrue h =>
    have hw := Width.bytes_le w
    rw [take_getD _ (by omega), wordBytes_getD v (by omega)]

/-! ### Key slots (R47) -/

theorem flatMap_wordBytes_take (l : List Word) (j : Nat) :
    (l.flatMap wordBytes).take (4 * j) = (l.take j).flatMap wordBytes := by
  induction j generalizing l with
  | zero => rfl
  | succ j ih =>
    cases l with
    | nil => simp
    | cons a l =>
      have hsplit : 4 * (j + 1) = (wordBytes a).length + 4 * j := by rw [wordBytes_length]; omega
      rw [List.flatMap_cons, hsplit, List.take_length_add_append, ih l]
      rfl

/-- A word register written replaces its 4 bytes (R47, R72). -/
theorem bytesOfWords_set {n : Nat} (ws : Vector Word n) (j : Fin n) (v : Word) :
    bytesOfWords (ws.set j v) =
      (bytesOfWords ws).take (4 * j.val) ++ wordBytes v ++ (bytesOfWords ws).drop (4 * j.val + 4) := by
  have hj : j.val < ws.toList.length := by simp
  have hdrop : 4 * j.val + 4 = 4 * (j.val + 1) := by omega
  rw [hdrop, bytesOfWords, bytesOfWords, flatMap_wordBytes_take, flatMap_wordBytes_drop, Vector.toList_set,
    List.set_eq_take_append_cons_drop, if_pos hj, List.flatMap_append, List.flatMap_cons, List.append_assoc]

/-- A word of a slot written: the slot's bytes, and those of the other slots (R47). -/
theorem State.keyBytes_set_word (s : State) (ks : KeySlot) (j : Fin 8) (v : Word) :
    let t : State := { s with keys := s.keys.set ks (s.keys[ks].set j v) }
    t.keyBytes ks = (s.keyBytes ks).take (4 * j.val) ++ wordBytes v ++ (s.keyBytes ks).drop (4 * j.val + 4) ∧
    ∀ q : KeySlot, q ≠ ks → t.keyBytes q = s.keyBytes q := by
  refine ⟨?_, fun q hq => ?_⟩
  · rw [State.keyBytes, State.keyBytes, ← bytesOfWords_set]
    exact congrArg bytesOfWords (Vector.getElem_set_self ks.isLt)
  · exact congrArg bytesOfWords (Vector.getElem_set_ne ks.isLt q.isLt fun e => hq (Fin.ext e.symm))

end Sys2Proof.Machine
end

section
/-! PROOFS. The obligations of 10_state.md, 20_memory.md and 70_reset_and_hazards.md about what the host reads and
stores. -/

namespace Sys2Proof.Machine

/-- The context bits of STATUS (R34). -/
theorem State.context_bits (s : State) :
    (s.ctxActive = true ↔ ∃ kind h k m, s.context = .active kind h k m) ∧
    (s.ctxH = true ↔ ∃ kind k m, s.context = .active kind .sha512 k m) ∧
    (s.ctxKeyed = true ↔ ∃ h k m, s.context = .active .hmac h k m) := by
  unfold State.ctxActive State.ctxH State.ctxKeyed
  cases s.context with
  | inactive => simp [Context.isInactive]
  | active kind h key msg => simp [Context.isInactive]

/-- Settles O11: STATUS has one bit for each flag and none above. -/
theorem statusBits : Obligations.StatusBits := by
  unfold Obligations.StatusBits
  intro s
  obtain ⟨hbusy, hdone, herr, hauth, hactive, hhash, hkeyed, hovf⟩ := s.statusWord_bits
  rw [hactive, hhash, hkeyed]
  obtain ⟨hactive', hhash', hkeyed'⟩ := s.context_bits
  exact ⟨s.busRead_status, hbusy, hdone, herr, hauth, hactive', hhash', hkeyed', hovf,
    fun i => s.statusWord_reserved⟩

/-- Settles O14: while Idle every register reads what the reset state holds. -/
theorem resetValues : Obligations.ResetValues := by
  unfold Obligations.ResetValues
  have hidle : State.reset.phase = .idle := rfl
  refine ⟨rfl, rfl, rfl, rfl, rfl, rfl, rfl, rfl, rfl, rfl, rfl, rfl, rfl, fun j => ?ivr, fun j => ?result,
    fun ks => ?keys, fun i => rfl, rfl, rfl, rfl⟩
  case ivr =>
    rw [State.busRead_ivr hidle]
    exact congrArg _ (Vector.getElem_replicate j.isLt)
  case result =>
    rw [State.busRead_res hidle]
    exact congrArg _ (Vector.getElem_replicate j.isLt)
  case keys => exact congrArg bytesOfWords (Vector.getElem_replicate ks.isLt)

/-- Settles O22: while Idle each offset reads and stores its register, and the words of a register bank are the bytes of
its string. -/
theorem operandRegisters : Obligations.OperandRegisters := by
  unfold Obligations.OperandRegisters
  refine fun s v => ⟨s.busRead_unlocked (by decide) (by decide), ?ctrl, fun hidle => ?idle⟩
  case ctrl =>
    rw [← s.ctrlWord_eq]
    exact s.busRead_unlocked (by decide) (by decide)
  case idle =>
    have reads {a : BitVec 16} {r : Reg} (ha : a.toNat < 0x8000) (h4 : a.toNat % 4 = 0)
        (hr : regAt (a.toNat / 4) = r) := State.busRead_of_idle hidle ha h4 hr
    have stores {a : BitVec 16} {r : Reg} (ha : a.toNat < 0x8000) (h4 : a.toNat % 4 = 0)
        (hr : regAt (a.toNat / 4) = r) := State.busWrite_of_idle hidle ha h4 hr v
    refine ⟨⟨stores (by decide) (by decide) rfl, reads (by decide) (by decide) rfl⟩,
      ⟨stores (by decide) (by decide) rfl, reads (by decide) (by decide) rfl⟩,
      ⟨stores (by decide) (by decide) rfl, reads (by decide) (by decide) rfl⟩,
      ⟨stores (by decide) (by decide) rfl, reads (by decide) (by decide) rfl⟩,
      ⟨?lmod, reads (by decide) (by decide) rfl⟩, fun j => ⟨?ivr, State.busRead_ivr hidle j, ?ivrBytes⟩,
      reads (by decide) (by decide) rfl, fun j => ⟨State.busRead_res hidle j, (slice_bytesOfWords s.result j).symm⟩⟩
    case lmod =>
      rw [← extractLsb'_low4]
      exact stores (by decide) (by decide) rfl
    case ivr =>
      obtain ⟨ha, h4, hr⟩ := ivr_offset j
      exact stores ha h4 hr
    case ivrBytes => exact (slice_bytesOfWords s.ivr j).symm

/-- Settles O20: the write stores the value's first bytes, and the read at the same place gives them back. -/
theorem bufAccess : Obligations.BufAccess := by
  unfold Obligations.BufAccess
  intro s i w v hidle hwf hi halign
  have hlegal := legalAccess_buf (s := s) hi halign
  have hoffset := buf_offset hi
  have hread := s.busRead_busWrite_inside hidle hwf hlegal hlegal (by omega) (by omega) le_rfl le_rfl v
  rw [State.busWrite_buf hidle hi halign] at hread ⊢
  refine ⟨_, rfl, rfl, Memory.read_writeBytes_take ((Memory.wf_iff _).1 hwf).1 i v w, ?_⟩
  rw [hread, Nat.sub_self, ← leWordOf_take_wordBytes]
  rfl

/-- Settles O23: a slot reads 0 locked or not, and the write is that of one word of one slot. -/
theorem keySlotAccess : Obligations.KeySlotAccess := by
  unfold Obligations.KeySlotAccess
  intro s ks j v
  obtain ⟨ha, h4, hr⟩ := key_offset ks j
  refine ⟨?read, fun hidle => ?write⟩
  case read =>
    rw [s.busRead_register ha h4, hr]
    exact ite_self _
  case write => exact ⟨_, State.busWrite_of_idle hidle ha h4 hr v, rfl, s.keyBytes_set_word ks j v⟩

end Sys2Proof.Machine
end

section
/-! PROOFS. The obligation about what the host may learn: from two states that differ in secrets alone every bus read
gives one value, and every bus write and every host statement leaves two such states (10_state.md R47, R53). -/

namespace Sys2Proof.Machine

/-! ### The relation -/

/-- The bits of STATUS that depend on the context (R34). -/
theorem SameButSecrets.contextBits {s t : State} (h : SameButSecrets s t) :
    t.ctxActive = s.ctxActive ∧ t.ctxH = s.ctxH ∧ t.ctxKeyed = s.ctxKeyed := by
  obtain ⟨-, -, -, -, sactive, shash, skeyed, -⟩ := s.statusWord_bits
  obtain ⟨-, -, -, -, tactive, thash, tkeyed, -⟩ := t.statusWord_bits
  obtain ⟨-, hstatus⟩ := h
  rw [← sactive, ← shash, ← skeyed, ← tactive, ← thash, ← tkeyed, hstatus]
  exact ⟨rfl, rfl, rfl⟩

/-- States that agree but for keys and context, and in the context bits of STATUS, differ in secrets alone. -/
theorem sameButSecrets_of_contextBits {s t : State} (hsame : t = { s with keys := t.keys, context := t.context })
    (hactive : t.ctxActive = s.ctxActive) (hhash : t.ctxH = s.ctxH) (hkeyed : t.ctxKeyed = s.ctxKeyed) :
    SameButSecrets s t := by
  refine ⟨hsame, ?_⟩
  rw [State.statusWord, State.statusWord, hactive, hhash, hkeyed, hsame]
  rfl

/-- An update of both states that agrees but for keys and context, and keeps both contexts, keeps the relation. -/
theorem SameButSecrets.map {s t s' t' : State} (h : SameButSecrets s t)
    (hsame : t' = { s' with keys := t'.keys, context := t'.context }) (hs : s'.context = s.context)
    (ht : t'.context = t.context) : SameButSecrets s' t' := by
  obtain ⟨hactive, hhash, hkeyed⟩ := h.contextBits
  refine sameButSecrets_of_contextBits hsame ?_ ?_ ?_
  · simpa only [State.ctxActive, hs, ht] using hactive
  · simpa only [State.ctxH, hs, ht] using hhash
  · simpa only [State.ctxKeyed, hs, ht] using hkeyed

/-- States that are the same and have no context differ in secrets alone. -/
theorem sameButSecrets_of_eq {s t : State} (h : t = s) : SameButSecrets s t := by
  subst h
  exact ⟨rfl, rfl⟩

/-- The second state as the first with other keys and another context. -/
theorem SameButSecrets.exists_secrets {s t : State} (h : SameButSecrets s t) :
    ∃ keys context, t = { s with keys := keys, context := context } := ⟨_, _, h.1⟩

/-! ### Reads -/

/-- Every register reads the same (R47). -/
theorem SameButSecrets.regRead {s t : State} (h : SameButSecrets s t) (r : Reg) : t.regRead r = s.regRead r := by
  obtain ⟨keys, context, rfl⟩ := h.exists_secrets
  cases r with
  | status => exact h.2
  | _ => rfl

/-- Every bus read gives the same response. -/
theorem SameButSecrets.busRead {s t : State} (h : SameButSecrets s t) (a : BusAddr) (w : Width) :
    t.busRead a w = s.busRead a w := by
  have hreg := h.regRead
  obtain ⟨keys, context, rfl⟩ := h.exists_secrets
  cases a with
  | outside => rfl
  | window a =>
    simp only [State.busRead, hreg]
    rfl

/-! ### Writes -/

/-- A write of CTRL keeps the relation: a reset clears the secrets of both states. -/
theorem SameButSecrets.writeCtrl {s t : State} (h : SameButSecrets s t) (v : Word) :
    SameButSecrets (s.writeCtrl v) (t.writeCtrl v) := by
  rcases s.writeCtrl_cases v with ⟨hreset, hs⟩ | ⟨hkept, hs⟩
  · rw [hs, t.writeCtrl_reset hreset]
    obtain ⟨keys, context, rfl⟩ := h.exists_secrets
    exact sameButSecrets_of_eq rfl
  · rw [hs, t.writeCtrl_irqEn hkept]
    refine h.map ?_ rfl rfl
    obtain ⟨keys, context, rfl⟩ := h.exists_secrets
    rfl

/-- A write to any register keeps the relation. -/
theorem SameButSecrets.regWrite {s t : State} (h : SameButSecrets s t) (r : Reg) (v : Word) :
    SameButSecrets (s.regWrite r v) (t.regWrite r v) := by
  cases r with
  | ctrl => exact h.writeCtrl v
  | _ =>
    refine h.map ?_ rfl rfl
    obtain ⟨keys, context, rfl⟩ := h.exists_secrets
    rfl

/-- A store into the buffer region keeps the relation. -/
theorem SameButSecrets.bufStore {s t : State} (h : SameButSecrets s t) (i : Nat) (w : Width) (v : Word) :
    SameButSecrets (s.bufStore i w v) (t.bufStore i w v) := by
  rw [State.bufStore_eq, State.bufStore_eq]
  refine h.map ?_ rfl rfl
  obtain ⟨keys, context, rfl⟩ := h.exists_secrets
  rfl

theorem SameButSecrets.dropWrite {s t : State} (h : SameButSecrets s t) :
    SameButSecrets s.dropWrite t.dropWrite := by
  refine h.map ?_ rfl rfl
  obtain ⟨keys, context, rfl⟩ := h.exists_secrets
  rfl

theorem SameButSecrets.busy {s t : State} (h : SameButSecrets s t) : t.busy = s.busy := by
  obtain ⟨keys, context, rfl⟩ := h.exists_secrets
  rfl

/-- Every bus write has the same response and keeps the relation. -/
theorem SameButSecrets.busWrite {s t : State} (h : SameButSecrets s t) (a : BusAddr) (w : Width) (v : Word) :
    SameButSecrets (s.busWrite a w v).1 (t.busWrite a w v).1 ∧ (t.busWrite a w v).2 = (s.busWrite a w v).2 := by
  cases a with
  | outside => exact ⟨h, rfl⟩
  | window a =>
    cases hlegal : legalAccess a w with
    | false =>
      rw [s.busWrite_illegal hlegal, t.busWrite_illegal hlegal]
      exact ⟨h, rfl⟩
    | true =>
      by_cases hregion : a.toNat < 0x8000
      · obtain ⟨rfl, h4⟩ := (legalAccess_register hregion w).1 hlegal
        rw [s.busWrite_register hregion h4, t.busWrite_register hregion h4, h.busy]
        split
        · exact ⟨h.dropWrite, rfl⟩
        · exact ⟨h.regWrite _ v, rfl⟩
      · rw [s.busWrite_buffer (by omega) hlegal, t.busWrite_buffer (by omega) hlegal, h.busy]
        split
        · exact ⟨h.dropWrite, rfl⟩
        · exact ⟨h.bufStore _ w v, rfl⟩

/-! ### Statements -/

theorem SameButSecrets.host {s t : State} (h : SameButSecrets s t) : t.host = s.host := by
  obtain ⟨keys, context, rfl⟩ := h.exists_secrets
  rfl

/-- The same host agent beside both states keeps the relation. -/
theorem SameButSecrets.withHost {s t : State} (h : SameButSecrets s t) (agent : HostAgent) :
    SameButSecrets (s.withHost agent) (t.withHost agent) := by
  refine h.map ?_ rfl rfl
  obtain ⟨keys, context, rfl⟩ := h.exists_secrets
  rfl

theorem SameButSecrets.counted {s t : State} (h : SameButSecrets s t) : SameButSecrets s.counted t.counted := by
  refine h.map ?_ rfl rfl
  obtain ⟨keys, context, rfl⟩ := h.exists_secrets
  rfl

theorem SameButSecrets.resetEngine {s t : State} (h : SameButSecrets s t) :
    SameButSecrets s.resetEngine t.resetEngine := by
  obtain ⟨keys, context, rfl⟩ := h.exists_secrets
  exact sameButSecrets_of_eq rfl

/-- Every statement keeps the relation: what the host records comes from responses that are the same. -/
theorem SameButSecrets.runStmt {s t : State} (h : SameButSecrets s t) (st : HostStmt) (rest : List HostStmt) :
    SameButSecrets (runStmt st rest s) (runStmt st rest t) := by
  have hread := h.busRead
  have hhost := h.host
  cases st with
  | wr a w v =>
    obtain ⟨hstate, hresponse⟩ := h.busWrite a w v
    rw [runStmt_wr, runStmt_wr, hresponse, hhost]
    exact hstate.withHost _
  | powerOnReset =>
    have hreset := h.resetEngine
    simp only [Machine.runStmt, State.hostContinue, hreset.host]
    exact hreset.withHost _
  | chk =>
    simp only [Machine.runStmt, State.hostAfter, State.hostRaise, hread, hhost]
    split
    · exact h.withHost _
    · exact h.withHost _
  | rd | get | getOutput | wait | emit | emitGot | clearGot | raise | openContent =>
    simp only [Machine.runStmt, State.hostAfter, State.hostKeep, State.hostRaise, hread, hhost]
    exact h.withHost _

/-- Settles O24: both hosts have the same next statement, and every statement keeps the relation. -/
theorem hostStepsRevealNoSecret : Obligations.HostStepsRevealNoSecret := by
  unfold Obligations.HostStepsRevealNoSecret
  intro s t h
  cases hprogram : s.host.program with
  | nil =>
    rw [hostStep_of_nil hprogram, hostStep_of_nil (s := t) (h.host ▸ hprogram)]
    exact h.counted
  | cons st rest =>
    rw [hostStep_of_cons hprogram, hostStep_of_cons (s := t) (h.host ▸ hprogram)]
    exact h.counted.runStmt st rest

end Sys2Proof.Machine
end

section
/-! PROOFS. The obligations of 40_control.md, 43_kdf_commands.md and 45_context_commands.md about single commands: each
on the operands its checks admit, and the context commands on those they refuse. -/

namespace Sys2Proof.Machine

/-! ### Control commands -/

/-- Settles O33: the command is its completion. -/
theorem nopCompletes : Obligations.NopCompletes := by
  unfold Obligations.NopCompletes
  exact fun s => congrArg Host.Outcome.next (s.finish_ok false)

/-- A register bank of zeros is a string of zeros. -/
theorem bytesOfWords_replicate_zero (n : Nat) : bytesOfWords (Vector.replicate n 0#32) = zeros (4 * n) := by
  refine List.eq_replicate_iff.2 ⟨bytesOfWords_length _, fun b hb => ?_⟩
  obtain ⟨w, hw, hbw⟩ := List.mem_flatMap.1 hb
  obtain ⟨-, rfl⟩ : n ≠ 0 ∧ w = 0#32 := by simpa using hw
  have hzero : ∀ b ∈ wordBytes 0#32, b = 0#8 := by decide
  exact hzero b hbw

/-- A completion with an Inactive context has none of the context bits of STATUS (R34). -/
theorem State.statusWord_context_bits_of_inactive {s : State} (h : s.context = .inactive) :
    s.statusWord &&& 0x00000070#32 = 0#32 := by
  have hactive : s.ctxActive = false := by rw [State.ctxActive, h]; rfl
  have hhash : s.ctxH = false := by rw [State.ctxH, h]
  have hkeyed : s.ctxKeyed = false := by rw [State.ctxKeyed, h]
  rw [State.statusWord, hactive, hhash, hkeyed]
  generalize s.busy = b, s.done = d, s.err = e, s.authOk = a, s.ovf = o
  revert b d e a o
  decide

/-- Settles O34: each bank of zeros is a string of zeros, and an empty BUF reads 0 everywhere. -/
theorem zeroizeCompletes : Obligations.ZeroizeCompletes := by
  unfold Obligations.ZeroizeCompletes
  intro s
  refine ⟨s.zeroized, congrArg Host.Outcome.next (s.zeroized.finish_ok false), rfl, fun ks => ?keys,
    bytesOfWords_replicate_zero 4, bytesOfWords_replicate_zero 16, fun i => rfl,
    State.statusWord_context_bits_of_inactive rfl⟩
  case keys =>
    have hslot : s.zeroized.keys[ks] = Vector.replicate 8 0#32 := Vector.getElem_replicate ks.isLt
    rw [State.keyBytes, hslot, bytesOfWords_replicate_zero]

/-! ### Key derivation (R225, R230) -/

/-- A password of at most PW_MAX_BYTES in a valid range passes the checks of both KDF commands (R223). -/
theorem State.kdfChecks_pass {s : State} (hlen : s.len.toNat ≤ 2048) (hrange : s.src.toNat + s.len.toNat ≤ s.bufBytes) :
    firstFailure s.kdfChecks = none := by
  rw [s.firstFailure_kdfChecks, if_neg hlen.not_gt, if_neg hrange.not_gt]

/-- Settles O35: past the checks the slot is written, with as many bytes as it has. -/
theorem kdfLegacyCompletes : Obligations.KdfLegacyCompletes := by
  unfold Obligations.KdfLegacyCompletes
  intro ks s hlen hrange
  obtain ⟨hslot, hothers⟩ := s.keyBytes_setKeyBytes ks (legacyStretch_length s.input s.ivrBytes s.ivrBytes_length)
  refine ⟨s.setKeyBytes ks (legacyStretch s.input s.ivrBytes), ?_, rfl, hslot, hothers⟩
  rw [← State.finish_ok]
  exact congrArg Host.Outcome.next (State.validated_of_none _ (State.kdfChecks_pass hlen hrange))

/-- Settles O36: past the checks the slot is written, with as many bytes as it has. -/
theorem kdfPbkdf2Completes : Obligations.KdfPbkdf2Completes := by
  unfold Obligations.KdfPbkdf2Completes
  intro ks s hlen hrange hiter
  obtain ⟨hslot, hothers⟩ := s.keyBytes_setKeyBytes ks (pbkdf2Sha512_length s.input s.ivrBytes s.iter.toNat)
  have hpass : firstFailure (s.kdfChecks ++ [(s.iter == 0#32, .param)]) = none := by
    rw [firstFailure_append, State.kdfChecks_pass hlen hrange, Option.none_or, beq_eq_false_iff_ne.2 hiter]
    rfl
  refine ⟨s.setKeyBytes ks (pbkdf2Sha512 s.input s.ivrBytes s.iter.toNat), ?_, rfl, hslot, hothers⟩
  rw [← State.finish_ok]
  exact congrArg Host.Outcome.next (State.validated_of_none _ hpass)

/-! ### Context commands (R284 to R296) -/

/-- Settles O48: two of the commands have no check, and the third has one. -/
theorem initCompletes : Obligations.InitCompletes := by
  unfold Obligations.InitCompletes
  intro s ks h
  have completes (u : State) : Host.Outcome.next u.completeOk =
      (.next (u.completed false) : Host.Outcome State Fault Refusal) :=
    congrArg Host.Outcome.next (u.finish_ok false)
  refine ⟨completes _, completes _, fun hrange => ?_⟩
  have hpass : firstFailure [(s.inputBad, .range)] = none := by
    rw [s.inputBad_eq_false_iff.2 hrange]
    rfl
  exact (congrArg Host.Outcome.next (State.validated_of_none _ hpass)).trans (completes _)

/-- Settles O49: an Active context absorbs the input. -/
theorem ctxUpdateCompletes : Obligations.CtxUpdateCompletes := by
  unfold Obligations.CtxUpdateCompletes
  intro s kind h key msg hcontext hroom hrange
  have hroom' : s.context.msgLength + s.len.toNat ≤ 2 ^ 60 := by rwa [hcontext]
  rw [exec_ctxUpdate_of_room (by rw [hcontext]; exact nofun) hroom' hrange, hcontext]
  rfl

/-- CTX_FINAL with an Active context (R293). -/
theorem exec_ctxFinal_of_active {s : State} {kind : ContextKind} {h : HashAlg} {key msg : Bytes}
    (hcontext : s.context = .active kind h key msg) :
    exec .ctxFinal s = .next (State.completed
      { s with
        result := wordsOfBytes 16 (contextDigest kind h key msg ++ zeros (64 - hashOutBytes h))
        outlen := BitVec.ofNat 32 (hashOutBytes h)
        context := .inactive } false) := by
  have hexec : exec .ctxFinal s = execCtxFinal s := rfl
  rw [hexec, execCtxFinal, hcontext]
  dsimp only
  rw [State.setOutlen_setResultBytes, contextDigest_length, State.completeOk_eq, State.finish_ok]

/-- Settles O50: the digest fills RESULT from the left, and its length fits OUTLEN. -/
theorem ctxFinalCompletes : Obligations.CtxFinalCompletes := by
  unfold Obligations.CtxFinalCompletes
  intro s kind h key msg hcontext d
  have hd : d = contextDigest kind h key msg := by cases kind <;> rfl
  have hsize := hashOutBytes_le h
  rw [hd]
  refine ⟨_, exec_ctxFinal_of_active hcontext, rfl, contextDigest_length .., ?result, ?outlen⟩
  case result =>
    exact bytesOfWords_wordsOfBytes 16 _ (by rw [List.length_append, contextDigest_length, zeros_length]; omega)
  case outlen =>
    show (BitVec.ofNat 32 (hashOutBytes h)).toNat = hashOutBytes h
    rw [BitVec.toNat_ofNat, Nat.mod_eq_of_lt (by omega)]

/-- Settles O51: the stored tag is the digest, whatever LEN is. -/
theorem ctxVerifyCompletes : Obligations.CtxVerifyCompletes := by
  unfold Obligations.CtxVerifyCompletes
  intro s kind h key msg n hcontext hrange htag
  rw [exec_ctxVerify_of_active (s := { s with len := n }) hcontext hrange]
  exact congrArg Host.Outcome.next (if_pos htag)

/-- A context command that raises an error at once leaves the state failed with it (R132). -/
theorem next_raiseError {s : State} {c : Code} (hc : c ≠ .ok) :
    Host.Outcome.next (s.raiseError c) = (.next (s.failed c) : Host.Outcome State Fault Refusal) :=
  congrArg Host.Outcome.next (s.finish_error hc)

/-- What the checks of CTX_UPDATE decide (R290). -/
theorem State.firstFailure_ctxUpdate (s : State) :
    firstFailure [(s.context.isInactive, .ctxState), (s.contextFull s.lenN, .length), (s.inputBad, .range)] =
      if s.context = .inactive then some .ctxState
      else if 2 ^ 60 < s.context.msgLength + s.len.toNat then some .length
      else if s.bufBytes < s.src.toNat + s.len.toNat then some .range
      else none := by
  simp only [firstFailure, Context.isInactive_iff, State.contextFull_iff, State.inputBad_iff, State.lenN]

/-- A failed check of CTX_UPDATE ends it (R290). -/
theorem exec_ctxUpdate_of_fail {s : State} {c : Code} (hc : c ≠ .ok)
    (hfails : firstFailure
      [(s.context.isInactive, .ctxState), (s.contextFull s.lenN, .length), (s.inputBad, .range)] = some c) :
    exec .ctxUpdate s = .next (s.failed c) :=
  congrArg Host.Outcome.next (State.validated_eq_failed _ hfails hc)

/-- Settles O53: command by command, the first check that fails raises its code. -/
theorem contextErrors : Obligations.ContextErrors := by
  unfold Obligations.ContextErrors
  intro s h
  refine ⟨fun hrange => ?initRange, fun hinactive => ⟨?updateState, ?finalState, ?verifyState⟩,
    fun hactive hfull => ?updateLength, fun hactive hroom hrange => ?updateRange,
    fun kind g key msg hcontext hrange => ?verifyRange⟩
  case initRange =>
    have hfails : firstFailure [(s.inputBad, .range)] = some .range := by
      rw [s.inputBad_iff.2 hrange]
      rfl
    exact congrArg Host.Outcome.next (State.validated_eq_failed _ hfails (by decide))
  case updateState =>
    exact exec_ctxUpdate_of_fail (by decide) (by rw [s.firstFailure_ctxUpdate, if_pos hinactive])
  case finalState =>
    have hexec : exec .ctxFinal s = execCtxFinal s := rfl
    rw [hexec, execCtxFinal, hinactive]
    exact next_raiseError (by decide)
  case verifyState =>
    have hexec : exec .ctxVerify s = execCtxVerify s := rfl
    rw [hexec, execCtxVerify, hinactive]
    exact next_raiseError (by decide)
  case updateLength =>
    exact exec_ctxUpdate_of_fail (by decide) (by rw [s.firstFailure_ctxUpdate, if_neg hactive, if_pos hfull])
  case updateRange =>
    exact exec_ctxUpdate_of_fail (by decide)
      (by rw [s.firstFailure_ctxUpdate, if_neg hactive, if_neg hroom.not_gt, if_pos hrange])
  case verifyRange =>
    have hexec : exec .ctxVerify s = execCtxVerify s := rfl
    have hbad : ¬ s.rangeValid s.srcN (hashOutBytes g) = true := by
      rw [State.rangeValid_iff]
      exact Nat.not_le.2 hrange
    rw [hexec, execCtxVerify, hcontext]
    dsimp only
    rw [if_neg hbad]
    exact next_raiseError (by decide)

end Sys2Proof.Machine
end

section
/-! PROOFS. The obligations of 44_cbc_commands.md about single CBC commands on admitted operands: an encryption and a
decryption of any padding scheme leave what `CbcLeaves` says, and each command is one of its scheme. -/

namespace Sys2Proof.Machine

section
variable {s : State} {pd : CbcPadding} {ks : KeySlot} {m : Bool}

/-- The padded input, with the pad count by LEN (R241). -/
theorem State.pad_input (s : State) (pd : CbcPadding) :
    pd.pad s.input = s.input ++ byteRep (pd.count s.lenN) (pd.count s.lenN) := by
  rw [CbcPadding.pad, s.input_length]

/-- An admitted encryption completes with OK and leaves the ciphertext of the padded input (R248, R254, R261). -/
theorem CbcPadding.encCommand_completes (hwf : s.buf.wf = true) (htakes : pd.encTakes s.lenN = true)
    (hadm : s.CbcAdmitted m (s.lenN + pd.count s.lenN)) :
    let r := cbcEnc (s.keyBytes ks) s.ivrBytes (s.input ++ byteRep (pd.count s.lenN) (pd.count s.lenN))
    ∃ u, exec (pd.encCommand ks m) s = .next (State.completed u false) ∧
      r.1.length = s.lenN + pd.count s.lenN ∧
      CbcLeaves s u m r.1 r.2 r.1 (s.lenN + pd.count s.lenN) (pd.lmodLeft s) := by
  rw [← s.pad_input]
  have hlen := s.ciphertext_length ks htakes
  refine ⟨s.encryptionLeft pd ks m, ?_, hlen, storedAt_writeBytes hwf rfl, ?_⟩
  · rw [pd.exec_encCommand_of_admitted ks htakes hadm, State.encrypted_eq]
  · rw [State.encryptionLeft, hlen]

/-- Whatever OUTLEN becomes, a decryption leaves the plaintext of the input (R251, R258). -/
theorem State.decryptionLeft_leaves (hwf : s.buf.wf = true) (n : Nat) :
    let r := cbcDec (s.keyBytes ks) s.ivrBytes s.input
    CbcLeaves s (s.decryptionLeft ks m n) m r.1 r.2 s.input n s.lmod :=
  ⟨storedAt_writeBytes hwf rfl, rfl⟩

/-- An admitted decryption whose padding can be trimmed completes with OK (R251, R257, R265). -/
theorem CbcPadding.exec_decCommand_of_trim (htakes : pd.decTakes s.lenN = true) (hadm : s.CbcAdmitted m s.lenN)
    {q : Nat} (htrim : pd.trim ks s = some q) :
    exec (pd.decCommand ks m) s = .next (State.completed (s.decryptionLeft ks m (s.lenN - q)) false) := by
  rw [pd.exec_decCommand_of_admitted ks htakes hadm, State.decrypted_of_trim m htrim, State.cbcDecrypt_setOutlen]

/-- An admitted decryption with no padding to trim ends with PADDING (R257, R258). -/
theorem CbcPadding.exec_decCommand_of_no_trim (htakes : pd.decTakes s.lenN = true) (hadm : s.CbcAdmitted m s.lenN)
    (htrim : pd.trim ks s = none) :
    exec (pd.decCommand ks m) s = .next (State.failed (s.decryptionLeft ks m 0) .padding) := by
  rw [pd.exec_decCommand_of_admitted ks htakes hadm, State.decrypted, htrim, State.cbcDecrypt_setOutlen]

end

/-- Settles O39: whole blocks, nothing padded. -/
theorem cbcEncCompletes : Obligations.CbcEncCompletes := by
  unfold Obligations.CbcEncCompletes
  intro ks m s hwf hlen hadm
  have h := CbcPadding.encCommand_completes (pd := .whole) (ks := ks) hwf (beq_iff_eq.2 hlen) hadm
  have hnone : s.input ++ byteRep (CbcPadding.whole.count s.lenN) (CbcPadding.whole.count s.lenN) = s.input :=
    List.append_nil _
  rw [hnone] at h
  exact h

/-- Settles O41: the PKCS#7 count by LEN. -/
theorem cbcEncPkcs7Completes : Obligations.CbcEncPkcs7Completes := by
  unfold Obligations.CbcEncPkcs7Completes
  exact fun ks m s hwf hadm => CbcPadding.encCommand_completes (pd := .pkcs7) hwf rfl hadm

/-- Settles O43: the Legacy count by LEN, and LMOD. -/
theorem cbcEncLegacyCompletes : Obligations.CbcEncLegacyCompletes := by
  unfold Obligations.CbcEncLegacyCompletes
  exact fun ks m s hwf hadm => CbcPadding.encCommand_completes (pd := .legacy) hwf rfl hadm

/-- Settles O40: whole blocks, nothing trimmed. -/
theorem cbcDecCompletes : Obligations.CbcDecCompletes := by
  unfold Obligations.CbcDecCompletes
  intro ks m s hwf hlen hadm
  have htakes : CbcPadding.whole.decTakes s.lenN = true := beq_iff_eq.2 hlen
  exact ⟨_, CbcPadding.exec_decCommand_of_trim htakes hadm rfl, State.plaintext_length ks htakes,
    State.decryptionLeft_leaves hwf _⟩

/-- Settles O44: the trim comes from LMOD, whatever the plaintext. -/
theorem cbcDecLegacyCompletes : Obligations.CbcDecLegacyCompletes := by
  unfold Obligations.CbcDecLegacyCompletes
  intro ks m s hwf hlen hadm
  have htakes : CbcPadding.legacy.decTakes s.lenN = true := beq_iff_eq.2 hlen
  exact ⟨_, CbcPadding.exec_decCommand_of_trim htakes hadm rfl, State.plaintext_length ks htakes,
    State.decryptionLeft_leaves hwf _⟩

/-- A plaintext that does not end in q bytes of value q, 1 ≤ q ≤ 16, is not stripped (R257). -/
theorem pkcs7Strip_eq_none {r : Bytes} (h : ¬ ∃ (p : Bytes) (q : Nat), 1 ≤ q ∧ q ≤ 16 ∧ r = p ++ byteRep q q) :
    pkcs7Strip r = none := by
  refine Option.eq_none_iff_forall_ne_some.2 fun q hq => ?_
  obtain ⟨hpos, hmax, hr⟩ := pkcs7Strip_some hq
  exact h ⟨_, q, hpos, hmax, hr⟩

/-- Settles O42: the end of the plaintext decides the strip, and the writes are the same. -/
theorem cbcDecPkcs7Completes : Obligations.CbcDecPkcs7Completes := by
  unfold Obligations.CbcDecPkcs7Completes
  intro ks m s hwf hlen hpos hadm x r
  have hmin : 16 ≤ s.lenN := by rw [State.lenN]; omega
  have htakes : CbcPadding.pkcs7.decTakes s.lenN = true :=
    Bool.and_eq_true_iff.2 ⟨beq_iff_eq.2 hlen, decide_eq_true hmin⟩
  have hplain : r.1.length = s.len.toNat := State.plaintext_length ks htakes
  refine ⟨fun p q hq hmax hr => ⟨_, CbcPadding.exec_decCommand_of_trim htakes hadm ?strips, ?length,
    State.decryptionLeft_leaves hwf _⟩, fun hnone => ⟨_, CbcPadding.exec_decCommand_of_no_trim htakes hadm
    (pkcs7Strip_eq_none hnone), State.decryptionLeft_leaves hwf _⟩⟩
  case strips => exact (congrArg pkcs7Strip hr).trans (pkcs7Strip_append p hq hmax)
  case length =>
    rw [hr, List.length_append, byteRep_length] at hplain
    omega

end Sys2Proof.Machine
end

section
/-! PROOFS. Rules about a CBC command cut in two: the operands of the two pieces, what the second piece reads after the
first has written, and that output, chain and MAC feed of the pieces are those of the whole (44_cbc_commands.md R271,
R272). -/

namespace Sys2Proof.Machine

/-! ### The operands of the pieces -/

/-- `s` with the operands of a command over the first `n` bytes of its input. -/
def State.firstPiece (s : State) (n : Word) : State := { s with len := n }

/-- `a`, which a command over the first `n` bytes has left, with the operands of a command over the rest. -/
def State.secondPiece (s a : State) (n : Word) : State :=
  { a with src := s.src + n, dst := s.dst + n, len := s.len - n }

section
variable {s a : State} {n : Word} {m : Bool} {out : Nat} (hn : n.toNat ≤ s.lenN) (hlen : s.lenN ≤ out)
  (hadm : s.CbcAdmitted m out)

include hn in
theorem State.secondPiece_lenN : (s.secondPiece a n).lenN = s.lenN - n.toNat :=
  BitVec.toNat_sub_of_le (BitVec.le_def.2 hn)

include hn hlen hadm in
/-- The pieces' operands stay inside BUF, so they do not wrap around (R81). -/
theorem State.secondPiece_operands :
    (s.secondPiece a n).srcN = s.srcN + n.toNat ∧ (s.secondPiece a n).dstN = s.dstN + n.toNat := by
  have hbuf := s.bufBytes_lt
  have hrange := hadm.inRange
  rw [State.lenN] at hn hlen
  constructor
  · show (s.src + n).toNat = s.src.toNat + n.toNat
    rw [BitVec.toNat_add, Nat.mod_eq_of_lt (by omega)]
  · show (s.dst + n).toNat = s.dst.toNat + n.toNat
    rw [BitVec.toNat_add, Nat.mod_eq_of_lt (by omega)]

include hn hlen hadm in
/-- A command over the first piece is admitted when the whole is (R244). -/
theorem State.CbcAdmitted.firstPiece : (s.firstPiece n).CbcAdmitted m n.toNat := by
  obtain ⟨hready, hrange, hoverlap⟩ := hadm
  rw [State.lenN] at hn hlen
  refine ⟨fun hm => ?_, ?_, ?_⟩
  · obtain ⟨hactive, hroom⟩ := hready hm
    have hfits : s.context.msgLength + n.toNat ≤ 2 ^ 60 := by omega
    exact ⟨hactive, hfits⟩
  · show ¬ (s.bufBytes < s.src.toNat + n.toNat ∨ s.bufBytes < s.dst.toNat + n.toNat)
    omega
  · rintro ⟨hpos, -, hne, hsrc, hdst⟩
    have hsrc' : s.src.toNat < s.dst.toNat + n.toNat := hsrc
    have hdst' : s.dst.toNat < s.src.toNat + n.toNat := hdst
    have hpos' : 0 < n.toNat := hpos
    exact hoverlap ⟨by omega, by omega, hne, by omega, by omega⟩

include hn hlen hadm in
/-- A command over the second piece is admitted when the whole is (R244, R272). -/
theorem State.CbcAdmitted.secondPiece {fed : Bytes} (hsize : a.bufSize = s.bufSize)
    (hcontext : a.context = if m then s.context.absorb fed else s.context) (hfed : fed.length = n.toNat) :
    (s.secondPiece a n).CbcAdmitted m (out - n.toNat) := by
  obtain ⟨hsrc, hdst⟩ := State.secondPiece_operands (a := a) hn hlen hadm
  have hlenN := State.secondPiece_lenN (a := a) hn
  have hbytes : (s.secondPiece a n).bufBytes = s.bufBytes := congrArg BufSize.bytes hsize
  obtain ⟨hready, hrange, hoverlap⟩ := hadm
  rw [State.lenN] at hlenN
  rw [State.srcN, State.srcN] at hsrc
  rw [State.dstN, State.dstN] at hdst
  rw [State.lenN] at hn hlen hlenN
  refine ⟨fun hm => ?_, ?_, ?_⟩
  · obtain ⟨hactive, hroom⟩ := hready hm
    have habsorbed : (s.secondPiece a n).context = s.context.absorb fed := hcontext.trans (if_pos hm)
    have hmsg := s.context.absorb_msgLength fed (s.context.isInactive_eq_false_iff.2 hactive)
    rw [habsorbed]
    exact ⟨Context.absorb_ne_inactive hactive fed, by omega⟩
  · rw [State.rangesInvalid, hsrc, hdst, hlenN, hbytes]
    omega
  · rw [State.rangesOverlap, hsrc, hdst, hlenN]
    rintro ⟨hpos, hpos', hne, hsrc', hdst'⟩
    have hne' : s.src ≠ s.dst := fun h => hne (congrArg (· + n) h)
    exact hoverlap ⟨by omega, by omega, hne', by omega, by omega⟩

/-! ### What the pieces read -/

include hn in
/-- The input is that of the first piece followed by the rest. -/
theorem State.input_eq_pieces :
    s.input = (s.firstPiece n).input ++ s.memRead (s.srcN + n.toNat) (s.lenN - n.toNat) := by
  have hsplit : s.lenN = n.toNat + (s.lenN - n.toNat) := by omega
  rw [State.input, hsplit, State.memRead_add, Nat.add_sub_cancel_left]
  rfl

include hn hlen hadm in
/-- What the first piece has written lies clear of the input of the second, in place or not (R82). -/
theorem State.secondPiece_input {bs : Bytes} (hwf : s.buf.wf = true) (hbuf : a.buf = s.buf.writeBytes s.dstN bs)
    (hbs : bs.length = n.toNat) :
    (s.secondPiece a n).input = s.memRead (s.srcN + n.toNat) (s.lenN - n.toNat) := by
  obtain ⟨hsrc, -⟩ := State.secondPiece_operands (a := a) hn hlen hadm
  have hoverlap := hadm.noOverlap
  have hsame : s.src = s.dst ∨ s.src.toNat ≠ s.dst.toNat := by
    rw [ne_eq, BitVec.toNat_inj]
    exact em _
  rw [State.input, hsrc, State.secondPiece_lenN hn]
  refine List.map_congr_left fun i hi => ?_
  have hi' := List.mem_range.1 hi
  show a.buf.read _ = _
  rw [hbuf]
  refine Memory.read_writeBytes_clear ((Memory.wf_iff _).1 hwf).1 _ _ _ ?_
  rw [State.rangesOverlap] at hoverlap
  simp only [State.srcN, State.dstN, State.lenN] at *
  rcases hsame with heq | hne
  · rw [heq]
    omega
  · have hne' : s.src ≠ s.dst := fun h => hne (congrArg _ h)
    simp only [hne', ne_eq, not_false_eq_true, true_and] at hoverlap
    omega

end

/-! ### What the pieces leave -/

theorem CbcPadding.pad_whole (p : Bytes) : CbcPadding.whole.pad p = p := List.append_nil p

/-- Feeding the ciphertext of two pieces is feeding that of the whole (R272). -/
theorem Context.feed_feed (c : Context) (m : Bool) (x y : Bytes) :
    (if m then (if m then c.absorb x else c).absorb y else (if m then c.absorb x else c)) =
      if m then c.absorb (x ++ y) else c := by
  cases m with
  | false => rfl
  | true => exact c.absorb_absorb x y

/-- The pad count of the rest after whole blocks is that of the whole (R241, R271). -/
theorem CbcPadding.count_sub (pd : CbcPadding) {len n : Nat} (hblocks : n % 16 = 0) (hn : n ≤ len) :
    pd.count (len - n) = pd.count len := by
  have hmod : (len - n) % 16 = len % 16 := by omega
  cases pd with
  | whole => rfl
  | pkcs7 => simp only [count, pkcs7Count, hmod]
  | legacy => simp only [count, legacyCount, hmod]

/-- What the encryption of the first piece leaves when it has completed. -/
def State.firstEncrypted (s : State) (ks : KeySlot) (m : Bool) (n : Word) : State :=
  ((s.firstPiece n).encryptionLeft .whole ks m).completed false

/-- What the decryption of the first piece leaves when it has completed. -/
def State.firstDecrypted (s : State) (ks : KeySlot) (m : Bool) (n : Word) : State :=
  ((s.firstPiece n).decryptionLeft ks m n.toNat).completed false

section
variable {s : State} {n : Word} {m : Bool} {out : Nat} (ks : KeySlot) (hwf : s.buf.wf = true)
  (hblocks : n.toNat % 16 = 0) (hn : n.toNat ≤ s.lenN) (hlen : s.lenN ≤ out) (hadm : s.CbcAdmitted m out)

include hblocks in
/-- The first piece has as much output as input. -/
theorem State.firstPiece_cbc_length :
    (cbcEnc (s.keyBytes ks) s.ivrBytes (s.firstPiece n).input).1.length = n.toNat ∧
    (cbcDec (s.keyBytes ks) s.ivrBytes (s.firstPiece n).input).1.length = n.toNat := by
  have hinput : (s.firstPiece n).input.length = n.toNat := State.input_length _
  have hmod : (s.firstPiece n).input.length % 16 = 0 := by rw [hinput, hblocks]
  exact ⟨(cbcEnc_length _ _ _ hmod).trans hinput, (cbcDec_length _ _ _ s.ivrBytes_length hmod).trans hinput⟩

/-- What the first encryption has left of BUF, IVR and the context. -/
theorem State.firstEncrypted_fields :
    let r := cbcEnc (s.keyBytes ks) s.ivrBytes (s.firstPiece n).input
    (s.firstEncrypted ks m n).buf = s.buf.writeBytes s.dstN r.1 ∧
    (s.firstEncrypted ks m n).ivrBytes = r.2 ∧
    (s.firstEncrypted ks m n).context = if m then s.context.absorb r.1 else s.context := by
  have hpad : CbcPadding.whole.pad (s.firstPiece n).input = (s.firstPiece n).input := CbcPadding.pad_whole _
  rw [State.firstEncrypted, State.encryptionLeft, hpad]
  exact ⟨rfl, bytesOfWords_wordsOfBytes 4 _ (cbcEnc_iv_length _ _ _ s.ivrBytes_length), rfl⟩

/-- What the first decryption has left of BUF, IVR and the context. -/
theorem State.firstDecrypted_fields :
    let r := cbcDec (s.keyBytes ks) s.ivrBytes (s.firstPiece n).input
    (s.firstDecrypted ks m n).buf = s.buf.writeBytes s.dstN r.1 ∧
    (s.firstDecrypted ks m n).ivrBytes = r.2 ∧
    (s.firstDecrypted ks m n).context =
      if m then s.context.absorb (s.firstPiece n).input else s.context :=
  ⟨rfl, bytesOfWords_wordsOfBytes 4 _ (cbcDec_iv_length _ _ _ s.ivrBytes_length), rfl⟩

include hwf hblocks hn hlen hadm

/-- The encryption of the whole is that of the first piece and that of the second, chained (R157). -/
theorem State.cbcEnc_pieces (pd : CbcPadding) :
    let r := cbcEnc (s.keyBytes ks) s.ivrBytes (s.firstPiece n).input
    let b := s.secondPiece (s.firstEncrypted ks m n) n
    let q := cbcEnc (b.keyBytes ks) b.ivrBytes (pd.pad b.input)
    cbcEnc (s.keyBytes ks) s.ivrBytes (pd.pad s.input) = (r.1 ++ q.1, q.2) := by
  intro r b q
  obtain ⟨hbuf, hiv, -⟩ := State.firstEncrypted_fields (s := s) (n := n) (m := m) ks
  have hrest := State.secondPiece_input hn hlen hadm hwf hbuf (State.firstPiece_cbc_length ks hblocks).1
  have hfirst : (s.firstPiece n).input.length % 16 = 0 := by rw [State.input_length]; exact hblocks
  have hcount : pd.count b.lenN = pd.count s.lenN := by
    rw [State.secondPiece_lenN hn, pd.count_sub hblocks hn]
  have hpad : pd.pad s.input = (s.firstPiece n).input ++ pd.pad b.input := by
    rw [s.pad_input, b.pad_input, hcount, hrest, ← List.append_assoc, ← State.input_eq_pieces hn]
  have hiv' : b.ivrBytes = r.2 := hiv
  rw [hpad, cbcEnc_append _ _ _ hfirst, ← hiv']
  rfl

/-- The decryption of the whole is that of the first piece and that of the second, chained (R157). -/
theorem State.cbcDec_pieces :
    let r := cbcDec (s.keyBytes ks) s.ivrBytes (s.firstPiece n).input
    let b := s.secondPiece (s.firstDecrypted ks m n) n
    let q := cbcDec (b.keyBytes ks) b.ivrBytes b.input
    s.input = (s.firstPiece n).input ++ b.input ∧
    cbcDec (s.keyBytes ks) s.ivrBytes s.input = (r.1 ++ q.1, q.2) := by
  intro r b q
  obtain ⟨hbuf, hiv, -⟩ := State.firstDecrypted_fields (s := s) (n := n) (m := m) ks
  have hrest := State.secondPiece_input hn hlen hadm hwf hbuf (State.firstPiece_cbc_length ks hblocks).2
  have hfirst : (s.firstPiece n).input.length % 16 = 0 := by rw [State.input_length]; exact hblocks
  have hinput : s.input = (s.firstPiece n).input ++ b.input := by rw [hrest, ← State.input_eq_pieces hn]
  have hiv' : b.ivrBytes = r.2 := hiv
  refine ⟨hinput, ?_⟩
  rw [hinput, cbcDec_append _ _ _ hfirst, ← hiv']
  rfl

/-- BUF, IVR, context and LMOD after the encryption of both pieces are those after that of the whole (R271). -/
theorem State.encryptionLeft_pieces (pd : CbcPadding) :
    let t := s.encryptionLeft pd ks m
    let b := (s.secondPiece (s.firstEncrypted ks m n) n).encryptionLeft pd ks m
    b.buf = t.buf ∧ b.ivr = t.ivr ∧ b.context = t.context ∧ b.lmod = t.lmod := by
  obtain ⟨hbuf, -, hcontext⟩ := State.firstEncrypted_fields (s := s) (n := n) (m := m) ks
  obtain ⟨-, hdst⟩ := State.secondPiece_operands (a := s.firstEncrypted ks m n) hn hlen hadm
  have hlength := (State.firstPiece_cbc_length (s := s) ks hblocks).1
  have hpieces := State.cbcEnc_pieces ks hwf hblocks hn hlen hadm pd
  simp only [State.encryptionLeft, hpieces]
  refine ⟨?buf, trivial, ?context, ?lmod⟩
  case buf =>
    rw [Memory.writeBytes_append, hlength, ← hdst, ← hbuf]
    rfl
  case context =>
    rw [← Context.feed_feed, ← hcontext]
    rfl
  case lmod =>
    cases pd with
    | whole | pkcs7 => rfl
    | legacy =>
      have hmod : (s.lenN - n.toNat) % 16 = s.lenN % 16 := by omega
      simp only [CbcPadding.lmodLeft, State.secondPiece_lenN hn, hmod]

/-- BUF, IVR and context after the decryption of both pieces are those after that of the whole (R271). -/
theorem State.decryptionLeft_pieces (x y : Nat) :
    let t := s.decryptionLeft ks m x
    let b := (s.secondPiece (s.firstDecrypted ks m n) n).decryptionLeft ks m y
    b.buf = t.buf ∧ b.ivr = t.ivr ∧ b.context = t.context := by
  obtain ⟨hbuf, -, hcontext⟩ := State.firstDecrypted_fields (s := s) (n := n) (m := m) ks
  obtain ⟨-, hdst⟩ := State.secondPiece_operands (a := s.firstDecrypted ks m n) hn hlen hadm
  have hlength := (State.firstPiece_cbc_length (s := s) ks hblocks).2
  obtain ⟨hinput, hpieces⟩ := State.cbcDec_pieces ks hwf hblocks hn hlen hadm
  simp only [State.decryptionLeft, hpieces]
  refine ⟨?buf, trivial, ?context⟩
  case buf =>
    rw [Memory.writeBytes_append, hlength, ← hdst, ← hbuf]
    rfl
  case context =>
    rw [hinput, ← Context.feed_feed, ← hcontext]
    rfl

end

end Sys2Proof.Machine
end

section
/-! PROOFS. The obligations of 44_cbc_commands.md about commands cut in two (R271), and of 42_hash_cores.md about the
padding of SHA-256 (R172). -/

namespace Sys2Proof.Machine

/-- A state that differs from another at most in BUF, IVR, the context and LMOD, and agrees there, is that state. -/
theorem State.eq_of_cbc_frame {x t : State}
    (hframe : x = { t with buf := x.buf, ivr := x.ivr, context := x.context, lmod := x.lmod })
    (hbuf : x.buf = t.buf) (hivr : x.ivr = t.ivr) (hcontext : x.context = t.context) (hlmod : x.lmod = t.lmod) :
    x = t :=
  hframe.trans (by rw [hbuf, hivr, hcontext, hlmod])

/-! ### Encryption in two pieces -/

/-- Encryption takes the rest after whole blocks of an input it takes (R241). -/
theorem CbcPadding.encTakes_sub {pd : CbcPadding} {len n : Nat} (h : pd.encTakes len = true) (hblocks : n % 16 = 0)
    (hn : n ≤ len) : pd.encTakes (len - n) = true := by
  cases pd with
  | whole =>
    have hmod : len % 16 = 0 := beq_iff_eq.1 h
    exact beq_iff_eq.2 (by omega)
  | pkcs7 | legacy => rfl

section
variable {s : State} {n : Word} {m : Bool} {pd : CbcPadding} (ks : KeySlot)

/-- The encryption of the first piece completes (R248). -/
theorem exec_firstPiece_encryption (hblocks : n.toNat % 16 = 0) (hadm : (s.firstPiece n).CbcAdmitted m n.toNat) :
    exec (.cbcEnc ks m) (s.firstPiece n) = .next (s.firstEncrypted ks m n) := by
  have htakes : CbcPadding.whole.encTakes (s.firstPiece n).lenN = true := beq_iff_eq.2 hblocks
  have hexec := CbcPadding.exec_encCommand_of_admitted ks htakes hadm
  rwa [State.encrypted_eq] at hexec

/-- The encryption of the second piece completes (R248, R254, R261). -/
theorem exec_secondPiece_encryption (hblocks : n.toNat % 16 = 0) (hn : n.toNat ≤ s.lenN)
    (htakes : pd.encTakes s.lenN = true) (hadm : s.CbcAdmitted m (s.lenN + pd.count s.lenN)) :
    exec (pd.encCommand ks m) (s.secondPiece (s.firstEncrypted ks m n) n) =
      .next (((s.secondPiece (s.firstEncrypted ks m n) n).encryptionLeft pd ks m).completed false) := by
  obtain ⟨-, -, hcontext⟩ := State.firstEncrypted_fields (s := s) (n := n) (m := m) ks
  have hlenN := State.secondPiece_lenN (a := s.firstEncrypted ks m n) hn
  have hout : s.lenN + pd.count s.lenN - n.toNat = (s.lenN - n.toNat) + pd.count (s.lenN - n.toNat) := by
    rw [pd.count_sub hblocks hn]
    omega
  have hsecond := hadm.secondPiece hn (Nat.le_add_right _ _) (a := s.firstEncrypted ks m n) rfl hcontext
    (State.firstPiece_cbc_length ks hblocks).1
  rw [hout, ← hlenN] at hsecond
  have htakes' := CbcPadding.encTakes_sub htakes hblocks hn
  rw [← hlenN] at htakes'
  rw [CbcPadding.exec_encCommand_of_admitted ks htakes' hsecond, State.encrypted_eq]

end

/-- Settles O46: the pieces' outputs are stored one after the other, their chains and feeds run on, and the last piece
is padded as the whole is. -/
theorem encryptionChunks : Obligations.EncryptionChunks := by
  unfold Obligations.EncryptionChunks
  intro s ks m n i lengthTaken out hi hwf hblocks hn hshape htaken hadm
  obtain ⟨pd, rfl⟩ := exists_padding_of_encCommand hi
  obtain ⟨htakes, rfl⟩ : pd.encTakes s.lenN = true ∧ s.lenN + pd.count s.lenN = out := by
    rw [pd.cbcShape_encCommand] at hshape
    cases hshape
    exact ⟨htaken, rfl⟩
  have hlen : s.lenN ≤ s.lenN + pd.count s.lenN := Nat.le_add_right _ _
  refine ⟨(s.encryptionLeft pd ks m).completed false, _, _, ?whole,
    exec_firstPiece_encryption ks hblocks (hadm.firstPiece hn hlen),
    exec_secondPiece_encryption ks hblocks hn htakes hadm, ?same⟩
  case whole => rw [CbcPadding.exec_encCommand_of_admitted ks htakes hadm, State.encrypted_eq]
  case same =>
    obtain ⟨hbuf, hivr, hcontext, hlmod⟩ := State.encryptionLeft_pieces ks hwf hblocks hn hlen hadm pd
    exact State.eq_of_cbc_frame rfl hbuf hivr hcontext hlmod

/-! ### Decryption in two pieces -/

/-- OUTLEN after a decryption: nothing if there is no padding to trim (R257, R265). -/
def CbcPadding.outlenLeft (pd : CbcPadding) (ks : KeySlot) (s : State) : Nat :=
  match pd.trim ks s with
  | some q => s.lenN - q
  | none => 0

/-- The code a decryption completes with: PADDING if there is no padding to trim (R257). -/
def CbcPadding.codeLeft (pd : CbcPadding) (ks : KeySlot) (s : State) : Code :=
  match pd.trim ks s with
  | some _ => .ok
  | none => .padding

/-- A decryption as one completion (R251, R257, R265). -/
theorem State.decrypted_eq (s : State) (pd : CbcPadding) (ks : KeySlot) (m : Bool) :
    s.decrypted pd ks m = (s.decryptionLeft ks m (pd.outlenLeft ks s)).finish false (pd.codeLeft ks s) := by
  rw [State.decrypted, CbcPadding.outlenLeft, CbcPadding.codeLeft]
  cases pd.trim ks s with
  | some q =>
    dsimp only
    rw [State.cbcDecrypt_setOutlen, State.finish_ok]
  | none =>
    dsimp only
    rw [State.cbcDecrypt_setOutlen, State.finish_error _ (by decide)]

/-- The strip looks at the last 16 bytes alone (R257). -/
theorem pkcs7Strip_append_of_block (p : Bytes) {r : Bytes} (hr : 16 ≤ r.length) :
    pkcs7Strip (p ++ r) = pkcs7Strip r := by
  have hlast : (p ++ r).getD ((p ++ r).length - 1) 0x00#8 = r.getD (r.length - 1) 0x00#8 := by
    rw [List.getD_eq_getElem?_getD, List.getD_eq_getElem?_getD, List.length_append,
      List.getElem?_append_right (by omega)]
    congr 2
    omega
  simp only [pkcs7Strip, hlast]
  generalize (r.getD (r.length - 1) 0x00#8).toNat = q
  by_cases hq : q ≤ 16
  · have hdrop : (p ++ r).drop ((p ++ r).length - q) = r.drop (r.length - q) := by
      have hcut : (p ++ r).length - q = p.length + (r.length - q) := by rw [List.length_append]; omega
      rw [hcut, List.drop_length_add_append]
    rw [hdrop]
  · simp [hq]

/-- Decryption takes the rest after whole blocks of an input it takes, the last piece of a PKCS#7 stream not empty
(R241, R271). -/
theorem CbcPadding.decTakes_sub {pd : CbcPadding} {len n : Nat} (hlen : len % 16 = 0) (hblocks : n % 16 = 0)
    (hn : n ≤ len) (hlast : pd = .pkcs7 → n < len) : pd.decTakes len = true ∧ pd.decTakes (len - n) = true := by
  have hrest : (len - n) % 16 = 0 := by omega
  cases pd with
  | whole | legacy => exact ⟨beq_iff_eq.2 hlen, beq_iff_eq.2 hrest⟩
  | pkcs7 =>
    have hlt := hlast rfl
    have hmin : 16 ≤ len := by omega
    have hmin' : 16 ≤ len - n := by omega
    exact ⟨Bool.and_eq_true_iff.2 ⟨beq_iff_eq.2 hlen, decide_eq_true hmin⟩,
      Bool.and_eq_true_iff.2 ⟨beq_iff_eq.2 hrest, decide_eq_true hmin'⟩⟩

section
variable {s : State} {n : Word} {m : Bool} {pd : CbcPadding} (ks : KeySlot)

/-- The decryption of the first piece completes (R251). -/
theorem exec_firstPiece_decryption (hblocks : n.toNat % 16 = 0) (hadm : (s.firstPiece n).CbcAdmitted m n.toNat) :
    exec (.cbcDec ks m) (s.firstPiece n) = .next (s.firstDecrypted ks m n) := by
  have htakes : CbcPadding.whole.decTakes (s.firstPiece n).lenN = true := beq_iff_eq.2 hblocks
  exact CbcPadding.exec_decCommand_of_trim htakes hadm rfl

/-- A decryption completes as its padding says (R251, R257, R265). -/
theorem CbcPadding.exec_decCommand_finish (htakes : pd.decTakes s.lenN = true) (hadm : s.CbcAdmitted m s.lenN) :
    exec (pd.decCommand ks m) s =
      .next ((s.decryptionLeft ks m (pd.outlenLeft ks s)).finish false (pd.codeLeft ks s)) := by
  rw [pd.exec_decCommand_of_admitted ks htakes hadm, State.decrypted_eq]

variable (hwf : s.buf.wf = true) (hblocks : n.toNat % 16 = 0) (hn : n.toNat ≤ s.lenN) (hadm : s.CbcAdmitted m s.lenN)
  (htakes : pd.decTakes (s.lenN - n.toNat) = true)
include hn hadm htakes

/-- The decryption of the second piece completes (R251, R257, R265). -/
theorem exec_secondPiece_decryption :
    let b := s.secondPiece (s.firstDecrypted ks m n) n
    exec (pd.decCommand ks m) b =
      .next ((b.decryptionLeft ks m (pd.outlenLeft ks b)).finish false (pd.codeLeft ks b)) := by
  obtain ⟨-, -, hcontext⟩ := State.firstDecrypted_fields (s := s) (n := n) (m := m) ks
  have hlenN := State.secondPiece_lenN (a := s.firstDecrypted ks m n) hn
  have hsecond := hadm.secondPiece hn le_rfl (a := s.firstDecrypted ks m n) rfl hcontext (State.input_length _)
  rw [← hlenN] at hsecond htakes
  exact CbcPadding.exec_decCommand_finish ks htakes hsecond

include hwf hblocks in
/-- The second piece completes with the code of the whole: the end of its plaintext is the end of the whole's. -/
theorem CbcPadding.codeLeft_secondPiece :
    pd.codeLeft ks (s.secondPiece (s.firstDecrypted ks m n) n) = pd.codeLeft ks s := by
  cases pd with
  | whole | legacy => rfl
  | pkcs7 =>
    obtain ⟨-, hpieces⟩ := State.cbcDec_pieces ks hwf hblocks hn le_rfl hadm
    have hlenN := State.secondPiece_lenN (a := s.firstDecrypted ks m n) hn
    rw [← hlenN] at htakes
    have hlength : 16 ≤ ((s.secondPiece (s.firstDecrypted ks m n) n).cbcPlaintext ks).length := by
      rw [State.cbcPlaintext, State.plaintext_length ks htakes]
      exact of_decide_eq_true (Bool.and_eq_true_iff.1 htakes).2
    have hplain : s.cbcPlaintext ks = (cbcDec (s.keyBytes ks) s.ivrBytes (s.firstPiece n).input).1 ++
        (s.secondPiece (s.firstDecrypted ks m n) n).cbcPlaintext ks := congrArg Prod.fst hpieces
    rw [codeLeft, codeLeft, trim, trim, hplain, pkcs7Strip_append_of_block _ hlength]

end

/-- The decryption commands are those of the schemes. -/
theorem exists_padding_of_decCommand {ks : KeySlot} {m : Bool} {i : Instr} {P : Prop}
    (h : i = .cbcDec ks m ∨ (i = .cbcDecPkcs7 ks m ∧ P) ∨ i = .cbcDecLegacy ks m) :
    ∃ pd : CbcPadding, i = pd.decCommand ks m ∧ (pd = .pkcs7 → P) := by
  rcases h with rfl | ⟨rfl, hP⟩ | rfl
  · exact ⟨.whole, rfl, nofun⟩
  · exact ⟨.pkcs7, rfl, fun _ => hP⟩
  · exact ⟨.legacy, rfl, nofun⟩

/-- Settles O47: the pieces' plaintexts are stored one after the other, their chains and feeds run on, and the last
piece ends as the whole does. -/
theorem decryptionChunks : Obligations.DecryptionChunks := by
  unfold Obligations.DecryptionChunks
  intro s ks m n i hi hwf hblocks hn hlen hadm
  obtain ⟨pd, rfl, hlast⟩ := exists_padding_of_decCommand hi
  obtain ⟨htakes, htakes'⟩ := CbcPadding.decTakes_sub hlen hblocks hn hlast
  refine ⟨_, _, _, CbcPadding.exec_decCommand_finish ks htakes hadm,
    exec_firstPiece_decryption ks hblocks (hadm.firstPiece hn le_rfl),
    exec_secondPiece_decryption ks hn hadm htakes', ?_⟩
  rw [CbcPadding.codeLeft_secondPiece ks hwf hblocks hn hadm htakes']
  obtain ⟨hbuf, hivr, hcontext⟩ := State.decryptionLeft_pieces ks hwf hblocks hn le_rfl hadm (pd.outlenLeft ks s)
    (pd.outlenLeft ks (s.secondPiece (s.firstDecrypted ks m n) n))
  exact State.eq_of_cbc_frame rfl hbuf hivr hcontext rfl

/-! ### The padding of SHA-256 (R172) -/

/-- Settles O58: the count of zeros is what is left to the next multiple of 64, and 8 bytes hold the bit length. -/
theorem sha256Padding : Obligations.Sha256Padding := by
  unfold Obligations.Sha256Padding
  intro m hm
  refine ⟨(64 - (m.length + 1 + 8) % 64) % 64, rfl, ?blocks, fun y hy => by omega, ?length⟩
  case blocks =>
    simp only [shaPad, List.length_append, List.length_singleton, zeros_length, beBytes_length]
    omega
  case length => exact beNat_beBytes 8 _ (by omega)

end Sys2Proof.Machine
end
